-- ==== Sys2Proof/Word.lean ====
section
/-! DEFINITION. The two widths of data the block works on: bytes and 32-bit words (00_scope.md R10, R11). -/

namespace Sys2Proof

/-- One byte of DMEM, of a key, a nonce, a keystream or a message. -/
abbrev Byte := BitVec 8

/-- A 32-bit word: a host register, a word of W or K, a command word (R10). -/
abbrev Word := BitVec 32

end Sys2Proof
end

