-- ==== Sys2Proof/Config.lean ====
section
/-! DEFINITION. What an implementation fixes (the parameters of 00_scope.md R9) and the free values: what the spec leaves
UNSPECIFIED while the machine goes on (93_implementation_defined.md U1 to U4). A free value has no body, so nothing
can be proved of it that does not hold for every value. -/

namespace Sys2Proof

/-- The parameters of R9. `State` carries them, so that every statement about all states holds for every legal value. -/
structure Params where
  /-- P_DMEM_SIZE = 2^(8 + dmemIdx): a power of two from 256 to 65536 -/
  dmemIdx : Fin 9
  /-- P_HAS_V128: the 128-bit batch engine is present -/
  hasV128 : Bool
  /-- P_HAS_V256: the 256-bit batch engine is present -/
  hasV256 : Bool
  deriving DecidableEq, Repr

/-- log2(P_DMEM_SIZE), as CAP.DMEM_LOG2 reports it (10_state.md R22). -/
def Params.dmemLog2 (p : Params) : Nat := 8 + p.dmemIdx.val

/-- P_DMEM_SIZE in bytes (R9). -/
def Params.dmemSize (p : Params) : Nat := 2 ^ p.dmemLog2

namespace Config

/-- The reference parameters: P_DMEM_SIZE = 65536 (R9) and both batch engines (95_test_vectors.md's setting).
DESIGN CHOICE, safe: `State.reset` needs one value, and statements range over all (log entry 3). -/
def reference : Params := ⟨8, true, true⟩

/-- FREE VALUE (U1): what DMEM byte `addr` holds until it is written, after the reset numbered `epoch` (log entry 4). -/
opaque dmemAfterReset : Nat → Nat → Byte

/-- FREE VALUE (U2, U4): the data of a host read of W or DMEM while BUSY = 1, and of any host read while `rst` is
asserted; applied to the state's counter (log entries 5 and 8). -/
opaque portData : Nat → Word

/-- FREE CHOICE (U3): whether a MAC command issued while PST = Finished raises POLY_NOT_ACTIVE or completes (log entry 6). -/
opaque misuseRaises : Nat → Bool

/-- FREE VALUE (U3): PACC after such a command (log entry 6). -/
opaque misusePacc : Nat → Nat

/-- FREE VALUE (U3): PBUF after such a command (log entry 6). -/
opaque misusePbuf : Nat → List Byte

/-- FREE VALUE (U3): PS after such a command (log entry 6). -/
opaque misusePs : Nat → BitVec 128

/-- FREE VALUE (U3): PST after such a command (log entry 6). -/
opaque misusePst : Nat → Fin 3

/-- FREE VALUE (U3): the 16 bytes of the TAG range after such a command (log entry 6). -/
opaque misuseTag : Nat → BitVec 128

end Config

end Sys2Proof
end

