-- ==== Sys2Proof/Syntax.lean ====
section
/-! DEFINITION. The commands (30_encoding.md R93), one constructor of `Instr` for each row of the opcode table, and the
assembler lines and pseudo-instructions of R99 and R100. -/

namespace Sys2Proof

/-- A lane of format Q: the index of one word of W, 0 to 15 (R92). The bound is a plain fact about one field, so the type carries it. -/
abbrev Lane := Fin 16

/-- The commands, one constructor for each row of R93, in the table's order.
Every other operand of a command comes from the operand registers and CFG (R92), so it is no part of the syntax. -/
inductive Instr where
  /-- NOP (R150) -/
  | nop
  /-- QR.C a, b, c, d (R122) -/
  | qrC (a b c d : Lane)
  /-- DR.C (R124) -/
  | drC
  /-- PERM.C (R126) -/
  | permC
  /-- QR.S a, b, c, d (R128) -/
  | qrS (a b c d : Lane)
  /-- DR.S (R130) -/
  | drS
  /-- PERM.S (R132) -/
  | permS
  /-- LDKEY (R155) -/
  | ldkey
  /-- SETIV (R156) -/
  | setiv
  /-- SETCTR (R158) -/
  | setctr
  /-- RESET (R159) -/
  | reset
  /-- KSGEN.1 (R161) -/
  | ksgen1
  /-- KSGEN.2 (R162) -/
  | ksgen2
  /-- KSGEN.4 (R164) -/
  | ksgen4
  /-- KSGEN.8 (R167) -/
  | ksgen8
  /-- UPDATE (R166) -/
  | update
  /-- HNONCE (R193) -/
  | hnonce
  /-- ZEROIZE (R168) -/
  | zeroize
  /-- P.INIT (R212) -/
  | pInit
  /-- P.BLOCK h (R213): `h` is the high-bit flag H. -/
  | pBlock (h : Bool)
  /-- P.UPDATE (R214) -/
  | pUpdate
  /-- P.FINAL (R215) -/
  | pFinal
  /-- AEAD.ENC (R245) -/
  | aeadEnc
  /-- AEAD.DEC (R246) -/
  | aeadDec
  deriving DecidableEq, Repr

/-- The mnemonics of format N (R93): the bare mnemonic is the whole line (R99). -/
inductive NMnemonic where
  | nop | drC | permC | drS | permS | ldkey | setiv | setctr | reset | update | hnonce | zeroize
  | pInit | pUpdate | pFinal | aeadEnc | aeadDec
  deriving DecidableEq, Repr

/-- The mnemonics of format Q (R93). -/
inductive QMnemonic where
  | qrC | qrS
  deriving DecidableEq, Repr

/-- An assembler line as it is written (R99), its numbers not yet checked: `AsmLine.wellFormed` checks them. -/
inductive AsmLine where
  /-- format N: the bare mnemonic -/
  | bare (m : NMnemonic)
  /-- format Q: the mnemonic and four lane indices -/
  | lanes (m : QMnemonic) (a b c d : Nat)
  /-- format K: KSGEN with its batch suffix N -/
  | ksgen (blocks : Nat)
  /-- format P: P.BLOCK h -/
  | pBlock (h : Nat)
  deriving DecidableEq, Repr

/-- The pseudo-instructions of R100 that stand for command words (`poll` and `run` are host loops: see `runInputs`). -/
inductive Pseudo where
  | new | ksgen | pBlock | colroundC | diagroundC | colroundS | rowroundS
  deriving DecidableEq, Repr

/-- The expansions of R100, as commands run one after the other. -/
def Pseudo.expand : Pseudo → List Instr
  | .new => [.ldkey, .setiv]
  | .ksgen => [.ksgen1]
  | .pBlock => [.pBlock true]
  | .colroundC => [.qrC 0 4 8 12, .qrC 1 5 9 13, .qrC 2 6 10 14, .qrC 3 7 11 15]
  | .diagroundC => [.qrC 0 5 10 15, .qrC 1 6 11 12, .qrC 2 7 8 13, .qrC 3 4 9 14]
  | .colroundS => [.qrS 0 4 8 12, .qrS 5 9 13 1, .qrS 10 14 2 6, .qrS 15 3 7 11]
  | .rowroundS => [.qrS 0 1 2 3, .qrS 5 6 7 4, .qrS 10 11 8 9, .qrS 15 12 13 14]

end Sys2Proof
end

