-- ==== Sys2Proof/Machine/State.lean ====
section
/-! DEFINITION. The state of the block (10_state.md), with the host-port inputs still to come, and its value after reset
(70_reset_and_hazards.md R301). -/

namespace Sys2Proof.Machine

/-- The result code ERR of the last completed command (10_state.md R24): the four values that are ever produced. -/
inductive Err where
  | none | invalidArgument | authenticationFailure | illegalCommand
  deriving DecidableEq, Repr

/-- The sub-causes of InvalidArgument (60_exceptions.md R272). -/
inductive SubCause where
  | keyNotLoaded | keyLength | notInitialised | algReserved | algForOperation | rounds | polyNotActive | polyPartial
  | rangeSrc | rangeDst | rangeAad | rangeTag | rangeKey | rangeNonce | overlap
  deriving DecidableEq, Repr

/-- The driver state DRV (R34). -/
inductive Drv where
  | unkeyed | fresh | streaming
  deriving DecidableEq, Repr

/-- The Poly1305 state PST (R35). -/
inductive Pst where
  | idle | active | finished
  deriving DecidableEq, Repr

/-- The loaded key's length KLEN in bytes, 16 or 32 (R32). -/
inductive KeyLen where
  | k16 | k32
  deriving DecidableEq, Repr

/-- The three legal values of CFG.ALG (R26): ChaCha20 IETF layout, ChaCha20 original layout, Salsa20. -/
inductive Alg where
  | ietf | original | salsa
  deriving DecidableEq, Repr

/-- The cipher state W[0..15] (R30). -/
abbrev CipherState := Vector Word 16

/-- The key register file K[0..7] (R32). -/
abbrev KeyWords := Vector Word 8

/-- The fields of CFG (R26). Its other bits read 0 and ignore writes, so they are no state (log entry 12). -/
structure Cfg where
  alg : BitVec 2
  xn : Bool
  k16 : Bool
  rounds : BitVec 8
  deriving DecidableEq, Repr

/-- The operand registers (R29). -/
structure OperandRegs where
  src : Word
  dst : Word
  len : Word
  aad : Word
  aadlen : Word
  tag : Word
  keya : Word
  noncea : Word
  ctrlo : Word
  ctrhi : Word
  deriving DecidableEq, Repr

/-- DMEM (20_memory.md R60 (b)): the bytes written since reset, at strictly rising addresses. An address that is not
listed has no value of its own: reading it gives the free value of U1 for this `epoch`, the number of the reset (log entry 4). -/
structure Memory where
  epoch : Nat
  cells : List Host.Cell
  deriving DecidableEq, Repr

/-- The access widths of the host port (20_memory.md R62, R67): 8, 16 and 32 bits. -/
inductive Width where
  | b8 | b16 | b32
  deriving DecidableEq, Repr

/-- One access of the host to the 17-bit window (R60, R61). A write narrower than 32 bits uses the low bits of `value`. -/
inductive Access where
  | read (offset : BitVec 17) (width : Width)
  | write (offset : BitVec 17) (width : Width) (value : Word)
  deriving DecidableEq, Repr

/-- One step of an agent (70_reset_and_hazards.md R300, R318): a host access, a turn of the command engine, or a
change of the reset input. -/
inductive Input where
  | access (a : Access)
  | engine
  | rst (level : Bool)
  deriving DecidableEq, Repr

/-- The host port's reply to the last access (20_memory.md R62, R72): the model's own record (log entry 10). -/
inductive PortReply where
  /-- no access yet -/
  | idle
  /-- a read completed with this data, zero-extended from the access width -/
  | data (value : Word)
  /-- a write completed, whether it took effect, was ignored or was dropped -/
  | written
  deriving DecidableEq, Repr

/-- Why a step stops. -/
inductive Fault where
  /-- Raised by the host step (`hostAccess`) on an access that 20_memory.md R62 makes a bus error: "A model treats a bus
  error as a fault of the host's step". Safe: the hardware goes on with no state changed (log entry 7). -/
  | busError (a : Access)
  deriving DecidableEq, Repr

/-- Why a step is refused. -/
inductive Refusal where
  /-- Raised by an arm of `exec` for an instruction without a meaning. No arm raises it. Safe. -/
  | notModelled (mnemonic : String)
  deriving DecidableEq, Repr

/-- The state of the block, of its host port and of the inputs still to come. -/
structure State where
  /-- the parameters (00_scope.md R9): constant -/
  params : Params
  /-- the level of the reset input `rst` (70_reset_and_hazards.md R300) -/
  rst : Bool
  /-- CTRL.IE (R23) -/
  ie : Bool
  /-- STATUS.BUSY (R24, R36) -/
  busy : Bool
  /-- STATUS.DONE (R24) -/
  done : Bool
  /-- STATUS.OVR (R24) -/
  ovr : Bool
  /-- STATUS.ERR (R24) -/
  err : Err
  /-- ERR_INFO (R25): no sub-cause reads as 0 -/
  errInfo : Option SubCause
  /-- CFG (R26) -/
  cfg : Cfg
  /-- SRC, DST, LEN, AAD, AADLEN, TAG, KEYA, NONCEA, CTRLO, CTRHI (R29) -/
  regs : OperandRegs
  /-- CMDL, the latched command word (R36) -/
  cmdl : Word
  /-- W[0..15] (R30) -/
  w : CipherState
  /-- K[0..7] (R32) -/
  k : KeyWords
  /-- KLEN (R32) -/
  klen : KeyLen
  /-- KV (R32) -/
  kv : Bool
  /-- KS, the pending keystream (R33) -/
  ks : List Byte
  /-- DRV (R34) -/
  drv : Drv
  /-- PR (R35) -/
  pr : BitVec 128
  /-- PS (R35) -/
  ps : BitVec 128
  /-- PACC (R35) -/
  pacc : Nat
  /-- PBUF (R35) -/
  pbuf : List Byte
  /-- PST (R35) -/
  pst : Pst
  /-- DMEM (20_memory.md R60) -/
  mem : Memory
  /-- the agents' steps still to come, the next one first: the model's own (log entry 1) -/
  inputs : List Input
  /-- the host port's reply to the last access: the model's own (log entry 10) -/
  port : PortReply
  /-- the counter the free values are applied to: the model's own (log entries 5, 6, 8) -/
  freeCount : Nat
  deriving DecidableEq, Repr

/-- CFG after reset: 0x00001400 (R26, R301). -/
def Cfg.reset : Cfg := ⟨0#2, false, false, 20#8⟩

/-- The operand registers after reset: all 0 (R301). -/
def OperandRegs.reset : OperandRegs := ⟨0, 0, 0, 0, 0, 0, 0, 0, 0, 0⟩

/-- The table of R301 for a block with the given parameters. CMDL "holds no meaning" there: 0, a DESIGN CHOICE (log entry 9). -/
def State.resetOf (p : Params) : State where
  params := p
  rst := false
  ie := false
  busy := false
  done := false
  ovr := false
  err := .none
  errInfo := none
  cfg := Cfg.reset
  regs := OperandRegs.reset
  cmdl := 0
  w := Vector.replicate 16 0
  k := Vector.replicate 8 0
  klen := .k32
  kv := false
  ks := []
  drv := .unkeyed
  pr := 0
  ps := 0
  pacc := 0
  pbuf := []
  pst := .idle
  mem := ⟨0, []⟩
  inputs := []
  port := .idle
  freeCount := 0

/-- The machine right after reset, with the reference parameters (R9, R301; log entry 3). -/
def State.reset : State := State.resetOf Config.reference

end Sys2Proof.Machine
end

