-- ==== Sys2Proof/Machine/Ops.lean ====
section
/-! DEFINITION. The shared operations: conversions between bytes and integers (00_scope.md R12, R13), DMEM (20_memory.md R63),
issuing a command and completing it with a result (60_exceptions.md R270), and running a command's checks in order (R275).
The block's way of taking an exception is `State.complete`: there is no trap, no saved pc, no vector and no return
(R277, R278), so nothing stands beside it. -/

namespace Sys2Proof.Machine

/-- The outcome of a step of this machine. -/
abbrev StepResult := Host.Outcome State Fault Refusal

/-! ### Words, bytes and integers -/

/-- Left rotation of a 32-bit word (R12). -/
def rotl32 (x : Word) (n : Nat) : Word := (x <<< n) ||| (x >>> (32 - n))

/-- `LE32` of four bytes, the first least significant (R13). -/
def le32 (b0 b1 b2 b3 : Byte) : Word := b3 ++ b2 ++ b1 ++ b0

/-- `LEwords` (R13): the words of a string of 4n bytes. -/
def leWords : List Byte → List Word
  | b0 :: b1 :: b2 :: b3 :: rest => le32 b0 b1 b2 b3 :: leWords rest
  | _ => []

/-- The little-endian 4-byte encoding of one word (R13). -/
def wordBytes (x : Word) : List Byte :=
  [x.extractLsb' 0 8, x.extractLsb' 8 8, x.extractLsb' 16 8, x.extractLsb' 24 8]

/-- `bytesLE` (R13): the little-endian encodings of the words, one after the other. -/
def bytesLE (ws : List Word) : List Byte := ws.flatMap wordBytes

/-- `LEint` (R13). -/
def leInt : List Byte → Nat
  | [] => 0
  | b :: bs => b.toNat + 256 * leInt bs

/-- `toLE(v, n)` (R13): the n-byte little-endian encoding of v mod 2^(8n). -/
def toLE (v : Nat) : Nat → List Byte
  | 0 => []
  | n + 1 => BitVec.ofNat 8 v :: toLE (v / 256) n

/-- The bytewise exclusive-or of two strings. -/
def xorBytes (xs ys : List Byte) : List Byte := List.zipWith (· ^^^ ·) xs ys

/-- Word i of a list of words. -/
def wordAt (ws : List Word) (i : Nat) : Word := ws.getD i 0

/-- Eight words as a key register file (R32). -/
def keyOfWords (ws : List Word) : KeyWords :=
  #v[wordAt ws 0, wordAt ws 1, wordAt ws 2, wordAt ws 3, wordAt ws 4, wordAt ws 5, wordAt ws 6, wordAt ws 7]

/-! ### DMEM -/

/-- The byte listed at an address. -/
def lookupCell (a : Nat) : List Host.Cell → Option Byte
  | [] => none
  | (c, v) :: rest => if c = a then some v else lookupCell a rest

/-- List a byte at an address, in its place in the rising order, over the byte listed there before. -/
def insertCell (a : Nat) (b : Byte) : List Host.Cell → List Host.Cell
  | [] => [(a, b)]
  | (c, v) :: rest =>
      if a < c then (a, b) :: (c, v) :: rest
      else if a = c then (a, b) :: rest
      else (c, v) :: insertCell a b rest

/-- What an unlisted address reads as: the free value of U1, fixed until the byte is written (log entry 4). -/
def Memory.unlisted (m : Memory) (a : Nat) : Byte := Config.dmemAfterReset m.epoch a

/-- DMEM[a]. -/
def Memory.read (m : Memory) (a : Nat) : Byte := (lookupCell a m.cells).getD (m.unlisted a)

/-- DMEM[a] <- b. -/
def Memory.write (m : Memory) (a : Nat) (b : Byte) : Memory := { m with cells := insertCell a b m.cells }

/-- `MemRead(a, n)` (R63). -/
def Memory.readBytes (m : Memory) (a n : Nat) : List Byte := (List.range n).map fun i => m.read (a + i)

/-- `MemWrite(a, len(s), s)` (R63). -/
def Memory.writeBytes (m : Memory) (a : Nat) : List Byte → Memory
  | [] => m
  | b :: bs => (m.write a b).writeBytes (a + 1) bs

/-- The canonical form: addresses strictly rising. An unlisted address has no value of its own, so no entry can equal it
(log entry 4), and equal lists of writes give equal data. -/
abbrev Memory.wf (m : Memory) : Prop := m.cells.Pairwise fun x y => x.1 < y.1

/-- Every listed address exists: it is below `size` (R60). -/
abbrev Memory.within (m : Memory) (size : Nat) : Prop := ∀ c ∈ m.cells, c.1 < size

/-- `MemRead(a, n)` at the address held by an operand register (R14, R63). -/
def State.memRead (s : State) (a : Word) (n : Nat) : List Byte := s.mem.readBytes a.toNat n

/-- `MemWrite(a, n, bytes)` at the address held by an operand register (R14, R63). -/
def State.memWrite (s : State) (a : Word) (bytes : List Byte) : State := { s with mem := s.mem.writeBytes a.toNat bytes }

/-! ### Issue, completion and checks -/

/-- How a command ends (R270). -/
inductive Result where
  | ok
  | invalidArgument (c : SubCause)
  | authenticationFailure
  | illegalCommand
  deriving DecidableEq, Repr

/-- The ERR of a result (R24, R270). -/
def Result.err : Result → Err
  | .ok => .none
  | .invalidArgument _ => .invalidArgument
  | .authenticationFailure => .authenticationFailure
  | .illegalCommand => .illegalCommand

/-- The ERR_INFO of a result (R25, R270): a sub-cause only for InvalidArgument. -/
def Result.info : Result → Option SubCause
  | .invalidArgument c => some c
  | _ => none

/-- Issue (R270): CMDL <- v; BUSY <- 1; DONE <- 0; ERR <- 0; ERR_INFO <- 0. -/
def State.issue (v : Word) (s : State) : State :=
  { s with cmdl := v, busy := true, done := false, err := .none, errInfo := none }

/-- Completion (R270): (ERR, ERR_INFO) <- result; BUSY <- 0; DONE <- 1. -/
def State.complete (r : Result) (s : State) : State :=
  { s with err := r.err, errInfo := r.info, busy := false, done := true }

/-- The command has its whole effect `s` and completes with ERR = 0. -/
def succeed (s : State) : StepResult := .next (s.complete .ok)

/-- `raise InvalidArgument(info)` (00_scope.md R14, R272): the command ends with no other state change (R279). -/
def raise (c : SubCause) (s : State) : StepResult := .next (s.complete (.invalidArgument c))

/-- One check of a command's rule: what makes it fail, and the sub-cause it then raises. -/
structure Check where
  failed : Bool
  cause : SubCause
  deriving DecidableEq, Repr

/-- The first check that fails, in the order the rule lists them (R275). -/
def firstFailure : List Check → Option SubCause
  | [] => none
  | c :: cs => if c.failed then some c.cause else firstFailure cs

/-- Run the checks in order; on the first failure raise its sub-cause, else go on with `k` (R275). -/
def checked (cs : List Check) (s : State) (k : StepResult) : StepResult :=
  match firstFailure cs with
  | some c => raise c s
  | none => k

end Sys2Proof.Machine
end

