-- ==== Sys2Proof/Machine/Flags.lean ====
section
/-! DEFINITION. The register words the host reads and writes: the fields of STATUS, ERR_INFO, CTRL, CFG, CAP and ID
(10_state.md R20 to R26), their codes, and the output `irq` (R41). Reserved bits read 0. -/

namespace Sys2Proof.Machine

/-- The code of ERR in STATUS[7:4] (R24). -/
def Err.code : Err → BitVec 4
  | .none => 0
  | .invalidArgument => 1
  | .authenticationFailure => 2
  | .illegalCommand => 3

/-- The code of a sub-cause in ERR_INFO[7:0] (60_exceptions.md R272). -/
def SubCause.code : SubCause → BitVec 8
  | .keyNotLoaded => 0x01
  | .keyLength => 0x02
  | .notInitialised => 0x03
  | .algReserved => 0x04
  | .algForOperation => 0x05
  | .rounds => 0x06
  | .polyNotActive => 0x07
  | .polyPartial => 0x08
  | .rangeSrc => 0x10
  | .rangeDst => 0x11
  | .rangeAad => 0x12
  | .rangeTag => 0x13
  | .rangeKey => 0x14
  | .rangeNonce => 0x15
  | .overlap => 0x20

/-- The code of DRV in STATUS[9:8] (R34). -/
def Drv.code : Drv → BitVec 2
  | .unkeyed => 0
  | .fresh => 1
  | .streaming => 2

/-- The code of PST in STATUS[12:11] (R35). -/
def Pst.code : Pst → BitVec 2
  | .idle => 0
  | .active => 1
  | .finished => 2

/-- ID reads as this constant (R21). -/
def idWord : Word := 0x43423230

/-- CAP.TIER (R22): the widest tier present. -/
def Params.tier (p : Params) : BitVec 2 := if p.hasV256 then 2 else if p.hasV128 then 1 else 0

/-- CAP (R22), from bit 31 down: 16 reserved bits, DMEM_LOG2, 4 reserved bits, TIER, V256, V128. -/
def capWord (p : Params) : Word :=
  0#16 ++ BitVec.ofNat 8 p.dmemLog2 ++ 0#4 ++ Params.tier p ++ BitVec.ofBool p.hasV256 ++ BitVec.ofBool p.hasV128

/-- CTRL as the host reads it (R23). -/
def State.ctrlWord (s : State) : Word := 0#31 ++ BitVec.ofBool s.ie

/-- A write to CTRL (R23): bit [0] is IE, the others are ignored. -/
def State.writeCtrl (v : Word) (s : State) : State := { s with ie := v.getLsbD 0 }

/-- KS_AVAIL = len(KS) (R33), 10 bits. -/
def State.ksAvail (s : State) : BitVec 10 := BitVec.ofNat 10 s.ks.length

/-- STATUS as the host reads it (R24), from bit 31 down. -/
def State.statusWord (s : State) : Word :=
  0#6 ++ s.ksAvail ++ 0#3 ++ s.pst.code ++ BitVec.ofBool s.kv ++ s.drv.code ++ s.err.code ++ 0#1 ++
    BitVec.ofBool s.ovr ++ BitVec.ofBool s.done ++ BitVec.ofBool s.busy

/-- A write to STATUS (R24): bit [1] clears DONE, bit [2] clears OVR, nothing else changes. -/
def State.writeStatus (v : Word) (s : State) : State :=
  { s with done := s.done && !v.getLsbD 1, ovr := s.ovr && !v.getLsbD 2 }

/-- ERR_INFO as the host reads it (R25). -/
def State.errInfoWord (s : State) : Word :=
  match s.errInfo with
  | none => 0
  | some c => 0#24 ++ c.code

/-- CFG as the host reads it (R26): ROUNDS in [15:8], K16 in [3], XN in [2], ALG in [1:0]. -/
def Cfg.word (c : Cfg) : Word :=
  0#16 ++ c.rounds ++ 0#4 ++ BitVec.ofBool c.k16 ++ BitVec.ofBool c.xn ++ c.alg

/-- The fields a write to CFG stores (R26): reserved bits are ignored, and no write is refused (R27). -/
def Cfg.ofWord (v : Word) : Cfg :=
  ⟨v.extractLsb' 0 2, v.getLsbD 2, v.getLsbD 3, v.extractLsb' 8 8⟩

/-- The interrupt output: CTRL.IE ∧ STATUS.DONE (R41, 60_exceptions.md R276). -/
def State.irq (s : State) : Bool := s.ie && s.done

end Sys2Proof.Machine
end

