-- ==== Sys2Proof/Machine/Operands.lean ====
section
/-! DEFINITION. A command's operands: the fields of CFG it reads, the ranges its operand registers name, and the checks on them
(20_memory.md R64, R65; 40_permutation.md R134; 41_keystream.md R154; 44_aead.md R240). -/

namespace Sys2Proof.Machine

/-- CFG.ALG as a legal algorithm; none for the reserved value 3 (R26). -/
def Cfg.alg? (c : Cfg) : Option Alg :=
  match c.alg.toNat with
  | 0 => some .ietf
  | 1 => some .original
  | 2 => some .salsa
  | _ => none

/-- `if alg = 3: raise InvalidArgument(ALG_RESERVED)`, else go on with the algorithm (R272). -/
def withAlg (s : State) (k : Alg → StepResult) : StepResult :=
  match s.cfg.alg? with
  | none => raise .algReserved s
  | some alg => k alg

/-- CFG.ROUNDS as a number (R26). -/
def State.rounds (s : State) : Nat := s.cfg.rounds.toNat

/-- `ValidRounds` (R134): not 0, and a multiple of 4. -/
def validRounds (r : Nat) : Bool := r != 0 && r % 4 == 0

/-- The length in bytes of KLEN (R32). -/
def KeyLen.bytes : KeyLen → Nat
  | .k16 => 16
  | .k32 => 32

/-- The key length CFG.K16 selects for LDKEY (R26, R155). -/
def Cfg.keyLen (c : Cfg) : KeyLen := if c.k16 then .k16 else .k32

/-- `NonceLen(ALG, XN)` (R154). -/
def nonceLen (alg : Alg) (xn : Bool) : Nat :=
  if xn then 24 else if alg = .ietf then 12 else 8

/-- `InRange(a, n)` (R64), on unbounded integers: the sum does not wrap at 2^32. -/
def State.inRange (s : State) (a : Word) (n : Nat) : Bool := decide (a.toNat + n ≤ s.params.dmemSize)

/-- The operand that names a range. -/
inductive RangeName where
  | src | dst | aad | tag | noncea
  deriving DecidableEq, Repr

/-- A range of DMEM that a command reads or writes. -/
structure Range where
  name : RangeName
  addr : Nat
  len : Nat
  deriving DecidableEq, Repr

/-- Two ranges intersect when n > 0, m > 0, a < b + m and b < a + n (R65). -/
def Range.intersects (x y : Range) : Bool :=
  decide (0 < x.len ∧ 0 < y.len ∧ x.addr < y.addr + y.len ∧ y.addr < x.addr + x.len)

/-- The one exception of R65: (DST, LEN) equal to (SRC, LEN) exactly, the in-place case. -/
def Range.inPlace (o r : Range) : Bool := o.name == .dst && r.name == .src && o.addr == r.addr && o.len == r.len

/-- An output range breaks R65 against another range of the command. -/
def Range.conflicts (o r : Range) : Bool := o.name != r.name && o.intersects r && !o.inPlace r

/-- Some output range of the command breaks R65. -/
def overlap (outs all : List Range) : Bool := outs.any fun o => all.any fun r => o.conflicts r

/-- (SRC, LEN) -/
def State.srcRange (s : State) : Range := ⟨.src, s.regs.src.toNat, s.regs.len.toNat⟩

/-- (DST, LEN) -/
def State.dstRange (s : State) : Range := ⟨.dst, s.regs.dst.toNat, s.regs.len.toNat⟩

/-- (AAD, AADLEN) -/
def State.aadRange (s : State) : Range := ⟨.aad, s.regs.aad.toNat, s.regs.aadlen.toNat⟩

/-- (TAG, 16) -/
def State.tagRange (s : State) : Range := ⟨.tag, s.regs.tag.toNat, 16⟩

/-- (NONCEA, n) -/
def State.nonceRange (s : State) (n : Nat) : Range := ⟨.noncea, s.regs.noncea.toNat, n⟩

/-- The bytes (SRC, LEN). -/
def State.srcBytes (s : State) : List Byte := s.memRead s.regs.src s.regs.len.toNat

/-- The 64-bit value CTRHI·2^32 + CTRLO of SETCTR (R158). -/
def State.ctrOperand (s : State) : Nat := s.regs.ctrhi.toNat * 2 ^ 32 + s.regs.ctrlo.toNat

end Sys2Proof.Machine
end

