-- ==== Sys2Proof/Machine/Cipher.lean ====
section
/-! DEFINITION. The cipher functions every stream, nonce and AEAD command shares: quarter rounds, permutations and the block
function (40_permutation.md §1), state layouts and counters (41_keystream.md §1), and the H functions
(42_nonce_expansion.md §1). All are total (R135). -/

namespace Sys2Proof.Machine

/-! ### Quarter rounds and permutations -/

/-- One line of R121: X[p] <- X[p] + X[q]; X[r] <- rotl32(X[r] ^ X[p], n), each step reading what the previous wrote. -/
def addXorRotate (x : CipherState) (p q r : Lane) (n : Nat) : CipherState :=
  let y := x.set p (x[p] + x[q])
  y.set r (rotl32 (y[r] ^^^ y[p]) n)

/-- `QRC(X, a, b, c, d)` (R121). -/
def quarterC (x : CipherState) (a b c d : Lane) : CipherState :=
  let x1 := addXorRotate x a b d 16
  let x2 := addXorRotate x1 c d b 12
  let x3 := addXorRotate x2 a b d 8
  addXorRotate x3 c d b 7

/-- One line of R127: X[t] <- X[t] ^ rotl32(X[p] + X[q], n). -/
def addRotateXor (x : CipherState) (t p q : Lane) (n : Nat) : CipherState :=
  x.set t (x[t] ^^^ rotl32 (x[p] + x[q]) n)

/-- `QRS(X, a, b, c, d)` (R127). -/
def quarterS (x : CipherState) (a b c d : Lane) : CipherState :=
  let x1 := addRotateXor x b a d 7
  let x2 := addRotateXor x1 c b a 9
  let x3 := addRotateXor x2 d c b 13
  addRotateXor x3 a d c 18

/-- The four lanes of a quarter round. -/
abbrev Quad := Lane × Lane × Lane × Lane

/-- The quarter rounds of one round, in order. -/
def roundOf (quarter : CipherState → Lane → Lane → Lane → Lane → CipherState) (quads : List Quad) (x : CipherState) :
    CipherState :=
  quads.foldl (fun y q => quarter y q.1 q.2.1 q.2.2.1 q.2.2.2) x

/-- The ChaCha column round's groupings (R123). -/
def columnsC : List Quad := [(0, 4, 8, 12), (1, 5, 9, 13), (2, 6, 10, 14), (3, 7, 11, 15)]

/-- The ChaCha diagonal round's groupings (R123). -/
def diagonalsC : List Quad := [(0, 5, 10, 15), (1, 6, 11, 12), (2, 7, 8, 13), (3, 4, 9, 14)]

/-- `DRC(X)`: a column round followed by a diagonal round (R123). -/
def doubleC (x : CipherState) : CipherState := roundOf quarterC diagonalsC (roundOf quarterC columnsC x)

/-- `PermC(X, rounds)` (R125). -/
def permC (x : CipherState) (rounds : Nat) : CipherState := doubleC^[rounds / 2] x

/-- The Salsa column round's groupings (R129). -/
def columnsS : List Quad := [(0, 4, 8, 12), (5, 9, 13, 1), (10, 14, 2, 6), (15, 3, 7, 11)]

/-- The Salsa row round's groupings (R129). -/
def rowsS : List Quad := [(0, 1, 2, 3), (5, 6, 7, 4), (10, 11, 8, 9), (15, 12, 13, 14)]

/-- `DRS(X)`: a column round followed by a row round (R129). -/
def doubleS (x : CipherState) : CipherState := roundOf quarterS rowsS (roundOf quarterS columnsS x)

/-- `PermS(X, rounds)` (R131). -/
def permS (x : CipherState) (rounds : Nat) : CipherState := doubleS^[rounds / 2] x

/-- `Perm(ALG)` (R133): ChaCha for ALG 0 and 1, Salsa for ALG 2. -/
def perm (alg : Alg) (x : CipherState) (rounds : Nat) : CipherState :=
  match alg with
  | .ietf => permC x rounds
  | .original => permC x rounds
  | .salsa => permS x rounds

/-- `Block(ALG, X, rounds)` (R133): the permuted state plus the state, word by word, serialised. -/
def block (alg : Alg) (x : CipherState) (rounds : Nat) : List Byte :=
  bytesLE (List.zipWith (· + ·) (perm alg x rounds).toList x.toList)

/-! ### Layouts and counters -/

/-- The constants (R152): sigma for a 32-byte key, tau for a 16-byte key. -/
def keyConst : KeyLen → Vector Word 4
  | .k32 => #v[0x61707865, 0x3320646e, 0x79622d32, 0x6b206574]
  | .k16 => #v[0x61707865, 0x3120646e, 0x79622d36, 0x6b206574]

/-- `InitState(ALG, k, klen, ctr, N)` (R151). -/
def initState (alg : Alg) (k : KeyWords) (klen : KeyLen) (ctr : Nat) (nonce : List Byte) : CipherState :=
  let kc := keyConst klen
  let n := leWords nonce
  let lo := BitVec.ofNat 32 ctr
  let hi := BitVec.ofNat 32 (ctr / 2 ^ 32)
  match alg with
  | .ietf =>
      #v[kc[0], kc[1], kc[2], kc[3], k[0], k[1], k[2], k[3], k[4], k[5], k[6], k[7], lo, wordAt n 0, wordAt n 1, wordAt n 2]
  | .original =>
      #v[kc[0], kc[1], kc[2], kc[3], k[0], k[1], k[2], k[3], k[4], k[5], k[6], k[7], lo, hi, wordAt n 0, wordAt n 1]
  | .salsa =>
      #v[kc[0], k[0], k[1], k[2], k[3], kc[1], wordAt n 0, wordAt n 1, lo, hi, kc[2], k[4], k[5], k[6], k[7], kc[3]]

/-- `CtrGet(ALG)` (R153). -/
def ctrGet (alg : Alg) (x : CipherState) : Nat :=
  match alg with
  | .ietf => x[12].toNat
  | .original => x[13].toNat * 2 ^ 32 + x[12].toNat
  | .salsa => x[9].toNat * 2 ^ 32 + x[8].toNat

/-- `CtrSet(ALG, v)` (R153): ALG 0 writes v mod 2^32 into W[12] only; ALG 1 and 2 write the low and high halves. -/
def ctrSet (alg : Alg) (v : Nat) (x : CipherState) : CipherState :=
  match alg with
  | .ietf => x.set 12 (BitVec.ofNat 32 v)
  | .original => (x.set 12 (BitVec.ofNat 32 v)).set 13 (BitVec.ofNat 32 (v / 2 ^ 32))
  | .salsa => (x.set 8 (BitVec.ofNat 32 v)).set 9 (BitVec.ofNat 32 (v / 2 ^ 32))

/-- `CtrInc(ALG)` (R153): the counter plus one, wrapping at its own width (the narrowing of `ctrSet`) with no error. -/
def ctrInc (alg : Alg) (x : CipherState) : CipherState := ctrSet alg (ctrGet alg x + 1) x

/-- `GenBlock(ALG)` (R160): the block of the present state, and the state with its counter advanced. -/
def genBlock (alg : Alg) (rounds : Nat) (x : CipherState) : List Byte × CipherState :=
  (block alg x rounds, ctrInc alg x)

/-- N consecutive blocks, in order (R162, R164, R167). -/
def genBlocks (alg : Alg) (rounds : Nat) : Nat → CipherState → List Byte × CipherState
  | 0, x => ([], x)
  | n + 1, x =>
      let g := genBlock alg rounds x
      let r := genBlocks alg rounds n g.2
      (g.1 ++ r.1, r.2)

/-- `if len(KS) = 0: KS <- GenBlock(alg)` (R166): the cipher state and the pending keystream with a byte to use. -/
def refill (alg : Alg) (rounds : Nat) (x : CipherState) (ks : List Byte) : CipherState × List Byte :=
  match ks with
  | [] =>
      let g := genBlock alg rounds x
      (g.2, g.1)
  | _ :: _ => (x, ks)

/-- The loop of UPDATE (R166): the output bytes, the cipher state and the keystream left pending. -/
def xorStream (alg : Alg) (rounds : Nat) : List Byte → CipherState → List Byte → List Byte × CipherState × List Byte
  | [], x, ks => ([], x, ks)
  | b :: bs, x, ks =>
      let p := refill alg rounds x ks
      let r := xorStream alg rounds bs p.1 p.2.tail
      ((b ^^^ p.2.headD 0) :: r.1, r.2)

/-! ### Nonce expansion -/

/-- `HChaCha(k, n, rounds)` (R190): sigma, the key and the 16 nonce bytes; no feed-forward; lanes 0 to 3 and 12 to 15. -/
def hChaCha (k : KeyWords) (nonce : List Byte) (rounds : Nat) : List Byte :=
  let kc := keyConst .k32
  let n := leWords nonce
  let y := permC #v[kc[0], kc[1], kc[2], kc[3], k[0], k[1], k[2], k[3], k[4], k[5], k[6], k[7],
    wordAt n 0, wordAt n 1, wordAt n 2, wordAt n 3] rounds
  bytesLE [y[0], y[1], y[2], y[3], y[12], y[13], y[14], y[15]]

/-- `HSalsa(k, n, rounds)` (R191): the nonce bytes in slots 6 to 9; lanes 0, 5, 10, 15, 6, 7, 8, 9. -/
def hSalsa (k : KeyWords) (nonce : List Byte) (rounds : Nat) : List Byte :=
  let kc := keyConst .k32
  let n := leWords nonce
  let y := permS #v[kc[0], k[0], k[1], k[2], k[3], kc[1], wordAt n 0, wordAt n 1, wordAt n 2, wordAt n 3, kc[2],
    k[4], k[5], k[6], k[7], kc[3]] rounds
  bytesLE [y[0], y[5], y[10], y[15], y[6], y[7], y[8], y[9]]

/-- The H function of an algorithm (R193): HSalsa for ALG 2, HChaCha for ALG 0 and ALG 1. -/
def hFunction (alg : Alg) (k : KeyWords) (nonce : List Byte) (rounds : Nat) : List Byte :=
  match alg with
  | .ietf => hChaCha k nonce rounds
  | .original => hChaCha k nonce rounds
  | .salsa => hSalsa k nonce rounds

/-- The child nonce of an extended variant (R192): four zero bytes and n2 for the 12-byte IETF nonce, else n2. -/
def childNonce (alg : Alg) (n2 : List Byte) : List Byte :=
  match alg with
  | .ietf => [0, 0, 0, 0] ++ n2
  | .original => n2
  | .salsa => n2

/-- `XState(ALG, K, N, rounds)` (R192): the child cipher's state, from the derived subkey, with counter 0.
SETIV rejects ALG = 1 with XN = 1 before it runs, so the middle algorithm never reaches it. -/
def xState (alg : Alg) (k : KeyWords) (nonce : List Byte) (rounds : Nat) : CipherState :=
  let subkey := keyOfWords (leWords (hFunction alg k (nonce.take 16) rounds))
  initState alg subkey .k32 0 (childNonce alg (nonce.drop 16))

end Sys2Proof.Machine
end

