-- ==== Sys2Proof/Machine/Permutation.lean ====
section
/-! DEFINITION. The permutation commands on W (40_permutation.md §2, §3): QR.C, DR.C, PERM.C, QR.S, DR.S, PERM.S. -/

namespace Sys2Proof.Machine

/-- `if not ValidRounds(CFG.ROUNDS): raise InvalidArgument(ROUNDS)` (R134). -/
def roundsCheck (s : State) : Check := ⟨!validRounds s.rounds, .rounds⟩

/-- QR.C a, b, c, d (R122): repeated lanes are legal and see the value just written. -/
def execQrC (a b c d : Lane) (s : State) : StepResult := succeed { s with w := quarterC s.w a b c d }

/-- DR.C (R124). -/
def execDrC (s : State) : StepResult := succeed { s with w := doubleC s.w }

/-- PERM.C (R126). -/
def execPermC (s : State) : StepResult :=
  checked [roundsCheck s] s (succeed { s with w := permC s.w s.rounds })

/-- QR.S a, b, c, d (R128). -/
def execQrS (a b c d : Lane) (s : State) : StepResult := succeed { s with w := quarterS s.w a b c d }

/-- DR.S (R130). -/
def execDrS (s : State) : StepResult := succeed { s with w := doubleS s.w }

/-- PERM.S (R132). -/
def execPermS (s : State) : StepResult :=
  checked [roundsCheck s] s (succeed { s with w := permS s.w s.rounds })

end Sys2Proof.Machine
end

