-- ==== Sys2Proof/Machine/Keystream.lean ====
section
/-! DEFINITION. The stream-cipher driver (41_keystream.md §2): NOP, LDKEY, SETIV, SETCTR, RESET, KSGEN.N, UPDATE, ZEROIZE. -/

namespace Sys2Proof.Machine

/-- `if KV = 0: raise InvalidArgument(KEY_NOT_LOADED)` (R272). -/
def keyLoadedCheck (s : State) : Check := ⟨!s.kv, .keyNotLoaded⟩

/-- `if DRV = Unkeyed: raise InvalidArgument(NOT_INITIALISED)` (R272). -/
def initialisedCheck (s : State) : Check := ⟨s.drv == .unkeyed, .notInitialised⟩

/-- NOP (R150): nothing but its completion. -/
def execNop (s : State) : StepResult := succeed s

/-- K[0..7] from the key bytes: a 16-byte key is held twice (R155, R157). -/
def loadKey (n : KeyLen) (bytes : List Byte) : KeyWords :=
  match n with
  | .k32 => keyOfWords (leWords bytes)
  | .k16 => keyOfWords (leWords bytes ++ leWords bytes)

/-- LDKEY (R155): W is not changed. -/
def execLdkey (s : State) : StepResult :=
  let n := s.cfg.keyLen
  checked [⟨!s.inRange s.regs.keya n.bytes, .rangeKey⟩] s
    (succeed { s with
      k := loadKey n (s.memRead s.regs.keya n.bytes), klen := n, kv := true, ks := [], drv := .unkeyed })

/-- The state W that SETIV builds from a nonce (R156): the plain layout, or the child cipher's when XN = 1. -/
def ivState (alg : Alg) (s : State) (nonce : List Byte) : CipherState :=
  if s.cfg.xn then xState alg s.k nonce s.rounds else initState alg s.k s.klen 0 nonce

/-- SETIV (R156). -/
def execSetiv (s : State) : StepResult :=
  checked [keyLoadedCheck s] s <| withAlg s fun alg =>
    let n := nonceLen alg s.cfg.xn
    checked
      [ ⟨s.cfg.xn && alg == .original, .algForOperation⟩,
        ⟨s.cfg.xn && s.klen != .k32, .keyLength⟩,
        ⟨s.cfg.xn && !validRounds s.rounds, .rounds⟩,
        ⟨!s.inRange s.regs.noncea n, .rangeNonce⟩ ] s
      (succeed { s with w := ivState alg s (s.memRead s.regs.noncea n), ks := [], drv := .fresh })

/-- The counter words set and the pending keystream discarded (R158, R159). -/
def restartAt (alg : Alg) (ctr : Nat) (s : State) : State :=
  { s with w := ctrSet alg ctr s.w, ks := [], drv := .fresh }

/-- SETCTR (R158): ALG 0 uses CTRLO only, because `ctrSet` narrows to 32 bits there. -/
def execSetctr (s : State) : StepResult :=
  checked [initialisedCheck s] s <| withAlg s fun alg => succeed (restartAt alg s.ctrOperand s)

/-- RESET (R159): the counter goes to 0; key, nonce and constants in W are kept. -/
def execReset (s : State) : StepResult :=
  checked [initialisedCheck s] s <| withAlg s fun alg => succeed (restartAt alg 0 s)

/-- N consecutive keystream blocks replace the pending bytes (R161, R162, R164, R167), on every tier alike (R163). -/
def ksgen (n : Nat) (s : State) : StepResult :=
  checked [initialisedCheck s] s <| withAlg s fun alg =>
    checked [roundsCheck s] s
      (let g := genBlocks alg s.rounds n s.w
       succeed { s with w := g.2, ks := g.1, drv := .streaming })

/-- KSGEN.1 (R161). -/
def execKsgen1 (s : State) : StepResult := ksgen 1 s

/-- KSGEN.2 (R162). -/
def execKsgen2 (s : State) : StepResult := ksgen 2 s

/-- KSGEN.4 (R164). -/
def execKsgen4 (s : State) : StepResult := ksgen 4 s

/-- KSGEN.8 (R167). -/
def execKsgen8 (s : State) : StepResult := ksgen 8 s

/-- UPDATE (R166): all input is read before any output is written (R66). -/
def execUpdate (s : State) : StepResult :=
  checked [initialisedCheck s] s <| withAlg s fun alg =>
    checked
      [ roundsCheck s,
        ⟨!s.inRange s.regs.src s.regs.len.toNat, .rangeSrc⟩,
        ⟨!s.inRange s.regs.dst s.regs.len.toNat, .rangeDst⟩,
        ⟨overlap [s.dstRange] [s.srcRange, s.dstRange], .overlap⟩ ] s
      (let r := xorStream alg s.rounds s.srcBytes s.w s.ks
       succeed (State.memWrite { s with w := r.2.1, ks := r.2.2, drv := .streaming } s.regs.dst r.1))

/-- ZEROIZE (R168): legal in every state; DMEM, CFG, CTRL and the operand registers are kept. -/
def execZeroize (s : State) : StepResult :=
  succeed { s with
    w := Vector.replicate 16 0, k := Vector.replicate 8 0, klen := .k32, kv := false, ks := [], drv := .unkeyed,
    pr := 0, ps := 0, pacc := 0, pbuf := [], pst := .idle }

end Sys2Proof.Machine
end

