-- ==== Sys2Proof/Machine/Poly1305.lean ====
section
/-! DEFINITION. The Poly1305 one-time MAC (43_poly1305.md): its arithmetic on unbounded integers, the commands P.INIT, P.BLOCK,
P.UPDATE and P.FINAL, and the one-shot function the AEAD commands use. -/

namespace Sys2Proof.Machine

/-- p = 2^130 − 5 (R210). -/
def polyPrime : Nat := 2 ^ 130 - 5

/-- CLAMP (R210). -/
def clampMask : BitVec 128 := 0x0ffffffc0ffffffc0ffffffc0fffffff

/-- r of a one-time key (R210). -/
def polyR (key : List Byte) : BitVec 128 := BitVec.ofNat 128 (leInt (key.take 16)) &&& clampMask

/-- s of a one-time key (R210). -/
def polyS (key : List Byte) : BitVec 128 := BitVec.ofNat 128 (leInt ((key.drop 16).take 16))

/-- The integer of a block with its high bit marker (R210): 2^128 for 16 bytes, 2^(8k) for k bytes. -/
def blockInt (b : List Byte) : Nat := leInt b + 2 ^ (8 * b.length)

/-- `FieldOp(acc, m, r)` (R211). -/
def fieldOp (acc m : Nat) (r : BitVec 128) : Nat := ((acc + m) * r.toNat) % polyPrime

/-- `Tag(acc, s)` (R211). -/
def polyTag (acc : Nat) (s : BitVec 128) : List Byte := toLE (acc + s.toNat) 16

/-- Absorb the first `n` full blocks of a string (R214). -/
def absorb (r : BitVec 128) : Nat → Nat → List Byte → Nat
  | 0, acc, _ => acc
  | n + 1, acc, buf => absorb r n (fieldOp acc (blockInt (buf.take 16)) r) (buf.drop 16)

/-- The bytes left after the full blocks of a string: the partial block (R214). -/
def partialBlock (buf : List Byte) : List Byte := buf.drop (16 * (buf.length / 16))

/-- Absorb the final partial block, if there is one (R215). -/
def absorbPartial (r : BitVec 128) (acc : Nat) (rest : List Byte) : Nat :=
  if rest = [] then acc else fieldOp acc (blockInt rest) r

/-- `Poly1305(kb, msg)` (R216), in the closed form. -/
def poly1305 (key msg : List Byte) : List Byte :=
  let r := polyR key
  polyTag (absorbPartial r (absorb r (msg.length / 16) 0 msg) (partialBlock msg)) (polyS key)

/-- The MAC state a free choice names (U3). -/
def Pst.ofChoice : Fin 3 → Pst
  | 0 => .idle
  | 1 => .active
  | 2 => .finished

/-- DMEM after a MAC command issued while PST = Finished that completes (R217, U3): free bytes in the TAG range, if it exists. -/
def State.misusedMem (s : State) : Memory :=
  if s.inRange s.regs.tag 16 then
    s.mem.writeBytes s.regs.tag.toNat (toLE (Config.misuseTag s.freeCount).toNat 16)
  else s.mem

/-- The state a MAC command issued while PST = Finished leaves (R217, U3; log entry 6): either nothing changes and it
raises POLY_NOT_ACTIVE, or it completes with free values in PACC, PBUF, PS, PST and the TAG range. -/
def State.misused (s : State) : State :=
  let n := s.freeCount
  if Config.misuseRaises n then { s with freeCount := n + 1 }
  else { s with
    pacc := Config.misusePacc n % polyPrime
    pbuf := (Config.misusePbuf n).take 15
    ps := Config.misusePs n
    pst := Pst.ofChoice (Config.misusePst n)
    mem := s.misusedMem
    freeCount := n + 1 }

/-- How such a command completes (R217): the free choice of `Config.misuseRaises`. -/
def misuseResult (n : Nat) : Result :=
  if Config.misuseRaises n then .invalidArgument .polyNotActive else .ok

/-- `CheckPoly` (43_poly1305.md §2), then the command's own rule. -/
def withActiveMac (s : State) (k : StepResult) : StepResult :=
  match s.pst with
  | .idle => raise .polyNotActive s
  | .finished => .next (s.misused.complete (misuseResult s.freeCount))
  | .active => k

/-- P.INIT (R212): legal in every PST; CFG is not read. -/
def execPInit (s : State) : StepResult :=
  checked [⟨!s.inRange s.regs.keya 32, .rangeKey⟩] s
    (let key := s.memRead s.regs.keya 32
     succeed { s with pr := polyR key, ps := polyS key, pacc := 0, pbuf := [], pst := .active })

/-- P.BLOCK h (R213): H is the multiplier of 2^128. -/
def execPBlock (h : Bool) (s : State) : StepResult :=
  withActiveMac s <|
    checked [⟨s.pbuf.length != 0, .polyPartial⟩, ⟨!s.inRange s.regs.src 16, .rangeSrc⟩] s
      (succeed { s with pacc := fieldOp s.pacc (leInt (s.memRead s.regs.src 16) + h.toNat * 2 ^ 128) s.pr })

/-- P.UPDATE (R214). -/
def execPUpdate (s : State) : StepResult :=
  withActiveMac s <|
    checked [⟨!s.inRange s.regs.src s.regs.len.toNat, .rangeSrc⟩] s
      (let buf := s.pbuf ++ s.srcBytes
       succeed { s with pacc := absorb s.pr (buf.length / 16) s.pacc buf, pbuf := partialBlock buf })

/-- P.FINAL (R215). -/
def execPFinal (s : State) : StepResult :=
  withActiveMac s <|
    checked [⟨!s.inRange s.regs.tag 16, .rangeTag⟩] s
      (let acc := absorbPartial s.pr s.pacc s.pbuf
       succeed (State.memWrite { s with pacc := acc, pbuf := [], pst := .finished } s.regs.tag (polyTag acc s.ps)))

end Sys2Proof.Machine
end

