-- ==== Sys2Proof/Machine/Aead.lean ====
section
/-! DEFINITION. The AEAD engine (44_aead.md): ChaCha20-Poly1305 and XChaCha20-Poly1305, always with 20 rounds (R241). Its working
context is private to one command (10_state.md R37), so it is an argument here and no state. -/

namespace Sys2Proof.Machine

/-- The subkey and the 12-byte stream nonce (R241). -/
structure AeadContext where
  key : KeyWords
  nonce : List Byte
  deriving DecidableEq, Repr

/-- The context of a command from K and its nonce bytes (R241): XN = 1 derives a subkey by HChaCha with 20 rounds. -/
def aeadContext (xn : Bool) (k : KeyWords) (nonce : List Byte) : AeadContext :=
  if xn then
    ⟨keyOfWords (leWords (hChaCha k (nonce.take 16) 20)), [0, 0, 0, 0] ++ nonce.drop 16⟩
  else ⟨k, nonce⟩

/-- `AState(c)` (R241): the IETF state at block counter c. -/
def AeadContext.state (x : AeadContext) (c : Nat) : CipherState := initState .ietf x.key .k32 c x.nonce

/-- The keystream block at counter c. -/
def AeadContext.block (x : AeadContext) (c : Nat) : List Byte := Machine.block .ietf (x.state c) 20

/-- The one-time key (R242): the first 32 bytes of the block at counter 0. -/
def AeadContext.oneTimeKey (x : AeadContext) : List Byte := (x.block 0).take 32

/-- `AXor` (R243): the bytes exclusive-or the keystream from counter 1. -/
def AeadContext.xor (x : AeadContext) (bytes : List Byte) : List Byte :=
  xorBytes bytes ((List.range ((bytes.length + 63) / 64)).flatMap fun j => x.block (1 + j))

/-- `pad16` of a string of the given length (R244). -/
def pad16 (len : Nat) : List Byte := List.replicate ((16 - len % 16) % 16) 0

/-- `MacData(a, c)` (R244). -/
def macData (aad text : List Byte) : List Byte :=
  aad ++ pad16 aad.length ++ text ++ pad16 text.length ++ toLE aad.length 8 ++ toLE text.length 8

/-- `AeadTag(a, c)` (R244). -/
def AeadContext.tag (x : AeadContext) (aad text : List Byte) : List Byte := poly1305 x.oneTimeKey (macData aad text)

/-- `CtEqual(x, y)` (R247), in the reference form: the OR of all differences is 0. -/
def ctEqual (x y : List Byte) : Bool := (xorBytes x y).foldl (· ||| ·) 0 == 0

/-- The nonce length of the AEAD commands (R240): 24 if XN = 1, else 12. -/
def State.aeadNonceLen (s : State) : Nat := if s.cfg.xn then 24 else 12

/-- The five ranges of an AEAD command (R240). -/
def State.aeadRanges (s : State) : List Range :=
  [s.srcRange, s.dstRange, s.aadRange, s.tagRange, s.nonceRange s.aeadNonceLen]

/-- `AeadChecks` (R240) with the command's output ranges, then the command's own rule. -/
def aeadChecked (outs : List Range) (s : State) (k : StepResult) : StepResult :=
  checked [keyLoadedCheck s] s <| withAlg s fun alg =>
    checked
      [ ⟨alg != .ietf, .algForOperation⟩,
        ⟨s.klen != .k32, .keyLength⟩,
        ⟨!s.inRange s.regs.src s.regs.len.toNat, .rangeSrc⟩,
        ⟨!s.inRange s.regs.dst s.regs.len.toNat, .rangeDst⟩,
        ⟨!s.inRange s.regs.aad s.regs.aadlen.toNat, .rangeAad⟩,
        ⟨!s.inRange s.regs.tag 16, .rangeTag⟩,
        ⟨!s.inRange s.regs.noncea s.aeadNonceLen, .rangeNonce⟩,
        ⟨overlap outs s.aeadRanges, .overlap⟩ ] s k

/-- The context of the AEAD command the state is about to run. -/
def State.aeadContext (s : State) : AeadContext :=
  Machine.aeadContext s.cfg.xn s.k (s.memRead s.regs.noncea s.aeadNonceLen)

/-- The associated data (AAD, AADLEN). -/
def State.aadBytes (s : State) : List Byte := s.memRead s.regs.aad s.regs.aadlen.toNat

/-- AEAD.ENC (R245): the MAC is over the ciphertext; the working context leaves no trace (R248). -/
def execAeadEnc (s : State) : StepResult :=
  aeadChecked [s.dstRange, s.tagRange] s
    (let x := s.aeadContext
     let c := x.xor s.srcBytes
     succeed ((s.memWrite s.regs.dst c).memWrite s.regs.tag (x.tag s.aadBytes c)))

/-- AEAD.DEC (R246): nothing is written unless the tag verifies (R273). -/
def execAeadDec (s : State) : StepResult :=
  aeadChecked [s.dstRange] s
    (let x := s.aeadContext
     if ctEqual (x.tag s.aadBytes s.srcBytes) (s.memRead s.regs.tag 16) then
       succeed (s.memWrite s.regs.dst (x.xor s.srcBytes))
     else .next (s.complete .authenticationFailure))

end Sys2Proof.Machine
end

