-- ==== Sys2Proof/Machine/NonceExpansion.lean ====
section
/-! DEFINITION. The nonce-expansion command HNONCE (42_nonce_expansion.md §2). -/

namespace Sys2Proof.Machine

/-- The output range (DST, 32) of HNONCE (20_memory.md R65). -/
def State.hnonceDstRange (s : State) : Range := ⟨.dst, s.regs.dst.toNat, 32⟩

/-- HNONCE (R193): the subkey goes to DMEM; W, KS, DRV, K and the MAC state are kept, and CFG.XN is not read. -/
def execHnonce (s : State) : StepResult :=
  checked [keyLoadedCheck s] s <| withAlg s fun alg =>
    checked
      [ ⟨s.klen != .k32, .keyLength⟩,
        roundsCheck s,
        ⟨!s.inRange s.regs.dst 32, .rangeDst⟩,
        ⟨!s.inRange s.regs.noncea 16, .rangeNonce⟩,
        ⟨overlap [s.hnonceDstRange] [s.hnonceDstRange, s.nonceRange 16], .overlap⟩ ] s
      (succeed (s.memWrite s.regs.dst (hFunction alg s.k (s.memRead s.regs.noncea 16) s.rounds)))

end Sys2Proof.Machine
end

