-- ==== Sys2Proof/Machine/Dispatch.lean ====
section
/-! DEFINITION. One arm for each command: the engine's execution of a decoded command, its completion included (60_exceptions.md R270). -/

namespace Sys2Proof.Machine

def exec (i : Instr) (s : State) : Host.Outcome State Fault Refusal :=
  match i with
  | .nop => Sys2Proof.Machine.execNop s
  | .qrC a b c d => Sys2Proof.Machine.execQrC a b c d s
  | .drC => Sys2Proof.Machine.execDrC s
  | .permC => Sys2Proof.Machine.execPermC s
  | .qrS a b c d => Sys2Proof.Machine.execQrS a b c d s
  | .drS => Sys2Proof.Machine.execDrS s
  | .permS => Sys2Proof.Machine.execPermS s
  | .ldkey => Sys2Proof.Machine.execLdkey s
  | .setiv => Sys2Proof.Machine.execSetiv s
  | .setctr => Sys2Proof.Machine.execSetctr s
  | .reset => Sys2Proof.Machine.execReset s
  | .ksgen1 => Sys2Proof.Machine.execKsgen1 s
  | .ksgen2 => Sys2Proof.Machine.execKsgen2 s
  | .ksgen4 => Sys2Proof.Machine.execKsgen4 s
  | .ksgen8 => Sys2Proof.Machine.execKsgen8 s
  | .update => Sys2Proof.Machine.execUpdate s
  | .hnonce => Sys2Proof.Machine.execHnonce s
  | .zeroize => Sys2Proof.Machine.execZeroize s
  | .pInit => Sys2Proof.Machine.execPInit s
  | .pBlock h => Sys2Proof.Machine.execPBlock h s
  | .pUpdate => Sys2Proof.Machine.execPUpdate s
  | .pFinal => Sys2Proof.Machine.execPFinal s
  | .aeadEnc => Sys2Proof.Machine.execAeadEnc s
  | .aeadDec => Sys2Proof.Machine.execAeadDec s

end Sys2Proof.Machine
end

