-- ==== Sys2Proof/WellFormed.lean ====
section
/-! DEFINITION. Which assembler lines are well formed, and the command each stands for (30_encoding.md R92, R99).
Every term of `Instr` is well formed, because its fields' types hold exactly the operands the encoding admits;
what can be ill formed is a written line. -/

namespace Sys2Proof

/-- A lane index is an unsigned 4-bit index of one word of W (R92). -/
def laneOk (n : Nat) : Bool := decide (n < 16)

/-- The batch sizes of format K: N = 2^NLOG for NLOG = 0, 1, 2, 3 (R92). -/
def batchOk (n : Nat) : Bool := n == 1 || n == 2 || n == 4 || n == 8

/-- `P.BLOCK h` with h ∈ {0, 1} (R99). -/
def highBitOk (h : Nat) : Bool := decide (h < 2)

/-- The checks on a written line (R92, R99). Repeated lanes are legal (R92). -/
def AsmLine.wellFormed : AsmLine → Bool
  | .bare _ => true
  | .lanes _ a b c d => laneOk a && laneOk b && laneOk c && laneOk d
  | .ksgen n => batchOk n
  | .pBlock h => highBitOk h

/-- The command of a format N mnemonic. -/
def NMnemonic.instr : NMnemonic → Instr
  | .nop => .nop
  | .drC => .drC
  | .permC => .permC
  | .drS => .drS
  | .permS => .permS
  | .ldkey => .ldkey
  | .setiv => .setiv
  | .setctr => .setctr
  | .reset => .reset
  | .update => .update
  | .hnonce => .hnonce
  | .zeroize => .zeroize
  | .pInit => .pInit
  | .pUpdate => .pUpdate
  | .pFinal => .pFinal
  | .aeadEnc => .aeadEnc
  | .aeadDec => .aeadDec

/-- The command of a format Q mnemonic and its four lanes. -/
def QMnemonic.instr : QMnemonic → Lane → Lane → Lane → Lane → Instr
  | .qrC, a, b, c, d => .qrC a b c d
  | .qrS, a, b, c, d => .qrS a b c d

/-- The command of a KSGEN line with its batch suffix (R92, R99). -/
def ksgenInstr? : Nat → Option Instr
  | 1 => some .ksgen1
  | 2 => some .ksgen2
  | 4 => some .ksgen4
  | 8 => some .ksgen8
  | _ => none

/-- The command a well-formed line stands for; none for an ill-formed line. -/
def AsmLine.instr? : AsmLine → Option Instr
  | .bare m => some m.instr
  | .lanes m a b c d =>
      if h : a < 16 ∧ b < 16 ∧ c < 16 ∧ d < 16 then
        some (m.instr ⟨a, h.1⟩ ⟨b, h.2.1⟩ ⟨c, h.2.2.1⟩ ⟨d, h.2.2.2⟩)
      else none
  | .ksgen n => ksgenInstr? n
  | .pBlock h => if h < 2 then some (.pBlock (h == 1)) else none

end Sys2Proof
end

