-- ==== Sys2Proof/Decode.lean ====
section
/-! DEFINITION. The decoder, total on every 32-bit word, and the encoder (30_encoding.md R90 to R98). Decoding reads only the
word: never CFG and never any other state (R97, R98). -/

namespace Sys2Proof

/-- Why a word selects no row of the opcode map. -/
inductive IllegalReason where
  /-- a reserved OPC (R94) -/
  | reservedOpcode
  /-- an assigned OPC with a 1 in a must-be-zero bit of its format (R95) -/
  | mustBeZero
  deriving DecidableEq, Repr

/-- What the decoder reads from a word: exactly one row of R93, or an IllegalCommand (R97). -/
inductive Decoded where
  | instr (i : Instr)
  | illegal (why : IllegalReason)
  deriving DecidableEq, Repr

/-- The opcode field OPC, bits [7:0] (R90). -/
def opcField (w : Word) : BitVec 8 := w.extractLsb' 0 8

/-- The 4-bit lane field whose lowest bit is `lo` (R91, format Q). -/
def laneField (w : Word) (lo : Nat) : Lane := (w.extractLsb' lo 4).toFin

/-- Format N: bits [31:8] must be zero (R91, R95). -/
def decodeN (i : Instr) (w : Word) : Decoded :=
  if w.extractLsb' 8 24 = 0#24 then .instr i else .illegal .mustBeZero

/-- Format Q: A in [11:8], B in [15:12], C in [19:16], D in [23:20]; bits [31:24] must be zero. -/
def decodeQ (m : QMnemonic) (w : Word) : Decoded :=
  if w.extractLsb' 24 8 = 0#8 then
    .instr (m.instr (laneField w 8) (laneField w 12) (laneField w 16) (laneField w 20))
  else .illegal .mustBeZero

/-- The batch command of an NLOG value: N = 2^NLOG (R92). -/
def ksgenOfNlog : Fin 4 → Instr
  | 0 => .ksgen1
  | 1 => .ksgen2
  | 2 => .ksgen4
  | 3 => .ksgen8

/-- Format K: NLOG in [9:8]; bits [31:10] must be zero. -/
def decodeK (w : Word) : Decoded :=
  if w.extractLsb' 10 22 = 0#22 then .instr (ksgenOfNlog (w.extractLsb' 8 2).toFin)
  else .illegal .mustBeZero

/-- Format P: H in bit [8]; bits [31:9] must be zero. -/
def decodeP (w : Word) : Decoded :=
  if w.extractLsb' 9 23 = 0#23 then .instr (.pBlock (w.getLsbD 8)) else .illegal .mustBeZero

/-- The decoder: OPC selects the format and the row (R93), every other OPC is reserved (R94). -/
def decode (w : Word) : Decoded :=
  match (opcField w).toNat with
  | 0x00 => decodeN .nop w
  | 0x01 => decodeQ .qrC w
  | 0x02 => decodeN .drC w
  | 0x03 => decodeN .permC w
  | 0x04 => decodeQ .qrS w
  | 0x05 => decodeN .drS w
  | 0x06 => decodeN .permS w
  | 0x10 => decodeN .ldkey w
  | 0x11 => decodeN .setiv w
  | 0x12 => decodeN .setctr w
  | 0x13 => decodeN .reset w
  | 0x14 => decodeK w
  | 0x15 => decodeN .update w
  | 0x16 => decodeN .hnonce w
  | 0x17 => decodeN .zeroize w
  | 0x20 => decodeN .pInit w
  | 0x21 => decodeP w
  | 0x22 => decodeN .pUpdate w
  | 0x23 => decodeN .pFinal w
  | 0x30 => decodeN .aeadEnc w
  | 0x31 => decodeN .aeadDec w
  | _ => .illegal .reservedOpcode

/-- The instruction of a legal word; none for a word that raises IllegalCommand. -/
def Decoded.instr? : Decoded → Option Instr
  | .instr i => some i
  | .illegal _ => none

/-- The instruction the decoder reads from a word of the opcode table's numbering: a command is one 32-bit word (R90),
so bit 0 of the table is bit 0 of the word, the bits above `nbits` are 0, and a longer word is no command. -/
def decodeTableWord (nbits w : Nat) : Option Instr :=
  if nbits ≤ 32 then (decode (BitVec.ofNat 32 (w % 2 ^ nbits))).instr? else none

/-- Format N (R91): 24 zero bits, then OPC. -/
def encodeN (opc : BitVec 8) : Word := 0#24 ++ opc

/-- Format Q (R91): 8 zero bits, then D, C, B, A and OPC. -/
def encodeQ (opc : BitVec 8) (a b c d : Lane) : Word :=
  0#8 ++ BitVec.ofFin (w := 4) d ++ BitVec.ofFin (w := 4) c ++ BitVec.ofFin (w := 4) b ++ BitVec.ofFin (w := 4) a ++ opc

/-- Format K (R91): 22 zero bits, then NLOG and OPC. -/
def encodeK (opc : BitVec 8) (nlog : BitVec 2) : Word := 0#22 ++ nlog ++ opc

/-- Format P (R91): 23 zero bits, then H and OPC. -/
def encodeP (opc : BitVec 8) (h : Bool) : Word := 0#23 ++ BitVec.ofBool h ++ opc

/-- The encoder: the word of a command, from the opcode map (R93) and the formats (R91). -/
def encode : Instr → Word
  | .nop => encodeN 0x00#8
  | .qrC a b c d => encodeQ 0x01#8 a b c d
  | .drC => encodeN 0x02#8
  | .permC => encodeN 0x03#8
  | .qrS a b c d => encodeQ 0x04#8 a b c d
  | .drS => encodeN 0x05#8
  | .permS => encodeN 0x06#8
  | .ldkey => encodeN 0x10#8
  | .setiv => encodeN 0x11#8
  | .setctr => encodeN 0x12#8
  | .reset => encodeN 0x13#8
  | .ksgen1 => encodeK 0x14#8 0#2
  | .ksgen2 => encodeK 0x14#8 1#2
  | .ksgen4 => encodeK 0x14#8 2#2
  | .ksgen8 => encodeK 0x14#8 3#2
  | .update => encodeN 0x15#8
  | .hnonce => encodeN 0x16#8
  | .zeroize => encodeN 0x17#8
  | .pInit => encodeN 0x20#8
  | .pBlock h => encodeP 0x21#8 h
  | .pUpdate => encodeN 0x22#8
  | .pFinal => encodeN 0x23#8
  | .aeadEnc => encodeN 0x30#8
  | .aeadDec => encodeN 0x31#8

/-- A row of the opcode map, less its meaning: the match and mask of R93 and the row's number in the table's order. -/
structure OpcodeRow where
  row : Nat
  matchBits : Word
  mask : Word
  deriving DecidableEq, Repr

/-- A word selects a row when `(w & mask) = match` (R93). -/
def OpcodeRow.selects (r : OpcodeRow) (w : Word) : Bool := (w &&& r.mask) == r.matchBits

/-- The match and mask columns of R93, a second reading of the map that the decoder does not use. -/
def opcodeTable : List OpcodeRow :=
  [ ⟨0, 0x00000000#32, 0xFFFFFFFF#32⟩, ⟨1, 0x00000001#32, 0xFF0000FF#32⟩, ⟨2, 0x00000002#32, 0xFFFFFFFF#32⟩,
    ⟨3, 0x00000003#32, 0xFFFFFFFF#32⟩, ⟨4, 0x00000004#32, 0xFF0000FF#32⟩, ⟨5, 0x00000005#32, 0xFFFFFFFF#32⟩,
    ⟨6, 0x00000006#32, 0xFFFFFFFF#32⟩, ⟨7, 0x00000010#32, 0xFFFFFFFF#32⟩, ⟨8, 0x00000011#32, 0xFFFFFFFF#32⟩,
    ⟨9, 0x00000012#32, 0xFFFFFFFF#32⟩, ⟨10, 0x00000013#32, 0xFFFFFFFF#32⟩, ⟨11, 0x00000014#32, 0xFFFFFFFF#32⟩ ] ++
  [ ⟨12, 0x00000114#32, 0xFFFFFFFF#32⟩, ⟨13, 0x00000214#32, 0xFFFFFFFF#32⟩, ⟨14, 0x00000314#32, 0xFFFFFFFF#32⟩,
    ⟨15, 0x00000015#32, 0xFFFFFFFF#32⟩, ⟨16, 0x00000016#32, 0xFFFFFFFF#32⟩, ⟨17, 0x00000017#32, 0xFFFFFFFF#32⟩,
    ⟨18, 0x00000020#32, 0xFFFFFFFF#32⟩, ⟨19, 0x00000021#32, 0xFFFFFEFF#32⟩, ⟨20, 0x00000022#32, 0xFFFFFFFF#32⟩,
    ⟨21, 0x00000023#32, 0xFFFFFFFF#32⟩, ⟨22, 0x00000030#32, 0xFFFFFFFF#32⟩, ⟨23, 0x00000031#32, 0xFFFFFFFF#32⟩ ]

/-- The number of a command's row in R93's order. -/
def Instr.row : Instr → Nat
  | .nop => 0
  | .qrC _ _ _ _ => 1
  | .drC => 2
  | .permC => 3
  | .qrS _ _ _ _ => 4
  | .drS => 5
  | .permS => 6
  | .ldkey => 7
  | .setiv => 8
  | .setctr => 9
  | .reset => 10
  | .ksgen1 => 11
  | .ksgen2 => 12
  | .ksgen4 => 13
  | .ksgen8 => 14
  | .update => 15
  | .hnonce => 16
  | .zeroize => 17
  | .pInit => 18
  | .pBlock _ => 19
  | .pUpdate => 20
  | .pFinal => 21
  | .aeadEnc => 22
  | .aeadDec => 23

/-- The OPC of a format N mnemonic (R93). -/
def NMnemonic.opc : NMnemonic → Nat
  | .nop => 0x00
  | .drC => 0x02
  | .permC => 0x03
  | .drS => 0x05
  | .permS => 0x06
  | .ldkey => 0x10
  | .setiv => 0x11
  | .setctr => 0x12
  | .reset => 0x13
  | .update => 0x15
  | .hnonce => 0x16
  | .zeroize => 0x17
  | .pInit => 0x20
  | .pUpdate => 0x22
  | .pFinal => 0x23
  | .aeadEnc => 0x30
  | .aeadDec => 0x31

/-- The OPC of a format Q mnemonic (R93). -/
def QMnemonic.opc : QMnemonic → Nat
  | .qrC => 0x01
  | .qrS => 0x04

/-- The assembler's own word of a line (R99), written with the formulas of that rule and not with `encode`:
`OPC | A<<8 | B<<12 | C<<16 | D<<20`, `0x14 | log2(N)<<8`, and `P.BLOCK 1` = 0x00000121. -/
def AsmLine.word : AsmLine → Nat
  | .bare m => m.opc
  | .lanes m a b c d => m.opc ||| a <<< 8 ||| b <<< 12 ||| c <<< 16 ||| d <<< 20
  | .ksgen n => 0x14 ||| Nat.log2 n <<< 8
  | .pBlock h => 0x21 ||| h <<< 8

end Sys2Proof
end

