-- ==== Sys2Proof/Machine/HostPort.lean ====
section
/-! DEFINITION. The host port: the register window and the DMEM window (10_state.md R20 to R31, 20_memory.md R60 to R69),
what a host access does (70_reset_and_hazards.md R311, R312), and the reset input (R300 to R302). -/

namespace Sys2Proof.Machine

/-- The operand registers' names (R29). -/
inductive OperandName where
  | src | dst | len | aad | aadlen | tag | keya | noncea | ctrlo | ctrhi
  deriving DecidableEq, Repr

/-- The registers of R20. -/
inductive HostReg where
  | id | cap | ctrl | status | errInfo | cfg | cmd
  | operand (o : OperandName)
  | w (i : Fin 16)
  deriving DecidableEq, Repr

/-- What a legal access reaches: a register, or the DMEM bytes from an address on. -/
inductive Target where
  | reg (r : HostReg)
  | dmem (addr : Nat)
  deriving DecidableEq, Repr

/-- The register listed at an offset (R20); none for an offset that is not listed. -/
def HostReg.atOffset (off : Nat) : Option HostReg :=
  if 0x080 ≤ off ∧ off < 0x0C0 ∧ off % 4 = 0 then some (.w (Fin.ofNat 16 ((off - 0x080) / 4)))
  else
    match off with
    | 0x000 => some .id
    | 0x004 => some .cap
    | 0x008 => some .ctrl
    | 0x00C => some .status
    | 0x010 => some .errInfo
    | 0x014 => some .cfg
    | 0x018 => some .cmd
    | 0x020 => some (.operand .src)
    | 0x024 => some (.operand .dst)
    | 0x028 => some (.operand .len)
    | 0x02C => some (.operand .aad)
    | 0x030 => some (.operand .aadlen)
    | 0x034 => some (.operand .tag)
    | 0x038 => some (.operand .keya)
    | 0x03C => some (.operand .noncea)
    | 0x040 => some (.operand .ctrlo)
    | 0x044 => some (.operand .ctrhi)
    | _ => none

/-- The width of an access in bytes. -/
def Width.bytes : Width → Nat
  | .b8 => 1
  | .b16 => 2
  | .b32 => 4

/-- The window map (20_memory.md R61) with the alignment and width rules of R62 and R67; none is a bus error. -/
def target (p : Params) (off : Nat) (width : Width) : Option Target :=
  if off < 0x01000 then
    if width = .b32 ∧ off % 4 = 0 then (HostReg.atOffset off).map .reg else none
  else if 0x10000 ≤ off ∧ off < 0x10000 + p.dmemSize ∧ off % width.bytes = 0 then some (.dmem (off - 0x10000))
  else none

/-- The value of an operand register. -/
def OperandRegs.get (r : OperandRegs) : OperandName → Word
  | .src => r.src
  | .dst => r.dst
  | .len => r.len
  | .aad => r.aad
  | .aadlen => r.aadlen
  | .tag => r.tag
  | .keya => r.keya
  | .noncea => r.noncea
  | .ctrlo => r.ctrlo
  | .ctrhi => r.ctrhi

/-- A write to an operand register. -/
def OperandRegs.set (r : OperandRegs) (v : Word) : OperandName → OperandRegs
  | .src => { r with src := v }
  | .dst => { r with dst := v }
  | .len => { r with len := v }
  | .aad => { r with aad := v }
  | .aadlen => { r with aadlen := v }
  | .tag => { r with tag := v }
  | .keya => { r with keya := v }
  | .noncea => { r with noncea := v }
  | .ctrlo => { r with ctrlo := v }
  | .ctrhi => { r with ctrhi := v }

/-- What the host reads from a register (R21 to R31): CMD is write-only and reads 0. -/
def HostReg.read (s : State) : HostReg → Word
  | .id => idWord
  | .cap => capWord s.params
  | .ctrl => s.ctrlWord
  | .status => s.statusWord
  | .errInfo => s.errInfoWord
  | .cfg => s.cfg.word
  | .cmd => 0
  | .operand o => s.regs.get o
  | .w i => s.w[i]

/-- What a host write to a register does when it is not dropped: ID, CAP and ERR_INFO ignore it (R311), STATUS clears by
writing 1 (R24), CMD issues the value as a command word (R28, R270). -/
def HostReg.write (v : Word) (s : State) : HostReg → State
  | .id => s
  | .cap => s
  | .ctrl => s.writeCtrl v
  | .status => s.writeStatus v
  | .errInfo => s
  | .cfg => { s with cfg := Cfg.ofWord v }
  | .cmd => s.issue v
  | .operand o => { s with regs := s.regs.set v o }
  | .w i => { s with w := s.w.set i v }

/-- The targets a host write to is dropped while BUSY = 1 (R312): CMD, CFG, operand registers, W and DMEM. -/
def Target.droppedWhileBusy : Target → Bool
  | .reg .id => false
  | .reg .cap => false
  | .reg .ctrl => false
  | .reg .status => false
  | .reg .errInfo => false
  | .reg .cfg => true
  | .reg .cmd => true
  | .reg (.operand _) => true
  | .reg (.w _) => true
  | .dmem _ => true

/-- The targets whose read data is UNSPECIFIED while BUSY = 1 (R311, U2): W and DMEM. -/
def Target.openWhileBusy : Target → Bool
  | .reg (.w _) => true
  | .reg _ => false
  | .dmem _ => true

/-- The low bits of a word that an access of this width carries. -/
def Width.narrow (width : Width) (v : Word) : Word := v &&& BitVec.ofNat 32 (2 ^ (8 * width.bytes) - 1)

/-- The data of a read that the spec gives (20_memory.md R67: little-endian). -/
def Target.read (s : State) (width : Width) : Target → Word
  | .reg r => r.read s
  | .dmem a => BitVec.ofNat 32 (leInt (s.mem.readBytes a width.bytes))

/-- A write that takes effect (R67: the value's bytes, least significant first). -/
def Target.write (v : Word) (s : State) (width : Width) : Target → State
  | .reg r => r.write v s
  | .dmem a => { s with mem := s.mem.writeBytes a ((wordBytes v).take width.bytes) }

/-- A read that returns UNSPECIFIED data (U2, U4): a free value of the access width; nothing else changes. -/
def State.readOpen (s : State) (width : Width) : State :=
  { s with port := .data (width.narrow (Config.portData s.freeCount)), freeCount := s.freeCount + 1 }

/-- A host read of a legal target: no side effect (R69 (c)). -/
def hostRead (t : Target) (width : Width) (s : State) : State :=
  if s.busy && t.openWhileBusy then s.readOpen width else { s with port := .data (t.read s width) }

/-- A host write to a legal target: dropped with OVR set (R312), or performed. -/
def hostWrite (t : Target) (width : Width) (v : Word) (s : State) : State :=
  if s.busy && t.droppedWhileBusy then { s with ovr := true, port := .written }
  else { t.write v s width with port := .written }

/-- An access while `rst` is asserted (R300, U4): no effect, and read data is UNSPECIFIED (log entry 8). -/
def accessUnderReset (a : Access) (s : State) : State :=
  match a with
  | .read _ width => s.readOpen width
  | .write _ _ _ => { s with port := .written }

/-- The offset of an access, as a number. -/
def Access.offset : Access → Nat
  | .read off _ => off.toNat
  | .write off _ _ => off.toNat

/-- The width of an access. -/
def Access.width : Access → Width
  | .read _ width => width
  | .write _ width _ => width

/-- The access on a legal target. -/
def Access.perform (t : Target) (s : State) : Access → State
  | .read _ width => hostRead t width s
  | .write _ width v => hostWrite t width v s

/-- One host step (R318 (1)): a bus error faults (R62), every other access completes. -/
def hostAccess (a : Access) (s : State) : StepResult :=
  if s.rst then .next (accessUnderReset a s)
  else
    match target s.params a.offset a.width with
    | none => .fault (.busError a)
    | some t => .next (a.perform t s)

/-- The reset input goes to `level` (R300 to R302): asserting it gives the table of R301 at once, a command in execution is
abandoned, and DMEM is UNSPECIFIED afresh; the inputs still to come, the port's last reply and the counter are the model's own. -/
def resetInput (level : Bool) (s : State) : State :=
  if level then
    { State.resetOf s.params with
      rst := true, mem := ⟨s.mem.epoch + 1, []⟩, inputs := s.inputs, port := s.port, freeCount := s.freeCount }
  else { s with rst := false }

/-- The host's inputs for `cmd X` (30_encoding.md R99): `wr CMD, <encoding>`. -/
def cmdInput (i : Instr) : Input := .access (.write 0x018 .b32 (encode i))

/-- `rd STATUS` (R99). -/
def readStatusInput : Input := .access (.read 0x00C .b32)

/-- `run X` = `cmd X; poll` (R100), with the engine's turn taken before the first poll: one of the interleavings U6 allows. -/
def runInputs (i : Instr) : List Input := [cmdInput i, .engine, readStatusInput]

end Sys2Proof.Machine
end

