-- ==== Sys2Proof/Machine/Engine.lean ====
section
/-! DEFINITION. The command engine's turn (60_exceptions.md R270, 70_reset_and_hazards.md R318): decode CMDL, run the command or
raise IllegalCommand, and complete. -/

namespace Sys2Proof.Machine

/-- Run a decoded word: a command by its rule; an illegal word completes with ERR = 3 and no other state change (R271). -/
def runDecoded (d : Decoded) (s : State) : StepResult :=
  match d with
  | .instr i => exec i s
  | .illegal _ => .next (s.complete .illegalCommand)

/-- The engine's turn: enabled exactly when BUSY = 1 (R318); otherwise the block is idle and no state changes (R287). -/
def engineTurn (s : State) : StepResult :=
  if s.busy && !s.rst then runDecoded (decode s.cmdl) s else .next s

/-- One step of the agent whose turn it is: the first input, or the engine when none is left (log entry 1). -/
def stepInput (s : State) : StepResult :=
  match s.inputs with
  | [] => engineTurn s
  | .engine :: rest => engineTurn { s with inputs := rest }
  | .access a :: rest => hostAccess a { s with inputs := rest }
  | .rst level :: rest => .next (resetInput level { s with inputs := rest })

/-- The word of an opcode-table row in CMDL, issued as a write to CMD issues it, and the engine's turn next (log entry 2). -/
def placeCommand (v : Word) (s : State) : State :=
  { s.issue v with rst := false, inputs := .engine :: s.inputs }

end Sys2Proof.Machine
end

