-- ==== Sys2Proof/Machine/Step.lean ====
section
/-! DEFINITION. One step of the machine: a host access, a change of the reset input, or a turn of the engine
(70_reset_and_hazards.md R318). -/

namespace Sys2Proof.Machine

/-- One step. Its outcomes: a next state; a fault (a bus error of a host access); never a refusal. -/
def step (s : State) : Host.Outcome State Fault Refusal := stepInput s

/-- `s` with the word of an opcode-table row (bits above `nbits` zero) where the engine takes its next command from: CMDL,
issued (R270), and the engine's turn next, so that the very next step runs it (log entry 2). -/
def State.withFetchWord (s : State) (nbits w : Nat) : State := placeCommand (BitVec.ofNat 32 (w % 2 ^ nbits)) s

end Sys2Proof.Machine
end

