-- ==== Sys2Proof/Safety.lean ====
section
/-! DEFINITION. What claims call a good state and a safe run. `State.Inv` gathers what the rules say of every state a run
reaches; a run is safe while no host access ends in a bus error (the machine's only fault). -/

namespace Sys2Proof.Machine

/-- What holds of every state the block can be in, by the rules named. -/
structure State.Inv (s : State) : Prop where
  /-- DMEM is in its canonical form (log entry 4). -/
  memSorted : s.mem.wf
  /-- Every listed byte of DMEM exists (20_memory.md R60). -/
  memWithin : s.mem.within s.params.dmemSize
  /-- KS has length 0 to 512 (10_state.md R33). -/
  ksLength : s.ks.length ≤ 512
  /-- Bytes are pending only while Streaming: LDKEY, SETIV, SETCTR, RESET and ZEROIZE empty KS (41_keystream.md §2). -/
  ksStreaming : s.ks ≠ [] → s.drv = .streaming
  /-- 0 ≤ PACC < 2^130 − 5 (R35). -/
  paccRange : s.pacc < polyPrime
  /-- PBUF has length 0 to 15 (R35). -/
  pbufLength : s.pbuf.length ≤ 15
  /-- PR is a clamped r (R35, 43_poly1305.md R211). -/
  prClamped : s.pr &&& ~~~clampMask = 0
  /-- While a command is in execution DONE, ERR and ERR_INFO are 0 (60_exceptions.md R270). -/
  busyQuiet : s.busy = true → s.done = false ∧ s.err = .none ∧ s.errInfo = none
  /-- ERR_INFO holds a sub-cause exactly when ERR = 1 (R25). -/
  infoOfInvalid : s.errInfo ≠ none ↔ s.err = .invalidArgument
  /-- A driver state other than Unkeyed has a loaded key (R34). -/
  driverKeyed : s.drv ≠ .unkeyed → s.kv = true
  /-- With no key loaded, K and KLEN have their reset values (R32, R301). -/
  unkeyed : s.kv = false → s.k = Vector.replicate 8 0 ∧ s.klen = .k32
  /-- When KLEN = 16, K[4..7] = K[0..3] (R32). -/
  shortKey : s.klen = .k16 → s.k[4] = s.k[0] ∧ s.k[5] = s.k[1] ∧ s.k[6] = s.k[2] ∧ s.k[7] = s.k[3]
  /-- While `rst` is asserted no command is in execution or has completed (70_reset_and_hazards.md R301, R302). -/
  resetQuiet : s.rst = true → s.busy = false ∧ s.done = false

/-- The step of `s` does not stop. -/
def State.goesOn (s : State) : Prop := ∃ t, step s = .next t

/-- `n` steps from `s` end in no bus error. -/
def State.safeFor : Nat → State → Prop
  | 0, _ => True
  | n + 1, s => ∃ t, step s = .next t ∧ t.safeFor n

end Sys2Proof.Machine
end

