-- ==== Sys2Proof/Certificates/Slice0/Obligations.lean ====
section
/-! DEFINITION. The statements for the provers. They are about every state, so they hold for every legal value of the parameters of
00_scope.md R9 and for every value of the free values. Where a statement needs a good state it assumes `State.Inv`, which
`InvariantHoldsAtReset` and `EveryStepKeepsTheInvariant` state of the machine. The fields `inputs`, `port`, `freeCount` and
`mem.epoch` are the model's own (log entries 1, 4, 5 and 10): what a statement says of them is no rule of the spec. -/

open Sys2Proof Sys2Proof.Machine

namespace Sys2Proof.Claims

/-! ### The vocabulary of the statements, written from the spec and not from the model's functions -/

/-- `LEint(MemRead(a, n))` as the sum of 00_scope.md R13. -/
def memLE (m : Memory) (a n : Nat) : Nat := ∑ i ∈ Finset.range n, (m.read (a + i)).toNat * 2 ^ (8 * i)

/-- `LE32(DMEM[a..a+4))` as a word (R13). -/
def memWord (m : Memory) (a : Nat) : Word := BitVec.ofNat 32 (memLE m a 4)

/-- Every byte outside the `n` bytes from `a` reads the same in both memories. -/
def sameOutside (m m' : Memory) (a n : Nat) : Prop := ∀ c, ¬(a ≤ c ∧ c < a + n) → m'.read c = m.read c

/-- The state a command leaves when it completes with ERR = 0 (60_exceptions.md R270). -/
def doneOk (s : State) : State := { s with busy := false, done := true, err := .none, errInfo := none }

/-- The state a command leaves when it raises InvalidArgument (R270, R272). -/
def doneInvalid (s : State) (c : SubCause) : State :=
  { s with busy := false, done := true, err := .invalidArgument, errInfo := some c }

/-- Commands run one after the other, each to its completion. -/
def runAll : List Instr → State → StepResult
  | [], s => .next s
  | i :: is, s =>
    match exec i s with
    | .next t => runAll is t
    | .fault r => .fault r
    | .refused r => .refused r

/-- Left rotation of a word. -/
def rot (x : Word) (n : Nat) : Word := x.rotateLeft n

/-- `ValidRounds` (40_permutation.md R134). -/
def roundsLegal (s : State) : Prop := s.cfg.rounds.toNat ≠ 0 ∧ s.cfg.rounds.toNat % 4 = 0

/-- CFG.ALG names a legal algorithm (10_state.md R26). -/
def algIs (s : State) (alg : Alg) : Prop :=
  match alg with
  | .ietf => s.cfg.alg = 0#2
  | .original => s.cfg.alg = 1#2
  | .salsa => s.cfg.alg = 2#2

/-- The permutation command of an algorithm (R133): PERM.C for ALG 0 and 1, PERM.S for ALG 2. -/
def permOf : Alg → Instr
  | .ietf => .permC
  | .original => .permC
  | .salsa => .permS

/-- The 64-bit number in two words. -/
def pair (hi lo : Word) : Nat := hi.toNat * 2 ^ 32 + lo.toNat

/-- `y` is `x` with its block counter advanced by `g` (41_keystream.md R153), each layout at its own width, nothing else changed. -/
def counterAdvanced (alg : Alg) (x y : CipherState) (g : Nat) : Prop :=
  match alg with
  | .ietf => y[12].toNat = (x[12].toNat + g) % 2 ^ 32 ∧ ∀ i : Fin 16, i ≠ 12 → y[i] = x[i]
  | .original => pair y[13] y[12] = (pair x[13] x[12] + g) % 2 ^ 64 ∧ ∀ i : Fin 16, i ≠ 12 → i ≠ 13 → y[i] = x[i]
  | .salsa => pair y[9] y[8] = (pair x[9] x[8] + g) % 2 ^ 64 ∧ ∀ i : Fin 16, i ≠ 8 → i ≠ 9 → y[i] = x[i]

/-- `y` is `x` with its block counter set to `v` (R153), nothing else changed. -/
def counterSet (alg : Alg) (x y : CipherState) (v : Nat) : Prop :=
  match alg with
  | .ietf => y[12].toNat = v % 2 ^ 32 ∧ ∀ i : Fin 16, i ≠ 12 → y[i] = x[i]
  | .original => pair y[13] y[12] = v % 2 ^ 64 ∧ ∀ i : Fin 16, i ≠ 12 → i ≠ 13 → y[i] = x[i]
  | .salsa => pair y[9] y[8] = v % 2 ^ 64 ∧ ∀ i : Fin 16, i ≠ 8 → i ≠ 9 → y[i] = x[i]

/-- The constants of R152. -/
def constOf : KeyLen → List Word
  | .k32 => [0x61707865, 0x3320646e, 0x79622d32, 0x6b206574]
  | .k16 => [0x61707865, 0x3120646e, 0x79622d36, 0x6b206574]

/-- The layouts of R151 as the list W[0..15]: constants `c`, key words `k`, counter words `lo` and `hi`, nonce words `n`. -/
def layout (alg : Alg) (c k : List Word) (lo hi : Word) (n : List Word) : List Word :=
  match alg with
  | .ietf => c ++ k ++ [lo] ++ n
  | .original => c ++ k ++ [lo, hi] ++ n
  | .salsa => c.take 1 ++ k.take 4 ++ (c.drop 1).take 1 ++ n ++ [lo, hi] ++ (c.drop 2).take 1 ++ k.drop 4 ++ c.drop 3

/-- The nonce words of a plain nonce at address `a`: three for ALG 0, two for ALG 1 and 2 (R151, R154). -/
def nonceWords (alg : Alg) (m : Memory) (a : Nat) : List Word :=
  match alg with
  | .ietf => [memWord m a, memWord m (a + 4), memWord m (a + 8)]
  | .original => [memWord m a, memWord m (a + 4)]
  | .salsa => [memWord m a, memWord m (a + 4)]

/-- Two ranges intersect (20_memory.md R65). -/
def meets (a n b m : Nat) : Prop := 0 < n ∧ 0 < m ∧ a < b + m ∧ b < a + n

/-- The blocks an UPDATE of n bytes generates with k bytes pending (41_keystream.md R170). -/
def blocksFor (k n : Nat) : Nat := if n ≤ k then 0 else (n - k + 63) / 64

/-- The pending bytes such an UPDATE leaves (R170). -/
def leftFor (k n : Nat) : Nat := if n ≤ k then k - n else 64 * blocksFor k n - (n - k)

/-- The 16-byte chunks of a message, in order; the last may be shorter (43_poly1305.md R216). -/
def chunks : Nat → List Byte → List (List Byte)
  | 0, _ => []
  | n + 1, m => if m = [] then [] else m.take 16 :: chunks n (m.drop 16)

/-- `LEint` of a string as the sum of R13. -/
def strLE (b : List Byte) : Nat := ∑ i ∈ Finset.range b.length, (b.getD i 0).toNat * 2 ^ (8 * i)

/-- FieldOp over the chunks of a message, each with its high bit marker, from an accumulator on (R211, R214, R216). -/
def polyFold (r acc : Nat) (msg : List Byte) : Nat :=
  (chunks msg.length msg).foldl (fun acc c => ((acc + strLE c + 2 ^ (8 * c.length)) * r) % (2 ^ 130 - 5)) acc

/-- The accumulator of R216's closed form. -/
def polyAcc (r : Nat) (msg : List Byte) : Nat := polyFold r 0 msg

/-- The number `v` has the little-endian bytes at `a`, n of them: `toLE(v, n)` (R13). -/
def holdsLE (m : Memory) (a n v : Nat) : Prop := memLE m a n = v % 2 ^ (8 * n)

/-- The commands P.BLOCK, P.UPDATE and P.FINAL, which CheckPoly guards. -/
def guardedByMac (i : Instr) : Prop := (∃ h, i = .pBlock h) ∨ i = .pUpdate ∨ i = .pFinal

/-- The commands of the Poly1305 family. -/
def isMac (i : Instr) : Prop := i = .pInit ∨ guardedByMac i

/-- LDKEY, SETIV, SETCTR, RESET, the KSGEN forms and UPDATE: the stream commands of R219. -/
def isStream (i : Instr) : Prop :=
  i ∈ [.ldkey, .setiv, .setctr, .reset, .ksgen1, .ksgen2, .ksgen4, .ksgen8, .update]

/-- AEAD.ENC and AEAD.DEC. -/
def isAead (i : Instr) : Prop := i = .aeadEnc ∨ i = .aeadDec

/-! ### The checks of the commands, in the order their rules list them (60_exceptions.md R272, R275) -/

/-- The first failing check of a list of conditions and sub-causes. -/
noncomputable def firstOf : List (Prop × SubCause) → Option SubCause
  | [] => none
  | (p, c) :: rest => open Classical in if p then some c else firstOf rest

/-- not InRange(a, n) (20_memory.md R64), on unbounded integers. -/
def beyond (s : State) (a : Word) (n : Nat) : Prop := s.params.dmemSize < a.toNat + n

/-- The nonce length of R154, by the fields of CFG. -/
def nonceBytes (s : State) : Nat := if s.cfg.xn = true then 24 else if s.cfg.alg = 0#2 then 12 else 8

/-- A pair of AEAD ranges breaks R65, not being the exact in-place pair. -/
def aeadOverlap (s : State) (isdec : Bool) : Prop :=
  let src := s.regs.src.toNat; let dst := s.regs.dst.toNat; let len := s.regs.len.toNat
  let aad := s.regs.aad.toNat; let aadlen := s.regs.aadlen.toNat; let tag := s.regs.tag.toNat
  let non := s.regs.noncea.toNat; let nl := if s.cfg.xn = true then 24 else 12
  (meets dst len src len ∧ dst ≠ src) ∨ meets dst len aad aadlen ∨ meets dst len tag 16 ∨ meets dst len non nl ∨
    (isdec = false ∧ (meets tag 16 src len ∨ meets tag 16 dst len ∨ meets tag 16 aad aadlen ∨ meets tag 16 non nl))

/-- The checks of the AEAD commands (44_aead.md R240). -/
def aeadChecks (s : State) (isdec : Bool) : List (Prop × SubCause) :=
  [ (s.kv = false, .keyNotLoaded), (s.cfg.alg = 3#2, .algReserved), (s.cfg.alg ≠ 0#2, .algForOperation),
    (s.klen = .k16, .keyLength), (beyond s s.regs.src s.regs.len.toNat, .rangeSrc),
    (beyond s s.regs.dst s.regs.len.toNat, .rangeDst), (beyond s s.regs.aad s.regs.aadlen.toNat, .rangeAad),
    (beyond s s.regs.tag 16, .rangeTag), (beyond s s.regs.noncea (if s.cfg.xn = true then 24 else 12), .rangeNonce),
    (aeadOverlap s isdec, .overlap) ]

/-- The checks of the KSGEN forms (41_keystream.md R161). -/
def ksgenChecks (s : State) : List (Prop × SubCause) :=
  [ (s.drv = .unkeyed, .notInitialised), (s.cfg.alg = 3#2, .algReserved), (¬roundsLegal s, .rounds) ]

/-- The checks of every command's rule, in the order the rule lists them. -/
def checksOf (s : State) : Instr → List (Prop × SubCause)
  | .nop => []
  | .qrC _ _ _ _ => []
  | .drC => []
  | .permC => [(¬roundsLegal s, .rounds)]
  | .qrS _ _ _ _ => []
  | .drS => []
  | .permS => [(¬roundsLegal s, .rounds)]
  | .ldkey => [(beyond s s.regs.keya (if s.cfg.k16 = true then 16 else 32), .rangeKey)]
  | .setiv =>
      [ (s.kv = false, .keyNotLoaded), (s.cfg.alg = 3#2, .algReserved),
        (s.cfg.xn = true ∧ s.cfg.alg = 1#2, .algForOperation), (s.cfg.xn = true ∧ s.klen = .k16, .keyLength),
        (s.cfg.xn = true ∧ ¬roundsLegal s, .rounds), (beyond s s.regs.noncea (nonceBytes s), .rangeNonce) ]
  | .setctr => [(s.drv = .unkeyed, .notInitialised), (s.cfg.alg = 3#2, .algReserved)]
  | .reset => [(s.drv = .unkeyed, .notInitialised), (s.cfg.alg = 3#2, .algReserved)]
  | .ksgen1 => ksgenChecks s
  | .ksgen2 => ksgenChecks s
  | .ksgen4 => ksgenChecks s
  | .ksgen8 => ksgenChecks s
  | .update =>
      [ (s.drv = .unkeyed, .notInitialised), (s.cfg.alg = 3#2, .algReserved), (¬roundsLegal s, .rounds),
        (beyond s s.regs.src s.regs.len.toNat, .rangeSrc), (beyond s s.regs.dst s.regs.len.toNat, .rangeDst),
        (meets s.regs.dst.toNat s.regs.len.toNat s.regs.src.toNat s.regs.len.toNat ∧ s.regs.dst ≠ s.regs.src, .overlap) ]
  | .hnonce =>
      [ (s.kv = false, .keyNotLoaded), (s.cfg.alg = 3#2, .algReserved), (s.klen = .k16, .keyLength),
        (¬roundsLegal s, .rounds), (beyond s s.regs.dst 32, .rangeDst), (beyond s s.regs.noncea 16, .rangeNonce),
        (meets s.regs.dst.toNat 32 s.regs.noncea.toNat 16, .overlap) ]
  | .zeroize => []
  | .pInit => [(beyond s s.regs.keya 32, .rangeKey)]
  | .pBlock _ =>
      [(s.pst = .idle, .polyNotActive), (s.pbuf ≠ [], .polyPartial), (beyond s s.regs.src 16, .rangeSrc)]
  | .pUpdate => [(s.pst = .idle, .polyNotActive), (beyond s s.regs.src s.regs.len.toNat, .rangeSrc)]
  | .pFinal => [(s.pst = .idle, .polyNotActive), (beyond s s.regs.tag 16, .rangeTag)]
  | .aeadEnc => aeadChecks s false
  | .aeadDec => aeadChecks s true

/-- Every check of the command passes. -/
def passes (i : Instr) (s : State) : Prop := firstOf (checksOf s i) = none

/-! ### The host port -/

/-- The offsets of the register window that 10_state.md R20 lists. -/
def listedOffset (off : Nat) : Prop :=
  off ∈ [0x000, 0x004, 0x008, 0x00C, 0x010, 0x014, 0x018] ∨ (0x020 ≤ off ∧ off ≤ 0x044 ∧ off % 4 = 0) ∨
    (0x080 ≤ off ∧ off ≤ 0x0BC ∧ off % 4 = 0)

/-- What 20_memory.md R62 makes a bus error, clause by clause. -/
def busErrorAccess (p : Params) (off bytes : Nat) : Prop :=
  (0x01000 ≤ off ∧ off ≤ 0x0FFFF) ∨ 0x10000 + p.dmemSize ≤ off ∨ (off < 0x01000 ∧ ¬listedOffset off) ∨
    (off < 0x01000 ∧ (bytes ≠ 4 ∨ off % 4 ≠ 0)) ∨ (0x10000 ≤ off ∧ off % bytes ≠ 0)

/-- The number of bytes of an access. -/
def accessBytes (a : Access) : Nat :=
  match a with
  | .read _ .b8 => 1
  | .read _ .b16 => 2
  | .read _ .b32 => 4
  | .write _ .b8 _ => 1
  | .write _ .b16 _ => 2
  | .write _ .b32 _ => 4

/-- The offset of an access. -/
def accessOffset (a : Access) : Nat :=
  match a with
  | .read off _ => off.toNat
  | .write off _ _ => off.toNat

/-- The width whose accesses have this many bytes. -/
def widthOf : Nat → Width
  | 1 => .b8
  | 2 => .b16
  | _ => .b32

/-- The targets of 70_reset_and_hazards.md R312: CMD, CFG, the operand registers, W0..W15 and the DMEM window. -/
def droppedOffset (off : Nat) : Prop :=
  off = 0x018 ∨ off = 0x014 ∨ (0x020 ≤ off ∧ off ≤ 0x044) ∨ (0x080 ≤ off ∧ off ≤ 0x0BC) ∨ 0x10000 ≤ off

/-- The registers R311 lets the host read while BUSY = 1, with their values; ERR_INFO reads 0. -/
def readableWhileBusy (s : State) : List (Nat × Word) :=
  [ (0x000, 0x43423230#32), (0x004, capWord s.params), (0x008, s.ctrlWord), (0x00C, s.statusWord), (0x010, 0#32),
    (0x014, s.cfg.word), (0x020, s.regs.src), (0x024, s.regs.dst), (0x028, s.regs.len), (0x02C, s.regs.aad),
    (0x030, s.regs.aadlen), (0x034, s.regs.tag), (0x038, s.regs.keya), (0x03C, s.regs.noncea), (0x040, s.regs.ctrlo),
    (0x044, s.regs.ctrhi) ]

/-- The writes of a register other than W (10_state.md R23, R26, R29): its offset, the state with `v` written to it, and what it
then reads as. -/
def registerWrites (s : State) (v : Word) : List (Nat × State × Word) :=
  [ (0x008, { s with ie := v.getLsbD 0 }, v &&& 1#32),
    (0x014, { s with cfg := ⟨v.extractLsb' 0 2, v.getLsbD 2, v.getLsbD 3, v.extractLsb' 8 8⟩ }, v &&& 0x0000FF0F#32),
    (0x020, { s with regs := { s.regs with src := v } }, v), (0x024, { s with regs := { s.regs with dst := v } }, v),
    (0x028, { s with regs := { s.regs with len := v } }, v), (0x02C, { s with regs := { s.regs with aad := v } }, v),
    (0x030, { s with regs := { s.regs with aadlen := v } }, v), (0x034, { s with regs := { s.regs with tag := v } }, v),
    (0x038, { s with regs := { s.regs with keya := v } }, v), (0x03C, { s with regs := { s.regs with noncea := v } }, v),
    (0x040, { s with regs := { s.regs with ctrlo := v } }, v), (0x044, { s with regs := { s.regs with ctrhi := v } }, v) ]

/-- What ERR_INFO reads as (R25, and the table of 60_exceptions.md R272). -/
def infoValue : Option SubCause → Word
  | none => 0x00
  | some .keyNotLoaded => 0x01
  | some .keyLength => 0x02
  | some .notInitialised => 0x03
  | some .algReserved => 0x04
  | some .algForOperation => 0x05
  | some .rounds => 0x06
  | some .polyNotActive => 0x07
  | some .polyPartial => 0x08
  | some .rangeSrc => 0x10
  | some .rangeDst => 0x11
  | some .rangeAad => 0x12
  | some .rangeTag => 0x13
  | some .rangeKey => 0x14
  | some .rangeNonce => 0x15
  | some .overlap => 0x20

/-- The same state with another DST. -/
def withDst (d : Word) (s : State) : State := { s with regs := { s.regs with dst := d } }

/-- HNONCE may write its 32 bytes to `d`: they lie in DMEM and do not meet the 16 nonce bytes (R193). -/
def subkeyFits (s : State) (d : Word) : Prop :=
  d.toNat + 32 ≤ s.params.dmemSize ∧ ¬meets d.toNat 32 s.regs.noncea.toNat 16

/-- The same state with the other tier parameters. -/
def withTiers (v128 v256 : Bool) (s : State) : State := { s with params := ⟨s.params.dmemIdx, v128, v256⟩ }

/-- The same state with other stream state: W, K, KLEN, KV, KS, DRV. -/
def withStream (o s : State) : State :=
  { s with w := o.w, k := o.k, klen := o.klen, kv := o.kv, ks := o.ks, drv := o.drv }

/-- The same state with another Poly1305 state. -/
def withMac (o s : State) : State := { s with pr := o.pr, ps := o.ps, pacc := o.pacc, pbuf := o.pbuf, pst := o.pst }

/-- The same state with another W, KS and DRV. -/
def withDriver (o s : State) : State := { s with w := o.w, ks := o.ks, drv := o.drv }

end Sys2Proof.Claims

open Sys2Proof.Claims

/-! ### Encoding (30_encoding.md) -/

/-- Words written out in the spec (R95, R99, R122, R128 and 95_test_vectors.md §1 and §7.2), read as the commands they stand for. -/
def Obligations.WordsOfTheSpecDecode : Prop :=
  decode 0x00000000 = .instr .nop ∧ decode 0x00321001 = .instr (.qrC 0 1 2 3) ∧
  decode 0x00D87201 = .instr (.qrC 2 7 8 13) ∧ decode 0x00CDEF01 = .instr (.qrC 15 14 13 12) ∧
  decode 0x00B73F04 = .instr (.qrS 15 3 7 11) ∧ decode 0x00000003 = .instr .permC ∧
  decode 0x00000010 = .instr .ldkey ∧ decode 0x00000214 = .instr .ksgen4 ∧ decode 0x00000314 = .instr .ksgen8 ∧
  decode 0x00000016 = .instr .hnonce ∧ decode 0x00000121 = .instr (.pBlock true) ∧
  decode 0x00000021 = .instr (.pBlock false) ∧ decode 0x00000031 = .instr .aeadDec ∧
  decode 0x01000001 = .illegal .mustBeZero ∧ decode 0x00000414 = .illegal .mustBeZero ∧
  decode 0x000000FF = .illegal .reservedOpcode

/-- Decoding the word of a command gives the command back, with every operand at every value. -/
def Obligations.DecodeOfEncodeIsTheCommand : Prop := ∀ i : Instr, decode (encode i) = .instr i

/-- A legal word is the word of the command it decodes to: each command has one word. -/
def Obligations.EncodeOfDecodeIsTheWord : Prop := ∀ (w : Word) (i : Instr), decode w = .instr i → encode i = w

/-- R97: every 32-bit word is either exactly one row of R93, which is then the row of the command it decodes to, or an
IllegalCommand by R94 (reserved OPC) or R95 (a must-be-zero bit). -/
def Obligations.EveryWordIsOneRowOrIllegal : Prop :=
  ∀ w : Word,
    (∃ r ∈ opcodeTable, r.selects w = true ∧ (∀ q ∈ opcodeTable, q.selects w = true → q = r) ∧
      ∃ i, decode w = .instr i ∧ i.row = r.row) ∨
    ((∀ q ∈ opcodeTable, q.selects w = false) ∧
      (decode w = .illegal .reservedOpcode ∨ decode w = .illegal .mustBeZero))

/-- R94 and R95: a reserved OPC, and an assigned OPC with a 1 in a must-be-zero bit of its format, complete with ERR = 3,
ERR_INFO = 0 and no other change. -/
def Obligations.IllegalWordsRaiseIllegalCommand : Prop :=
  ∀ (s : State) (rest : List Input), s.busy = true → s.rst = false → s.inputs = .engine :: rest →
    (let opc := s.cmdl.toNat % 256
     ((0x07 ≤ opc ∧ opc ≤ 0x0F) ∨ (0x18 ≤ opc ∧ opc ≤ 0x1F) ∨ (0x24 ≤ opc ∧ opc ≤ 0x2F) ∨ 0x32 ≤ opc) ∨
     (opc ∈ [0x01, 0x04] ∧ s.cmdl.toNat / 2 ^ 24 ≠ 0) ∨
     (opc = 0x14 ∧ s.cmdl.toNat / 2 ^ 10 ≠ 0) ∨
     (opc = 0x21 ∧ s.cmdl.toNat / 2 ^ 9 ≠ 0) ∨
     (opc ∈ [0x00, 0x02, 0x03, 0x05, 0x06, 0x10, 0x11, 0x12, 0x13, 0x15, 0x16, 0x17, 0x20, 0x22, 0x23, 0x30, 0x31] ∧
       s.cmdl.toNat / 2 ^ 8 ≠ 0)) →
    step s = .next { s with inputs := rest, busy := false, done := true, err := .illegalCommand, errInfo := none }

/-- R99: exactly the well-formed lines have a command, and its word is the number the assembler's formulas give. -/
def Obligations.WellFormedLinesAssemble : Prop :=
  ∀ l : AsmLine, (l.wellFormed = true ↔ ∃ i, l.instr? = some i) ∧ ∀ i, l.instr? = some i → (encode i).toNat = l.word

/-! ### Issue, the engine's turn and completion (60_exceptions.md §1, 70_reset_and_hazards.md R318) -/

/-- When the engine has its turn and CMDL decodes to a command, the step is that command's execution. That an empty list of inputs
gives the engine its turn is the model's choice (log entry 1, DESIGN CHOICE). -/
def Obligations.EngineTurnRunsTheDecodedCommand : Prop :=
  ∀ (s : State) (i : Instr), s.busy = true → s.rst = false → decode s.cmdl = .instr i →
    (∀ rest, s.inputs = .engine :: rest → step s = exec i { s with inputs := rest }) ∧
    (s.inputs = [] → step s = exec i s)

/-- With no host access and no change of `rst` to make, the block's state stays as it is exactly while BUSY = 0. That the step is then
the engine's turn, and that an idle block steps to itself, is the model's choice (log entry 1, DESIGN CHOICE); it is how the model
renders R287: "It is idle exactly when BUSY = 0, and no state changes while idle". -/
def Obligations.IdleExactlyWhenNotBusy : Prop :=
  ∀ s : State, s.rst = false → s.inputs = [] → (step s = .next s ↔ s.busy = false)

/-- R28: a write to CMD while BUSY = 0 issues the word, one while BUSY = 1 is dropped (OVR records it), and CMD reads 0. -/
def Obligations.CmdWriteIssues : Prop :=
  ∀ (s : State) (v : Word) (rest : List Input), s.rst = false →
    (s.inputs = .access (.write 0x018 .b32 v) :: rest → s.busy = false →
      step s = .next { s with
        inputs := rest, port := .written, cmdl := v, busy := true, done := false, err := .none, errInfo := none }) ∧
    (s.inputs = .access (.write 0x018 .b32 v) :: rest → s.busy = true →
      step s = .next { s with inputs := rest, port := .written, ovr := true }) ∧
    (s.inputs = .access (.read 0x018 .b32) :: rest → step s = .next { s with inputs := rest, port := .data 0 })

/-- `run X` (R100): the write to CMD issues X, the engine's turn executes it, and the read of STATUS then gives a word with
BUSY = 0 and DONE = 1. That the engine's turn stands before the first poll is the model's choice of one interleaving (log entry 1). -/
def Obligations.RunIssuesExecutesAndReports : Prop :=
  ∀ (s : State) (i : Instr) (rest : List Input), s.busy = false → s.rst = false → s.inputs = runInputs i ++ rest →
    ∃ a b : State, step s = .next a ∧ a.cmdl = encode i ∧ a.busy = true ∧
      exec i { a with inputs := readStatusInput :: rest } = .next b ∧ step a = .next b ∧
      step b = .next { b with inputs := rest, port := .data b.statusWord } ∧
      b.statusWord.getLsbD 0 = false ∧ b.statusWord.getLsbD 1 = true

/-- R270: every issued command completes: BUSY goes to 0 and DONE to 1, ERR_INFO is a sub-cause exactly when ERR = 1, and a decoded
command never ends with IllegalCommand. -/
def Obligations.EveryCommandCompletes : Prop :=
  ∀ (i : Instr) (s : State), ∃ t : State, exec i s = .next t ∧ t.busy = false ∧ t.done = true ∧
    (t.errInfo ≠ none ↔ t.err = .invalidArgument) ∧ t.err ≠ .illegalCommand

/-- R272, R275: a command raises the first check of its rule that fails, with no other effect than the completion; when none
fails it completes with ERR = 0, or, for AEAD.DEC only, with AuthenticationFailure. A MAC command issued while PST = Finished is
apart (`MacMisuseStaysInItsBounds`). -/
def Obligations.FirstFailingCheckIsRaised : Prop :=
  ∀ (i : Instr) (s : State), (guardedByMac i → s.pst ≠ .finished) →
    (∀ c, firstOf (checksOf s i) = some c → exec i s = .next (doneInvalid s c)) ∧
    (firstOf (checksOf s i) = none → ∃ t, exec i s = .next t ∧ t.errInfo = none ∧
      (t.err = .none ∨ (i = .aeadDec ∧ t.err = .authenticationFailure)))

/-- R279: a command that ends with an error, and an engine's turn that does (an illegal word too), leaves every state as it was, apart
from BUSY, DONE, ERR and ERR_INFO (and the model's own inputs and counter of free values, log entries 1 and 6). -/
def Obligations.ErrorsChangeNoOtherState : Prop :=
  ∀ s t : State,
    (∀ i, exec i s = .next t → t.err ≠ .none →
      t = { s with busy := false, done := true, err := t.err, errInfo := t.errInfo, freeCount := t.freeCount }) ∧
    (∀ rest, s.busy = true → s.rst = false → s.inputs = .engine :: rest → step s = .next t → t.err ≠ .none →
      t = { s with
        inputs := rest, busy := false, done := true, err := t.err, errInfo := t.errInfo, freeCount := t.freeCount })

/-- No command writes an operand register, CFG, CTRL, CMDL, OVR or the parameters (10_state.md R27, R29, R39), nor the reset input,
the port's reply, the inputs still to come or the number of the reset. -/
def Obligations.CommandsKeepRegistersAndInputs : Prop :=
  ∀ (i : Instr) (s t : State), exec i s = .next t →
    t.regs = s.regs ∧ t.cfg = s.cfg ∧ t.ie = s.ie ∧ t.cmdl = s.cmdl ∧ t.ovr = s.ovr ∧ t.params = s.params ∧
    t.rst = s.rst ∧ t.port = s.port ∧ t.inputs = s.inputs ∧ t.mem.epoch = s.mem.epoch

/-- R276: `irq` is IE and DONE; every completion raises it when IE = 1, success and error alike (an illegal word too), and with IE = 0
none does; the next issue and a 1 written to STATUS.DONE lower it; setting IE while DONE = 1 raises it at once. -/
def Obligations.InterruptFollowsCompletion : Prop :=
  ∀ s : State, s.irq = (s.ie && s.done) ∧ (∀ i t, exec i s = .next t → t.irq = s.ie) ∧
    (∀ t rest, s.busy = true → s.rst = false → s.inputs = .engine :: rest → step s = .next t → t.irq = s.ie) ∧
    (∀ v t rest, s.rst = false → s.busy = false → s.inputs = .access (.write 0x018 .b32 v) :: rest →
      step s = .next t → t.irq = false) ∧
    (∀ v t rest, s.rst = false → s.inputs = .access (.write 0x00C .b32 v) :: rest → v.getLsbD 1 = true →
      step s = .next t → t.irq = false) ∧
    (∀ v t rest, s.rst = false → s.inputs = .access (.write 0x008 .b32 v) :: rest →
      step s = .next t → t.irq = (v.getLsbD 0 && s.done))

/-- R163: what a command does is the same for every value of P_HAS_V128 and P_HAS_V256. -/
def Obligations.TiersChangeNoResult : Prop :=
  ∀ (i : Instr) (s t : State) (v128 v256 : Bool), exec i s = .next t →
    exec i (withTiers v128 v256 s) = .next (withTiers v128 v256 t)

/-! ### The host port (10_state.md §1, 20_memory.md, 70_reset_and_hazards.md §3) -/

/-- R62: while `rst` is not asserted, a host access is a bus error, which is a fault of the host's step, exactly in the cases the rule
lists; no other step of the machine stops. That an access under `rst` never stops, one that R62 lists too, is the model's choice (log
entry 8, DESIGN CHOICE): U4 suggests a fault there. -/
def Obligations.StopsAreExactlyTheBusErrors : Prop :=
  ∀ s : State, (∀ r, step s ≠ .refused r) ∧
    (∀ a rest, s.rst = false → s.inputs = .access a :: rest →
      (step s = .fault (.busError a) ↔ busErrorAccess s.params (accessOffset a) (accessBytes a))) ∧
    (∀ f, step s = .fault f → ∃ a rest, s.rst = false ∧ s.inputs = .access a :: rest ∧ f = .busError a)

/-- R312: a write to CMD, CFG, an operand register, W or DMEM while BUSY = 1 changes nothing but OVR; OVR then stays 1 until the
host writes 1 to it (or resets the block); an access that is a bus error sets no OVR, because it makes no next state. -/
def Obligations.WritesWhileBusyAreDropped : Prop :=
  ∀ s : State, s.rst = false →
    (∀ off width v rest, s.busy = true → s.inputs = .access (.write off width v) :: rest →
      droppedOffset off.toNat → ¬busErrorAccess s.params off.toNat width.bytes →
      step s = .next { s with inputs := rest, port := .written, ovr := true }) ∧
    (∀ t, s.ovr = true → step s = .next t → t.ovr = true ∨
      (∃ v rest, s.inputs = .access (.write 0x00C .b32 v) :: rest ∧ v.getLsbD 2 = true) ∨
      (∃ rest, s.inputs = .rst true :: rest)) ∧
    (∀ a rest, s.inputs = .access a :: rest → busErrorAccess s.params (accessOffset a) (accessBytes a) →
      step s = .fault (.busError a))

/-- R311: while BUSY = 1 the listed registers read their values (ERR_INFO reads 0), writes to CTRL and STATUS take effect, writes to
ID, CAP and ERR_INFO are ignored without OVR, and a read of W or DMEM returns some data and changes nothing else. -/
def Obligations.AllowedAccessesWhileBusy : Prop :=
  ∀ (s : State) (rest : List Input), s.Inv → s.rst = false → s.busy = true →
    (∀ e ∈ readableWhileBusy s, s.inputs = .access (.read (BitVec.ofNat 17 e.1) .b32) :: rest →
      step s = .next { s with inputs := rest, port := .data e.2 }) ∧
    (∀ v, s.inputs = .access (.write 0x008 .b32 v) :: rest →
      step s = .next { s with inputs := rest, port := .written, ie := v.getLsbD 0 }) ∧
    (∀ v, s.inputs = .access (.write 0x00C .b32 v) :: rest →
      step s = .next { s with inputs := rest, port := .written, ovr := s.ovr && !v.getLsbD 2 }) ∧
    (∀ off ∈ [0x000, 0x004, 0x010], ∀ v, s.inputs = .access (.write (BitVec.ofNat 17 off) .b32 v) :: rest →
      step s = .next { s with inputs := rest, port := .written }) ∧
    (∀ off width, s.inputs = .access (.read off width) :: rest → (0x080 ≤ off.toNat ∧ off.toNat ≤ 0x0BC) ∨ 0x10000 ≤ off.toNat →
      ¬busErrorAccess s.params off.toNat width.bytes →
      ∃ v n, step s = .next { s with inputs := rest, port := .data v, freeCount := n })

/-- R69 (c): no read has a side effect, and while BUSY = 0 a read made twice gives the same data twice. -/
def Obligations.ReadsHaveNoSideEffect : Prop :=
  ∀ (s t : State) (off : BitVec 17) (width : Width) (rest : List Input),
    s.inputs = .access (.read off width) :: rest → step s = .next t →
    t = { s with inputs := rest, port := t.port, freeCount := t.freeCount } ∧
    (s.rst = false → s.busy = false → ∀ more,
      step { t with inputs := .access (.read off width) :: more } = .next { t with inputs := more })

/-- The registers a program writes and reads back (R23, R26, R29, R31): with BUSY = 0 a write to CTRL, CFG, an operand register or
a word of W stores the bits that register has and changes no other state (neither DRV nor KS for W), and the next read of the same
offset gives the stored bits, the reserved ones as 0. -/
def Obligations.RegisterWritesReadBack : Prop :=
  ∀ (s : State) (v : Word) (rest : List Input), s.rst = false → s.busy = false →
    (∀ e ∈ registerWrites s v, ∀ read : Input, read = .access (.read (BitVec.ofNat 17 e.1) .b32) →
      s.inputs = .access (.write (BitVec.ofNat 17 e.1) .b32 v) :: read :: rest →
      step s = .next { e.2.1 with inputs := read :: rest, port := .written } ∧
        step { e.2.1 with inputs := read :: rest, port := .written } =
          .next { e.2.1 with inputs := rest, port := .data e.2.2 }) ∧
    (∀ (i : Fin 16) (read : Input), read = .access (.read (BitVec.ofNat 17 (0x080 + 4 * i.val)) .b32) →
      s.inputs = .access (.write (BitVec.ofNat 17 (0x080 + 4 * i.val)) .b32 v) :: read :: rest →
      ∃ t, step s = .next t ∧ t = { s with w := t.w, inputs := read :: rest, port := .written } ∧
        (∀ j : Fin 16, t.w[j] = if j = i then v else s.w[j]) ∧
        step t = .next { t with inputs := rest, port := .data v })

/-- R24, R25, R272: the fields of STATUS, with its reserved bits 0, and what a write to it changes; and with BUSY = 0 a read of ERR_INFO
gives 0 when there is no sub-cause, and the code of the table of R272 otherwise, bits [31:8] being 0. -/
def Obligations.StatusFields : Prop :=
  ∀ s : State, s.Inv →
    (s.statusWord.getLsbD 0 = s.busy ∧ s.statusWord.getLsbD 1 = s.done ∧ s.statusWord.getLsbD 2 = s.ovr ∧
      s.statusWord.getLsbD 3 = false ∧
      s.statusWord.toNat / 2 ^ 4 % 2 ^ 4 =
        (match s.err with
         | .none => 0
         | .invalidArgument => 1
         | .authenticationFailure => 2
         | .illegalCommand => 3) ∧
      s.statusWord.toNat / 2 ^ 8 % 2 ^ 2 = (match s.drv with | .unkeyed => 0 | .fresh => 1 | .streaming => 2) ∧
      s.statusWord.getLsbD 10 = s.kv ∧
      s.statusWord.toNat / 2 ^ 11 % 2 ^ 2 = (match s.pst with | .idle => 0 | .active => 1 | .finished => 2) ∧
      s.statusWord.toNat / 2 ^ 13 % 2 ^ 3 = 0 ∧ s.statusWord.toNat / 2 ^ 16 % 2 ^ 10 = s.ks.length ∧
      s.statusWord.toNat / 2 ^ 26 = 0) ∧
    (∀ v rest, s.rst = false → s.inputs = .access (.write 0x00C .b32 v) :: rest →
      step s = .next { s with
        inputs := rest, port := .written, done := s.done && !v.getLsbD 1, ovr := s.ovr && !v.getLsbD 2 }) ∧
    (∀ rest, s.rst = false → s.busy = false → s.inputs = .access (.read 0x010 .b32) :: rest →
      step s = .next { s with inputs := rest, port := .data (infoValue s.errInfo) })

/-- R22: the fields of CAP, with its reserved bits 0; the host reads it at offset 0x004, a write there is ignored, and CAP never
changes, reset included. -/
def Obligations.CapReportsTheParameters : Prop :=
  (∀ p : Params,
    (capWord p).getLsbD 0 = p.hasV128 ∧ (capWord p).getLsbD 1 = p.hasV256 ∧
    (capWord p).toNat / 2 ^ 2 % 2 ^ 2 = (if p.hasV256 = true then 2 else if p.hasV128 = true then 1 else 0) ∧
    (capWord p).toNat / 2 ^ 4 % 2 ^ 4 = 0 ∧ 2 ^ ((capWord p).toNat / 2 ^ 8 % 2 ^ 8) = p.dmemSize ∧
    (capWord p).toNat / 2 ^ 16 = 0) ∧
  ∀ s t : State, (step s = .next t → capWord t.params = capWord s.params) ∧
    ∀ v rest, s.rst = false →
      (s.inputs = .access (.read 0x004 .b32) :: rest →
        step s = .next { s with inputs := rest, port := .data (capWord s.params) }) ∧
      (s.inputs = .access (.write 0x004 .b32 v) :: rest → step s = .next { s with inputs := rest, port := .written })

/-- R67: the DMEM window: a misaligned access is a bus error; an aligned 8, 16 or 32-bit read gives the bytes least significant first;
an aligned write stores the value's bytes in the same order and no other byte changes. That a narrow read is zero-extended and a narrow
write takes the low bits of the model's 32-bit value is the model's choice (log entry 13). -/
def Obligations.DmemWindowIsLittleEndian : Prop :=
  ∀ (s : State) (a n : Nat) (v : Word) (rest : List Input), s.rst = false → s.busy = false → n ∈ [1, 2, 4] →
    a < s.params.dmemSize →
    (a % n ≠ 0 → ∀ b, b = Access.read (BitVec.ofNat 17 (0x10000 + a)) (widthOf n) ∨
        b = Access.write (BitVec.ofNat 17 (0x10000 + a)) (widthOf n) v →
      s.inputs = .access b :: rest → step s = .fault (.busError b)) ∧
    (a % n = 0 →
      (s.inputs = .access (.read (BitVec.ofNat 17 (0x10000 + a)) (widthOf n)) :: rest →
        step s = .next { s with inputs := rest, port := .data (BitVec.ofNat 32 (memLE s.mem a n)) }) ∧
      (s.inputs = .access (.write (BitVec.ofNat 17 (0x10000 + a)) (widthOf n) v) :: rest →
        ∃ m, step s = .next { s with inputs := rest, port := .written, mem := m } ∧
          (∀ j < n, (m.read (a + j)).toNat = v.toNat / 2 ^ (8 * j) % 256) ∧ sameOutside s.mem m a n))

/-- K, KLEN, KS beyond its length, the Poly1305 registers and CMDL are not host-readable (R32, R35, R36): two states that differ in them
alone give every host read the same reply. -/
def Obligations.SecretsAreNotHostReadable : Prop :=
  ∀ (s o : State) (off : BitVec 17) (width : Width) (rest : List Input), o.ks.length = s.ks.length →
    s.inputs = .access (.read off width) :: rest →
    (let s' : State := { s with
      k := o.k, klen := o.klen, ks := o.ks, pr := o.pr, ps := o.ps, pacc := o.pacc, pbuf := o.pbuf, cmdl := o.cmdl }
     (∀ f, step s = .fault f → step s' = .fault f) ∧
     ∀ t, step s = .next t → ∃ t', step s' = .next t' ∧ t'.port = t.port)

/-! ### Reset (70_reset_and_hazards.md §1) -/

/-- R302: asserting `rst`, also while BUSY = 1, abandons the command and gives the table of R301: DONE = 0, `irq` = 0, DMEM
UNSPECIFIED (nothing listed, and a new number of reset, log entry 4). The constants and the model's own inputs stay; CMDL = 0 is the
model's choice (log entry 9), so it is not stated. R300: while `rst` is asserted a host access changes nothing but the port's reply
(a read's data is open), and releasing `rst` changes nothing else. That every access under `rst` answers a next state, one that would
be a bus error too, that `rst` is a level and that the engine's turn then does nothing are the model's choices (log entry 8, DESIGN
CHOICE, marked unsafe): U4 suggests a fault for such an access. -/
def Obligations.ResetGivesTheTable : Prop :=
  ∀ (s : State) (rest : List Input),
    (s.inputs = .rst true :: rest →
      ∃ t, step s = .next t ∧ t.params = s.params ∧ t.rst = true ∧ t.inputs = rest ∧ t.ie = false ∧ t.busy = false ∧
        t.done = false ∧ t.ovr = false ∧ t.err = .none ∧ t.errInfo = none ∧ t.irq = false ∧ t.statusWord = 0 ∧
        t.cfg.word = 0x00001400 ∧ t.regs = ⟨0, 0, 0, 0, 0, 0, 0, 0, 0, 0⟩ ∧ (∀ i : Fin 16, t.w[i] = 0) ∧
        (∀ i : Fin 8, t.k[i] = 0) ∧ t.klen = .k32 ∧ t.kv = false ∧ t.ks = [] ∧ t.drv = .unkeyed ∧ t.pr = 0 ∧ t.ps = 0 ∧
        t.pacc = 0 ∧ t.pbuf = [] ∧ t.pst = .idle ∧ t.mem.cells = [] ∧ t.mem.epoch ≠ s.mem.epoch) ∧
    (s.rst = true →
      (∀ a, s.inputs = .access a :: rest → ∃ p n, step s = .next { s with inputs := rest, port := p, freeCount := n }) ∧
      (s.inputs = .engine :: rest → step s = .next { s with inputs := rest }) ∧
      (s.inputs = .rst false :: rest → step s = .next { s with inputs := rest, rst := false }))

/-- A read of each offset that 10_state.md R20 lists gives, right after reset, the value of R301's table for the register R20 puts there:
0 but for ID, CAP and CFG. The value of CAP is R22's for the reference parameters, which are the model's choice (log entry 3, DESIGN
CHOICE). A read of 0 does not tell which register answers: `RegisterWritesReadBack` and `AllowedAccessesWhileBusy` do. -/
def Obligations.ResetStateReadsAsTheTable : Prop :=
  ∀ e ∈ ([ (0x000, 0x43423230), (0x004, 0x0000100B), (0x008, 0), (0x00C, 0), (0x010, 0), (0x014, 0x00001400), (0x018, 0),
      (0x020, 0), (0x024, 0), (0x028, 0), (0x02C, 0), (0x030, 0), (0x034, 0), (0x038, 0), (0x03C, 0), (0x040, 0),
      (0x044, 0) ] ++ (List.range 16).map fun i => (0x080 + 4 * i, 0) : List (Nat × Nat)),
    ∃ t, step { State.reset with inputs := [.access (.read (BitVec.ofNat 17 e.1) .b32)] } = .next t ∧
      t.port = .data (BitVec.ofNat 32 e.2)

/-- The invariant holds right after reset. -/
def Obligations.InvariantHoldsAtReset : Prop := ∀ p : Params, (State.resetOf p).Inv ∧ State.reset.Inv

/-- Every step keeps the invariant: DMEM stays in canonical form (the model's own, log entry 4) and within its size, KS within 512 bytes, PACC below the prime, PBUF
below 16 bytes, PR clamped, a running command quiet, ERR_INFO tied to ERR, and the driver, key and reset states consistent. -/
def Obligations.EveryStepKeepsTheInvariant : Prop := ∀ s t : State, s.Inv → step s = .next t → t.Inv

/-! ### Permutations (40_permutation.md) -/

/-- R121, R122, R127, R128: QR.C and QR.S on any four lanes, repeats included: the four lines of the rule, each assignment reading what
the ones before it wrote; nothing else changes. -/
def Obligations.QuarterRoundsRunTheirLines : Prop :=
  ∀ (s : State) (a b c d : Lane),
    (let x1 := s.w.set a (s.w[a] + s.w[b]); let x2 := x1.set d (rot (x1[d] ^^^ x1[a]) 16)
     let x3 := x2.set c (x2[c] + x2[d]); let x4 := x3.set b (rot (x3[b] ^^^ x3[c]) 12)
     let x5 := x4.set a (x4[a] + x4[b]); let x6 := x5.set d (rot (x5[d] ^^^ x5[a]) 8)
     let x7 := x6.set c (x6[c] + x6[d]); let x8 := x7.set b (rot (x7[b] ^^^ x7[c]) 7)
     exec (.qrC a b c d) s = .next (doneOk { s with w := x8 })) ∧
    (let x1 := s.w.set b (s.w[b] ^^^ rot (s.w[a] + s.w[d]) 7)
     let x2 := x1.set c (x1[c] ^^^ rot (x1[b] + x1[a]) 9)
     let x3 := x2.set d (x2[d] ^^^ rot (x2[c] + x2[b]) 13)
     let x4 := x3.set a (x3[a] ^^^ rot (x3[d] + x3[c]) 18)
     exec (.qrS a b c d) s = .next (doneOk { s with w := x4 }))

/-- R121, R127 on four distinct lanes, as four new words computed from the four old ones; the other twelve words are unchanged. -/
def Obligations.QuarterRoundsOnDistinctLanes : Prop :=
  ∀ (s : State) (a b c d : Lane), [a, b, c, d].Nodup →
    (∃ t, exec (.qrC a b c d) s = .next t ∧ t = doneOk { s with w := t.w } ∧
      (∀ i : Lane, i ∉ [a, b, c, d] → t.w[i] = s.w[i]) ∧
      (let a1 := s.w[a] + s.w[b]; let d1 := rot (s.w[d] ^^^ a1) 16; let c1 := s.w[c] + d1; let b1 := rot (s.w[b] ^^^ c1) 12
       let a2 := a1 + b1; let d2 := rot (d1 ^^^ a2) 8; let c2 := c1 + d2; let b2 := rot (b1 ^^^ c2) 7
       t.w[a] = a2 ∧ t.w[b] = b2 ∧ t.w[c] = c2 ∧ t.w[d] = d2)) ∧
    (∃ t, exec (.qrS a b c d) s = .next t ∧ t = doneOk { s with w := t.w } ∧
      (∀ i : Lane, i ∉ [a, b, c, d] → t.w[i] = s.w[i]) ∧
      (let b1 := s.w[b] ^^^ rot (s.w[a] + s.w[d]) 7; let c1 := s.w[c] ^^^ rot (b1 + s.w[a]) 9
       let d1 := s.w[d] ^^^ rot (c1 + b1) 13; let a1 := s.w[a] ^^^ rot (d1 + c1) 18
       t.w[a] = a1 ∧ t.w[b] = b1 ∧ t.w[c] = c1 ∧ t.w[d] = d1))

/-- R123, R129 and R100: DR.C is the column round and then the diagonal round, DR.S the column round and then the row round, each the
four quarter-round commands of its pseudo-instruction; nothing but W changes. -/
def Obligations.DoubleRoundsAreEightQuarterRounds : Prop :=
  ∀ s : State,
    (∃ t, exec .drC s = .next t ∧ t = doneOk { s with w := t.w } ∧
      runAll [.qrC 0 4 8 12, .qrC 1 5 9 13, .qrC 2 6 10 14, .qrC 3 7 11 15,
        .qrC 0 5 10 15, .qrC 1 6 11 12, .qrC 2 7 8 13, .qrC 3 4 9 14] s = .next t ∧
      runAll (Pseudo.colroundC.expand ++ Pseudo.diagroundC.expand) s = .next t) ∧
    (∃ t, exec .drS s = .next t ∧ t = doneOk { s with w := t.w } ∧
      runAll [.qrS 0 4 8 12, .qrS 5 9 13 1, .qrS 10 14 2 6, .qrS 15 3 7 11,
        .qrS 0 1 2 3, .qrS 5 6 7 4, .qrS 10 11 8 9, .qrS 15 12 13 14] s = .next t ∧
      runAll (Pseudo.colroundS.expand ++ Pseudo.rowroundS.expand) s = .next t)

/-- R125, R126, R131, R132: with a legal ROUNDS = r, PERM.C leaves what r/2 DR.C commands leave, and PERM.S what r/2 DR.S commands
leave; nothing but W changes. -/
def Obligations.PermutationsAreRepeatedDoubleRounds : Prop :=
  ∀ s : State, roundsLegal s →
    (∃ t, exec .permC s = .next t ∧ t = doneOk { s with w := t.w } ∧
      runAll (List.replicate (s.cfg.rounds.toNat / 2) .drC) s = .next t) ∧
    (∃ t, exec .permS s = .next t ∧ t = doneOk { s with w := t.w } ∧
      runAll (List.replicate (s.cfg.rounds.toNat / 2) .drS) s = .next t)

/-- R135: DR.C, DR.S, PERM.C, PERM.S, and QR.C and QR.S on distinct lanes, are bijections on W: each W is left by exactly one. -/
def Obligations.PermutationCommandsAreBijections : Prop :=
  ∀ (s : State) (y : CipherState) (i : Instr),
    (i = .drC ∨ i = .drS ∨ (roundsLegal s ∧ (i = .permC ∨ i = .permS)) ∨
      (∃ a b c d, [a, b, c, d].Nodup ∧ (i = .qrC a b c d ∨ i = .qrS a b c d))) →
    ∃! x : CipherState, exec i { s with w := x } = .next (doneOk { s with w := y })

/-! ### The stream driver (41_keystream.md) -/

/-- R150, R168, R304: NOP changes nothing but its completion; ZEROIZE leaves the internal state at its reset value and keeps the
registers and DMEM. -/
def Obligations.NopAndZeroize : Prop :=
  ∀ s : State, exec .nop s = .next (doneOk s) ∧
    ∃ t, exec .zeroize s = .next t ∧
      t = doneOk { s with
        w := State.reset.w, k := State.reset.k, klen := State.reset.klen, kv := State.reset.kv, ks := State.reset.ks,
        drv := State.reset.drv, pr := State.reset.pr, ps := State.reset.ps, pacc := State.reset.pacc,
        pbuf := State.reset.pbuf, pst := State.reset.pst } ∧
      (∀ i : Fin 16, t.w[i] = 0) ∧ (∀ i : Fin 8, t.k[i] = 0)

/-- R155, R157: LDKEY loads 32 bytes, or 16 bytes twice; it empties KS and unkeys the driver; W, the MAC and DMEM are kept. -/
def Obligations.LdkeyLoadsTheKey : Prop :=
  ∀ s : State,
    (s.cfg.k16 = false → s.regs.keya.toNat + 32 ≤ s.params.dmemSize →
      ∃ k, exec .ldkey s = .next (doneOk { s with k := k, klen := .k32, kv := true, ks := [], drv := .unkeyed }) ∧
        ∀ i : Fin 8, k[i] = memWord s.mem (s.regs.keya.toNat + 4 * i.val)) ∧
    (s.cfg.k16 = true → s.regs.keya.toNat + 16 ≤ s.params.dmemSize →
      ∃ k, exec .ldkey s = .next (doneOk { s with k := k, klen := .k16, kv := true, ks := [], drv := .unkeyed }) ∧
        ∀ i : Fin 8, k[i] = memWord s.mem (s.regs.keya.toNat + 4 * (i.val % 4)))

/-- R151, R152, R156 with XN = 0: SETIV builds the layout of ALG from K and the nonce, with counter 0; KS is emptied and DRV = Fresh. -/
def Obligations.SetivBuildsTheLayout : Prop :=
  ∀ (s : State) (alg : Alg), algIs s alg → s.kv = true → s.cfg.xn = false →
    s.regs.noncea.toNat + nonceBytes s ≤ s.params.dmemSize →
    ∃ w, exec .setiv s = .next (doneOk { s with w := w, ks := [], drv := .fresh }) ∧
      w.toList = layout alg (constOf s.klen) s.k.toList 0 0 (nonceWords alg s.mem s.regs.noncea.toNat)

/-- R192 with XN = 1: SETIV builds the child cipher's layout from the subkey HNONCE derives for the first 16 nonce bytes, the other
8 nonce bytes (after four zero bytes for XChaCha20) and counter 0; K is kept. HNONCE may write the subkey to any `d` that is fit for it:
SETIV's own DST is not read. -/
def Obligations.SetivExtendedBuildsTheChild : Prop :=
  ∀ (s : State) (alg : Alg) (d : Word), algIs s alg → alg ≠ .original → passes .setiv s → s.cfg.xn = true → subkeyFits s d →
    ∃ h w, exec .hnonce (withDst d s) = .next h ∧ h.err = .none ∧
      exec .setiv s = .next (doneOk { s with w := w, ks := [], drv := .fresh }) ∧
      (let a := d.toNat; let n2 := s.regs.noncea.toNat + 16
       let sub := [memWord h.mem a, memWord h.mem (a + 4), memWord h.mem (a + 8), memWord h.mem (a + 12),
         memWord h.mem (a + 16), memWord h.mem (a + 20), memWord h.mem (a + 24), memWord h.mem (a + 28)]
       w.toList = layout alg (constOf .k32) sub 0 0
         ((if alg = .ietf then [0#32] else []) ++ [memWord s.mem n2, memWord s.mem (n2 + 4)]))

/-- R153, R158, R159: SETCTR sets the counter of the layout of ALG from CTRHI and CTRLO (CTRLO alone for ALG 0), RESET sets it to 0;
both empty KS and make DRV Fresh, and keep every other word of W. -/
def Obligations.CounterCommandsSetTheCounter : Prop :=
  ∀ (s : State) (alg : Alg), algIs s alg → s.drv ≠ .unkeyed →
    (∃ w, exec .setctr s = .next (doneOk { s with w := w, ks := [], drv := .fresh }) ∧
      counterSet alg s.w w (pair s.regs.ctrhi s.regs.ctrlo)) ∧
    (∃ w, exec .reset s = .next (doneOk { s with w := w, ks := [], drv := .fresh }) ∧ counterSet alg s.w w 0)

/-- R133, R160, R161: KSGEN.1 leaves the 64 bytes of W plus its permutation (what PERM.C or PERM.S leaves), word by word and
little-endian, in KS, and advances the counter by one. -/
def Obligations.KsgenOneIsTheBlock : Prop :=
  ∀ (s : State) (alg : Alg), algIs s alg → s.drv ≠ .unkeyed → roundsLegal s →
    ∃ (u : State) (w : CipherState) (ks : List Byte), exec (permOf alg) s = .next u ∧
      exec .ksgen1 s = .next (doneOk { s with w := w, ks := ks, drv := .streaming }) ∧
      counterAdvanced alg s.w w 1 ∧ ks.length = 64 ∧
      ∀ (i : Fin 16) (j : Fin 4),
        (ks.getD (4 * i.val + j.val) 0).toNat = (u.w[i] + s.w[i]).toNat / 2 ^ (8 * j.val) % 256

/-- R162, R164, R167: KSGEN.N leaves in KS the blocks of N KSGEN.1 commands, one after the other, and W as they leave it. -/
def Obligations.KsgenBatchesAreSingleBlocks : Prop :=
  ∀ (s : State) (n : Nat) (i : Instr), (n, i) ∈ [(1, Instr.ksgen1), (2, .ksgen2), (4, .ksgen4), (8, .ksgen8)] →
    passes i s →
    ∃ f : Nat → State, f 0 = s ∧ (∀ j < n, exec .ksgen1 (f j) = .next (f (j + 1))) ∧
      exec i s = .next { f n with ks := (List.range n).flatMap fun j => (f (j + 1)).ks }

/-- R170: an UPDATE of n bytes with k bytes pending generates the stated number of blocks, leaves the stated number of bytes pending and
advances the counter by the number of blocks, wrapping by R153. -/
def Obligations.UpdateCountsItsBlocks : Prop :=
  ∀ (s : State) (alg : Alg), algIs s alg → passes .update s →
    ∃ t, exec .update s = .next t ∧ t.ks.length = leftFor s.ks.length s.regs.len.toNat ∧
      counterAdvanced alg s.w t.w (blocksFor s.ks.length s.regs.len.toNat)

/-- R166: UPDATE writes each source byte exclusive-or the keystream byte (the pending bytes, and then the blocks that are generated) to
the destination, keeps every other byte of DMEM, leaves the unused keystream pending, and sets DRV = Streaming. -/
def Obligations.UpdateXorsTheKeystream : Prop :=
  ∀ (s : State) (alg : Alg), algIs s alg → passes .update s →
    (let n := s.regs.len.toNat
     let g := genBlocks alg s.cfg.rounds.toNat (blocksFor s.ks.length n) s.w
     ∃ m, exec .update s = .next (doneOk { s with mem := m, w := g.2, ks := (s.ks ++ g.1).drop n, drv := .streaming }) ∧
       (∀ i < n, m.read (s.regs.dst.toNat + i) = s.mem.read (s.regs.src.toNat + i) ^^^ (s.ks ++ g.1).getD i 0) ∧
       sameOutside s.mem m s.regs.dst.toNat n)

/-- R169 (b): an UPDATE of L bytes is the UPDATE of its first L1 bytes and then of the other L2, for every split. -/
def Obligations.UpdateSplitsAnywhere : Prop :=
  ∀ (s t : State) (l1 l2 : Word), passes .update s → l1.toNat + l2.toNat = s.regs.len.toNat → exec .update s = .next t →
    ∃ t1 t2, exec .update { s with regs := { s.regs with len := l1 } } = .next t1 ∧
      exec .update { t1 with regs := { s.regs with src := s.regs.src + l1, dst := s.regs.dst + l1, len := l2 } } = .next t2 ∧
      t = { t2 with regs := s.regs }

/-- R169 (a): a second UPDATE from the same stream state, in place on the first one's output, gives the original bytes back. -/
def Obligations.UpdateIsAnInvolution : Prop :=
  ∀ (s t : State), passes .update s → exec .update s = .next t →
    ∃ u, exec .update { t with w := s.w, ks := s.ks, drv := s.drv, regs := { t.regs with src := t.regs.dst } } = .next u ∧
      u.err = .none ∧ u.w = t.w ∧ u.ks = t.ks ∧
      ∀ i < s.regs.len.toNat, u.mem.read (s.regs.dst.toNat + i) = s.mem.read (s.regs.src.toNat + i)

/-! ### Nonce expansion (42_nonce_expansion.md) -/

/-- R190, R191, R193: HNONCE writes to DST the eight output lanes of the permutation command on the state of sigma, K and the 16 nonce
bytes, with no feed-forward; every other byte of DMEM and every other state is kept. -/
def Obligations.HnonceWritesTheSubkey : Prop :=
  ∀ (s : State) (alg : Alg) (x : CipherState), algIs s alg → passes .hnonce s →
    (let n := s.regs.noncea.toNat
     x.toList = layout (if alg = .salsa then .salsa else .ietf) (constOf .k32) s.k.toList
         (if alg = .salsa then memWord s.mem (n + 8) else memWord s.mem n) (memWord s.mem (n + 12))
         (if alg = .salsa then [memWord s.mem n, memWord s.mem (n + 4)]
          else [memWord s.mem (n + 4), memWord s.mem (n + 8), memWord s.mem (n + 12)])) →
    ∃ (u : State) (m : Memory), exec (permOf alg) { s with w := x } = .next u ∧
      exec .hnonce s = .next (doneOk { s with mem := m }) ∧ sameOutside s.mem m s.regs.dst.toNat 32 ∧
      (let lanes : List Lane := if alg = .salsa then [0, 5, 10, 15, 6, 7, 8, 9] else [0, 1, 2, 3, 12, 13, 14, 15]
       ∀ j < 8, memWord m (s.regs.dst.toNat + 4 * j) = u.w[lanes.getD j 0])

/-- R195: for ALG 0 and ALG 2, SETIV with XN = 1 gives the W that HNONCE to a range `d`, LDKEY from it and SETIV with XN = 0 and the
child nonce (four zero bytes first for ALG 0) give, and every later keystream is the same, whichever KSGEN, SETCTR and RESET commands
follow; the first keeps K, the second replaces it by the subkey. The child nonce stands at `a` when the last SETIV reads it. -/
def Obligations.ExtendedNonceEquivalence : Prop :=
  ∀ (s : State) (alg : Alg) (a d : Word), algIs s alg → alg ≠ .original → s.cfg.xn = true → passes .setiv s → subkeyFits s d →
    a.toNat + (if alg = .ietf then 12 else 8) ≤ s.params.dmemSize →
    ∃ h, exec .hnonce (withDst d s) = .next h ∧ h.err = .none ∧
    ((let n2 := s.regs.noncea.toNat + 16
      (alg = .ietf → (∀ i < 4, h.mem.read (a.toNat + i) = 0) ∧ ∀ i < 8, h.mem.read (a.toNat + 4 + i) = s.mem.read (n2 + i)) ∧
      (alg = .salsa → ∀ i < 8, h.mem.read (a.toNat + i) = s.mem.read (n2 + i))) →
     ∃ t l u, exec .setiv s = .next t ∧ t.err = .none ∧
      exec .ldkey { h with regs := { h.regs with keya := d }, cfg := { h.cfg with k16 := false } } = .next l ∧
      exec .setiv { l with regs := { l.regs with noncea := a }, cfg := { l.cfg with xn := false } } = .next u ∧
      u.err = .none ∧ u.w = t.w ∧ u.ks = t.ks ∧ t.k = s.k ∧ (∀ i : Fin 8, u.k[i] = memWord h.mem (d.toNat + 4 * i.val)) ∧
      ∀ later : List Instr, (∀ i ∈ later, i ∈ [.ksgen1, .ksgen2, .ksgen4, .ksgen8, .setctr, .reset]) →
        ∃ t' u', runAll later t = .next t' ∧ runAll later u = .next u' ∧ t'.err = .none ∧ u'.err = .none ∧
          u'.ks = t'.ks ∧ u'.w = t'.w)

/-! ### Poly1305 (43_poly1305.md) -/

/-- R210, R212: P.INIT reads the one-time key at KEYA: PR is its first half ANDed with the clamp, PS its second half; the MAC starts
afresh, in every PST. -/
def Obligations.PInitStartsTheMac : Prop :=
  ∀ s : State, s.regs.keya.toNat + 32 ≤ s.params.dmemSize →
    ∃ pr ps, exec .pInit s = .next (doneOk { s with pr := pr, ps := ps, pacc := 0, pbuf := [], pst := .active }) ∧
      pr.toNat = memLE s.mem s.regs.keya.toNat 16 &&& 0x0ffffffc0ffffffc0ffffffc0fffffff ∧
      ps.toNat = memLE s.mem (s.regs.keya.toNat + 16) 16

/-- R211, R213: P.BLOCK is one field operation on the 16 bytes at SRC plus H times 2^128. -/
def Obligations.PBlockIsOneFieldOperation : Prop :=
  ∀ (s : State) (h : Bool), s.pst = .active → s.pbuf = [] → s.regs.src.toNat + 16 ≤ s.params.dmemSize →
    exec (.pBlock h) s = .next (doneOk { s with
      pacc := ((s.pacc + (memLE s.mem s.regs.src.toNat 16 + (if h = true then 1 else 0) * 2 ^ 128)) * s.pr.toNat)
        % (2 ^ 130 - 5) })

/-- R214: P.UPDATE absorbs the full 16-byte blocks of PBUF and its input, PACC becoming FieldOp over those blocks in order, keeps the
rest in PBUF (never 16 bytes), and changes nothing else; on a block boundary a 16-byte P.UPDATE is P.BLOCK 1, LEN = 0 changes nothing, and a split input gives the same state. -/
def Obligations.PUpdateAbsorbsBlocks : Prop :=
  ∀ s : State, s.Inv → s.pst = .active → s.regs.src.toNat + s.regs.len.toNat ≤ s.params.dmemSize →
    ∃ t, exec .pUpdate s = .next t ∧ t = doneOk { s with pacc := t.pacc, pbuf := t.pbuf } ∧
      (∃ full, s.pbuf ++ s.mem.readBytes s.regs.src.toNat s.regs.len.toNat = full ++ t.pbuf ∧ full.length % 16 = 0 ∧
        t.pacc = polyFold s.pr.toNat s.pacc full) ∧
      t.pbuf.length < 16 ∧
      (s.regs.len.toNat = 0 → t = doneOk s) ∧
      (s.pbuf = [] → s.regs.len.toNat = 16 → exec (.pBlock true) s = .next t) ∧
      (∀ l1 l2 : Word, l1.toNat + l2.toNat = s.regs.len.toNat →
        ∃ t1 t2, exec .pUpdate { s with regs := { s.regs with len := l1 } } = .next t1 ∧
          exec .pUpdate { t1 with regs := { s.regs with src := s.regs.src + l1, len := l2 } } = .next t2 ∧
          t = { t2 with regs := s.regs })

/-- R211, R215: P.FINAL absorbs the partial block with its high bit marker, if there is one, and writes (PACC + PS) mod 2^128 to TAG,
least significant byte first; every other byte of DMEM is kept. -/
def Obligations.PFinalWritesTheTag : Prop :=
  ∀ s : State, s.pst = .active → s.regs.tag.toNat + 16 ≤ s.params.dmemSize →
    (let acc := if s.pbuf = [] then s.pacc
       else ((s.pacc + (strLE s.pbuf + 2 ^ (8 * s.pbuf.length))) * s.pr.toNat) % (2 ^ 130 - 5)
     ∃ m, exec .pFinal s = .next (doneOk { s with mem := m, pacc := acc, pbuf := [], pst := .finished }) ∧
       holdsLE m s.regs.tag.toNat 16 (acc + s.ps.toNat) ∧ sameOutside s.mem m s.regs.tag.toNat 16)

/-- R216: P.INIT with the key at KEYA, P.UPDATE with the message (SRC, LEN) and P.FINAL write the tag of the closed form. -/
def Obligations.MacSequenceIsPolyOneShot : Prop :=
  ∀ s : State, s.regs.keya.toNat + 32 ≤ s.params.dmemSize → s.regs.src.toNat + s.regs.len.toNat ≤ s.params.dmemSize →
    s.regs.tag.toNat + 16 ≤ s.params.dmemSize →
    ∃ t, runAll [.pInit, .pUpdate, .pFinal] s = .next t ∧ t.err = .none ∧ t.pst = .finished ∧
      (let key := s.mem.readBytes s.regs.keya.toNat 32; let msg := s.mem.readBytes s.regs.src.toNat s.regs.len.toNat
       t.mem.readBytes s.regs.tag.toNat 16 = poly1305 key msg ∧
       holdsLE t.mem s.regs.tag.toNat 16
         (polyAcc (strLE (key.take 16) &&& 0x0ffffffc0ffffffc0ffffffc0fffffff) msg + strLE (key.drop 16)))

/-- R217 and U3 (log entry 6): a MAC command issued while PST = Finished completes; either it raises POLY_NOT_ACTIVE and changes
nothing, or it may change PACC, PBUF, PS, PST and the bytes of the TAG range, and nothing else (the counter of free values apart). -/
def Obligations.MacMisuseStaysInItsBounds : Prop :=
  ∀ (s : State) (i : Instr), guardedByMac i → s.pst = .finished →
    ∃ t, exec i s = .next t ∧ t.busy = false ∧ t.done = true ∧
      (t = { doneInvalid s .polyNotActive with freeCount := t.freeCount } ∨
       (t = doneOk { s with
          pacc := t.pacc, pbuf := t.pbuf, ps := t.ps, pst := t.pst, mem := t.mem, freeCount := t.freeCount } ∧
        sameOutside s.mem t.mem s.regs.tag.toNat 16))

/-- R219: the P commands neither read nor write W, K, KLEN, KV, KS, DRV; LDKEY, SETIV, SETCTR, RESET, KSGEN and UPDATE neither read nor
write the Poly1305 state; ZEROIZE clears both; the AEAD commands neither read nor write the MAC state, W, KS or DRV. -/
def Obligations.MacAndStreamShareNoState : Prop :=
  ∀ (i : Instr) (s o t : State), exec i s = .next t →
    (isMac i → withStream s t = t ∧ exec i (withStream o s) = .next (withStream o t)) ∧
    (isStream i → withMac s t = t ∧ exec i (withMac o s) = .next (withMac o t)) ∧
    (i = .zeroize → withStream State.reset t = t ∧ withMac State.reset t = t) ∧
    (isAead i → withMac s t = t ∧ withDriver s t = t ∧
      exec i (withMac o (withDriver o s)) = .next (withMac o (withDriver o t)))

/-! ### The AEAD engine (44_aead.md) -/

/-- R248: on success and on every error AEAD.ENC and AEAD.DEC keep W, KS, DRV, K, KLEN, KV, the MAC state, CFG and the operand registers:
they change only DMEM, in the DST and TAG ranges (AEAD.DEC in the DST range), and STATUS and ERR_INFO. R241: CFG.ROUNDS and CFG.K16
change nothing they do: their round count is always 20. -/
def Obligations.AeadKeepsAllButItsOutputs : Prop :=
  ∀ (s t : State) (i : Instr), isAead i → exec i s = .next t →
    t = { s with mem := t.mem, busy := false, done := true, err := t.err, errInfo := t.errInfo } ∧
    (∀ c, ¬(s.regs.dst.toNat ≤ c ∧ c < s.regs.dst.toNat + s.regs.len.toNat) →
      ¬(i = .aeadEnc ∧ s.regs.tag.toNat ≤ c ∧ c < s.regs.tag.toNat + 16) → t.mem.read c = s.mem.read c) ∧
    ∀ (r : BitVec 8) (b : Bool),
      exec i { s with cfg := { s.cfg with rounds := r, k16 := b } } =
        .next { t with cfg := { t.cfg with rounds := r, k16 := b } }

/-- R241, R243, R245 and R249 (b) with XN = 0: AEAD.ENC completes, and its ciphertext is the output of the stream: SETIV with ALG = 0 and
ROUNDS = 20, SETCTR to 1, UPDATE with the same operands. -/
def Obligations.AeadCiphertextIsTheStream : Prop :=
  ∀ s : State, passes .aeadEnc s → s.cfg.xn = false →
    ∃ t u, exec .aeadEnc s = .next t ∧ t.err = .none ∧
      runAll [.setiv, .setctr, .update] { s with
        cfg := { s.cfg with rounds := 20#8 }, regs := { s.regs with ctrlo := 1#32 } } = .next u ∧ u.err = .none ∧
      ∀ i < s.regs.len.toNat, t.mem.read (s.regs.dst.toNat + i) = u.mem.read (s.regs.dst.toNat + i)

/-- R242, R244, R245 with XN = 0: the tag AEAD.ENC writes is the one-shot MAC (`MacSequenceIsPolyOneShot`) of the padded associated data
and ciphertext and their lengths, under the first 32 bytes of the keystream block at counter 0. -/
def Obligations.AeadTagIsTheMac : Prop :=
  ∀ s : State, passes .aeadEnc s → s.cfg.xn = false →
    ∃ t u, exec .aeadEnc s = .next t ∧ t.err = .none ∧
      runAll [.setiv, .ksgen1] { s with cfg := { s.cfg with rounds := 20#8 } } = .next u ∧ u.err = .none ∧
      (let a := s.mem.readBytes s.regs.aad.toNat s.regs.aadlen.toNat
       let c := t.mem.readBytes s.regs.dst.toNat s.regs.len.toNat
       let zeros := fun n : Nat => List.replicate ((16 - n % 16) % 16) (0#8)
       t.mem.readBytes s.regs.tag.toNat 16 =
         poly1305 (u.ks.take 32)
           (a ++ zeros a.length ++ c ++ zeros c.length ++ toLE a.length 8 ++ toLE c.length 8))

/-- R249 (c): AEAD.ENC with XN = 1 completes, and is AEAD.ENC with XN = 0 under the subkey HNONCE derives with 20 rounds and the child
nonce 00000000 ‖ n2, when that nonce stands at `a`. HNONCE may write the subkey to any `d` that is fit for it. -/
def Obligations.AeadExtendedNonce : Prop :=
  ∀ (s : State) (a d : Word), s.cfg.xn = true → passes .aeadEnc s → subkeyFits s d →
    ∃ t h, exec .aeadEnc s = .next t ∧ t.err = .none ∧
      exec .hnonce (withDst d { s with cfg := { s.cfg with rounds := 20#8 } }) = .next h ∧ h.err = .none ∧
      ((∀ i < 4, s.mem.read (a.toNat + i) = 0) →
       (∀ i < 8, s.mem.read (a.toNat + 4 + i) = s.mem.read (s.regs.noncea.toNat + 16 + i)) →
       ∀ (v : State) (k : KeyWords), (∀ i : Fin 8, k[i] = memWord h.mem (d.toNat + 4 * i.val)) →
        v = { s with k := k, cfg := { s.cfg with xn := false }, regs := { s.regs with noncea := a } } → passes .aeadEnc v →
        ∃ u, exec .aeadEnc v = .next u ∧ u.err = .none ∧ ∀ c, u.mem.read c = t.mem.read c)

/-- R249 (a): AEAD.DEC of what AEAD.ENC wrote, under the same K, nonce and associated data, completes with ERR = 0 and writes the
original plaintext, wherever its output may go. -/
def Obligations.AeadDecryptsWhatItEncrypted : Prop :=
  ∀ (s t : State) (d : Word), passes .aeadEnc s → exec .aeadEnc s = .next t →
    passes .aeadDec { t with regs := { t.regs with src := t.regs.dst, dst := d } } →
    ∃ u, exec .aeadDec { t with regs := { t.regs with src := t.regs.dst, dst := d } } = .next u ∧ u.err = .none ∧
      ∀ i < s.regs.len.toNat, u.mem.read (d.toNat + i) = s.mem.read (s.regs.src.toNat + i)

/-- R246, R247, R273: AEAD.DEC compares the 16 bytes at TAG with the tag of its input. If they are equal it completes and writes the
plaintext to DST; if any byte differs it ends with AuthenticationFailure and no byte of DMEM and no other state changes. -/
def Obligations.AeadDecVerifiesBeforeItWrites : Prop :=
  (∀ x y : List Byte, x.length = 16 → y.length = 16 → (ctEqual x y = true ↔ x = y)) ∧
  ∀ s : State, passes .aeadDec s →
    (let tag := s.aeadContext.tag (s.mem.readBytes s.regs.aad.toNat s.regs.aadlen.toNat)
       (s.mem.readBytes s.regs.src.toNat s.regs.len.toNat)
     (s.mem.readBytes s.regs.tag.toNat 16 = tag →
       ∃ m, exec .aeadDec s = .next (doneOk { s with mem := m }) ∧
         m.readBytes s.regs.dst.toNat s.regs.len.toNat =
           s.aeadContext.xor (s.mem.readBytes s.regs.src.toNat s.regs.len.toNat) ∧
         sameOutside s.mem m s.regs.dst.toNat s.regs.len.toNat) ∧
     (s.mem.readBytes s.regs.tag.toNat 16 ≠ tag →
       exec .aeadDec s = .next { s with busy := false, done := true, err := .authenticationFailure, errInfo := none }))
end

