-- ==== Sys2Proof/Laws/Memory.lean ====
section
/-! SUPPORT. DMEM: read after write, what a write leaves alone, and that every operation keeps the canonical form. -/

namespace Sys2Proof.Machine

theorem lookupCell_insertCell (a b : Nat) (v : Byte) (cs : List Host.Cell) :
    lookupCell b (insertCell a v cs) = if b = a then some v else lookupCell b cs := by
  induction cs with
  | nil => simp only [insertCell, lookupCell, @eq_comm _ a b]
  | cons c cs ih =>
    obtain ⟨k, x⟩ := c
    simp only [insertCell]
    split
    · simp only [lookupCell, @eq_comm _ a b]
    · split
      · rename_i h; subst h; simp only [lookupCell, @eq_comm _ a b]; split <;> rfl
      · rename_i h1 h2
        by_cases h : k = b
        · have : b ≠ a := by omega
          simp [lookupCell, h, this]
        · simp [lookupCell, h, ih]

theorem mem_insertCell {a : Nat} {v : Byte} {cs : List Host.Cell} {c : Host.Cell} (h : c ∈ insertCell a v cs) :
    c.1 = a ∨ c ∈ cs := by
  induction cs with
  | nil => simp only [insertCell, List.mem_singleton] at h; exact .inl (by rw [h])
  | cons d cs ih =>
    obtain ⟨k, x⟩ := d
    simp only [insertCell] at h
    split at h
    · rcases List.mem_cons.1 h with h | h
      · exact .inl (by rw [h])
      · exact .inr h
    · split at h
      · rcases List.mem_cons.1 h with h | h
        · exact .inl (by rw [h])
        · exact .inr (List.mem_cons_of_mem _ h)
      · rcases List.mem_cons.1 h with h | h
        · exact .inr (by rw [h]; exact List.mem_cons_self)
        · exact (ih h).imp id (List.mem_cons_of_mem _)

theorem insertCell_sorted {a : Nat} {v : Byte} {cs : List Host.Cell} (h : cs.Pairwise fun x y => x.1 < y.1) :
    (insertCell a v cs).Pairwise fun x y => x.1 < y.1 := by
  induction cs with
  | nil => simp [insertCell]
  | cons d cs ih =>
    obtain ⟨k, x⟩ := d
    obtain ⟨hk, hcs⟩ := List.pairwise_cons.1 h
    simp only [insertCell]
    split
    · rename_i hak
      refine List.pairwise_cons.2 ⟨fun c hc => ?_, h⟩
      rcases List.mem_cons.1 hc with rfl | hc
      · exact hak
      · exact hak.trans (hk c hc)
    · split
      · rename_i hak; subst hak; exact List.pairwise_cons.2 ⟨hk, hcs⟩
      · refine List.pairwise_cons.2 ⟨fun c hc => ?_, ih hcs⟩
        rcases mem_insertCell hc with h | h
        · show k < c.1; omega
        · exact hk c h

namespace Memory

@[simp] theorem write_epoch (m : Memory) (a : Nat) (b : Byte) : (m.write a b).epoch = m.epoch := rfl

theorem read_write (m : Memory) (a c : Nat) (b : Byte) : (m.write a b).read c = if c = a then b else m.read c := by
  simp only [read, write, lookupCell_insertCell, unlisted]
  split <;> rfl

theorem write_wf {m : Memory} (h : m.wf) (a : Nat) (b : Byte) : (m.write a b).wf := insertCell_sorted h

theorem write_within {m : Memory} {size : Nat} (h : m.within size) {a : Nat} (ha : a < size) (b : Byte) :
    (m.write a b).within size := fun c hc => by
  rcases mem_insertCell hc with h' | h'
  · omega
  · exact h c h'

@[simp] theorem writeBytes_nil (m : Memory) (a : Nat) : m.writeBytes a [] = m := rfl

theorem writeBytes_cons (m : Memory) (a : Nat) (b : Byte) (bs : List Byte) :
    m.writeBytes a (b :: bs) = (m.write a b).writeBytes (a + 1) bs := rfl

theorem writeBytes_append (m : Memory) (a : Nat) (xs ys : List Byte) :
    m.writeBytes a (xs ++ ys) = (m.writeBytes a xs).writeBytes (a + xs.length) ys := by
  induction xs generalizing m a with
  | nil => simp
  | cons x xs ih => simp [writeBytes_cons, ih, Nat.add_assoc, Nat.add_comm 1]

@[simp] theorem writeBytes_epoch (m : Memory) (a : Nat) (bs : List Byte) : (m.writeBytes a bs).epoch = m.epoch := by
  induction bs generalizing m a with
  | nil => rfl
  | cons b bs ih => rw [writeBytes_cons, ih, write_epoch]

/-- A write stores its bytes from its address on and leaves every other byte alone (R63). -/
theorem read_writeBytes (m : Memory) (a c : Nat) (bs : List Byte) :
    (m.writeBytes a bs).read c = if a ≤ c ∧ c < a + bs.length then bs.getD (c - a) 0 else m.read c := by
  induction bs generalizing m a with
  | nil => rw [writeBytes_nil, if_neg (by simp)]
  | cons b bs ih =>
    rw [writeBytes_cons, ih, read_write]
    simp only [List.length_cons]
    by_cases h1 : c = a
    · subst h1; simp
    · by_cases h2 : a + 1 ≤ c ∧ c < a + 1 + bs.length
      · obtain ⟨k, hk⟩ : ∃ k, c - a = k + 1 := ⟨c - a - 1, by omega⟩
        have : c - (a + 1) = k := by omega
        simp [h2, show a ≤ c ∧ c < a + (bs.length + 1) by omega, hk, this]
      · rw [if_neg h2, if_neg h1, if_neg (by omega)]

theorem writeBytes_wf {m : Memory} (h : m.wf) (a : Nat) (bs : List Byte) : (m.writeBytes a bs).wf := by
  induction bs generalizing m a with
  | nil => exact h
  | cons b bs ih => exact ih (write_wf h a b) (a + 1)

theorem writeBytes_within {m : Memory} {size : Nat} (h : m.within size) {a : Nat} {bs : List Byte}
    (ha : a + bs.length ≤ size) : (m.writeBytes a bs).within size := by
  induction bs generalizing m a with
  | nil => exact h
  | cons b bs ih =>
    simp only [List.length_cons] at ha
    exact ih (write_within h (by omega) b) (by omega)

@[simp] theorem length_readBytes (m : Memory) (a n : Nat) : (m.readBytes a n).length = n := by simp [readBytes]

@[simp] theorem getElem_readBytes (m : Memory) (a n i : Nat) (h : i < (m.readBytes a n).length) :
    (m.readBytes a n)[i] = m.read (a + i) := by simp [readBytes]

theorem readBytes_congr {m m' : Memory} {a a' n : Nat} (h : ∀ i < n, m.read (a + i) = m'.read (a' + i)) :
    m.readBytes a n = m'.readBytes a' n := by
  refine List.ext_getElem (by simp) fun i h1 _ => ?_
  simp only [getElem_readBytes]
  exact h i (by simpa using h1)

/-- Reading back the range a string was written to gives the string. -/
theorem readBytes_writeBytes_self (m : Memory) (a : Nat) (bs : List Byte) :
    (m.writeBytes a bs).readBytes a bs.length = bs := by
  refine List.ext_getElem (by simp) fun i _ h2 => ?_
  simp [read_writeBytes, h2, List.getD_eq_getElem?_getD]

/-- A write leaves a disjoint range alone. -/
theorem readBytes_writeBytes_disjoint (m : Memory) {a b n : Nat} {bs : List Byte}
    (h : n = 0 ∨ bs.length = 0 ∨ b + n ≤ a ∨ a + bs.length ≤ b) :
    (m.writeBytes a bs).readBytes b n = m.readBytes b n :=
  readBytes_congr fun i hi => by rw [read_writeBytes, if_neg (by omega)]

theorem readBytes_add (m : Memory) (a n k : Nat) :
    m.readBytes a (n + k) = m.readBytes a n ++ m.readBytes (a + n) k := by
  simp [readBytes, List.range_add, Nat.add_assoc]

end Memory

theorem State.memWrite_wf {s : State} (h : s.mem.wf) (a : Word) (bs : List Byte) : (s.memWrite a bs).mem.wf :=
  Memory.writeBytes_wf h a.toNat bs

theorem State.memWrite_within {s : State} {size : Nat} (h : s.mem.within size) {a : Word} {bs : List Byte}
    (ha : a.toNat + bs.length ≤ size) : (s.memWrite a bs).mem.within size := Memory.writeBytes_within h ha

/-- The memory of `State.reset` is in canonical form: it lists nothing. -/
theorem State.reset_mem_wf : State.reset.mem.wf := List.Pairwise.nil

@[simp] theorem State.length_memRead (s : State) (a : Word) (n : Nat) : (s.memRead a n).length = n := by
  simp [State.memRead]

end Sys2Proof.Machine
end

