-- ==== Sys2Proof/Laws/State.lean ====
section
/-! SUPPORT. One lemma for each field and each shared update of the state, true by rfl: what the update leaves in the field. -/

namespace Sys2Proof.Machine

/-! ### `State.complete` -/

@[simp] theorem State.complete_params (s : State) (r : Result) : (s.complete r).params = s.params := rfl
@[simp] theorem State.complete_rst (s : State) (r : Result) : (s.complete r).rst = s.rst := rfl
@[simp] theorem State.complete_ie (s : State) (r : Result) : (s.complete r).ie = s.ie := rfl
@[simp] theorem State.complete_busy (s : State) (r : Result) : (s.complete r).busy = false := rfl
@[simp] theorem State.complete_done (s : State) (r : Result) : (s.complete r).done = true := rfl
@[simp] theorem State.complete_ovr (s : State) (r : Result) : (s.complete r).ovr = s.ovr := rfl
@[simp] theorem State.complete_err (s : State) (r : Result) : (s.complete r).err = r.err := rfl
@[simp] theorem State.complete_errInfo (s : State) (r : Result) : (s.complete r).errInfo = r.info := rfl
@[simp] theorem State.complete_cfg (s : State) (r : Result) : (s.complete r).cfg = s.cfg := rfl
@[simp] theorem State.complete_regs (s : State) (r : Result) : (s.complete r).regs = s.regs := rfl
@[simp] theorem State.complete_cmdl (s : State) (r : Result) : (s.complete r).cmdl = s.cmdl := rfl
@[simp] theorem State.complete_w (s : State) (r : Result) : (s.complete r).w = s.w := rfl
@[simp] theorem State.complete_k (s : State) (r : Result) : (s.complete r).k = s.k := rfl
@[simp] theorem State.complete_klen (s : State) (r : Result) : (s.complete r).klen = s.klen := rfl
@[simp] theorem State.complete_kv (s : State) (r : Result) : (s.complete r).kv = s.kv := rfl
@[simp] theorem State.complete_ks (s : State) (r : Result) : (s.complete r).ks = s.ks := rfl
@[simp] theorem State.complete_drv (s : State) (r : Result) : (s.complete r).drv = s.drv := rfl
@[simp] theorem State.complete_pr (s : State) (r : Result) : (s.complete r).pr = s.pr := rfl
@[simp] theorem State.complete_ps (s : State) (r : Result) : (s.complete r).ps = s.ps := rfl
@[simp] theorem State.complete_pacc (s : State) (r : Result) : (s.complete r).pacc = s.pacc := rfl
@[simp] theorem State.complete_pbuf (s : State) (r : Result) : (s.complete r).pbuf = s.pbuf := rfl
@[simp] theorem State.complete_pst (s : State) (r : Result) : (s.complete r).pst = s.pst := rfl
@[simp] theorem State.complete_mem (s : State) (r : Result) : (s.complete r).mem = s.mem := rfl
@[simp] theorem State.complete_inputs (s : State) (r : Result) : (s.complete r).inputs = s.inputs := rfl
@[simp] theorem State.complete_port (s : State) (r : Result) : (s.complete r).port = s.port := rfl
@[simp] theorem State.complete_freeCount (s : State) (r : Result) : (s.complete r).freeCount = s.freeCount := rfl

/-! ### `State.issue` -/

@[simp] theorem State.issue_params (s : State) (v : Word) : (s.issue v).params = s.params := rfl
@[simp] theorem State.issue_rst (s : State) (v : Word) : (s.issue v).rst = s.rst := rfl
@[simp] theorem State.issue_ie (s : State) (v : Word) : (s.issue v).ie = s.ie := rfl
@[simp] theorem State.issue_busy (s : State) (v : Word) : (s.issue v).busy = true := rfl
@[simp] theorem State.issue_done (s : State) (v : Word) : (s.issue v).done = false := rfl
@[simp] theorem State.issue_ovr (s : State) (v : Word) : (s.issue v).ovr = s.ovr := rfl
@[simp] theorem State.issue_err (s : State) (v : Word) : (s.issue v).err = .none := rfl
@[simp] theorem State.issue_errInfo (s : State) (v : Word) : (s.issue v).errInfo = none := rfl
@[simp] theorem State.issue_cfg (s : State) (v : Word) : (s.issue v).cfg = s.cfg := rfl
@[simp] theorem State.issue_regs (s : State) (v : Word) : (s.issue v).regs = s.regs := rfl
@[simp] theorem State.issue_cmdl (s : State) (v : Word) : (s.issue v).cmdl = v := rfl
@[simp] theorem State.issue_w (s : State) (v : Word) : (s.issue v).w = s.w := rfl
@[simp] theorem State.issue_k (s : State) (v : Word) : (s.issue v).k = s.k := rfl
@[simp] theorem State.issue_klen (s : State) (v : Word) : (s.issue v).klen = s.klen := rfl
@[simp] theorem State.issue_kv (s : State) (v : Word) : (s.issue v).kv = s.kv := rfl
@[simp] theorem State.issue_ks (s : State) (v : Word) : (s.issue v).ks = s.ks := rfl
@[simp] theorem State.issue_drv (s : State) (v : Word) : (s.issue v).drv = s.drv := rfl
@[simp] theorem State.issue_pr (s : State) (v : Word) : (s.issue v).pr = s.pr := rfl
@[simp] theorem State.issue_ps (s : State) (v : Word) : (s.issue v).ps = s.ps := rfl
@[simp] theorem State.issue_pacc (s : State) (v : Word) : (s.issue v).pacc = s.pacc := rfl
@[simp] theorem State.issue_pbuf (s : State) (v : Word) : (s.issue v).pbuf = s.pbuf := rfl
@[simp] theorem State.issue_pst (s : State) (v : Word) : (s.issue v).pst = s.pst := rfl
@[simp] theorem State.issue_mem (s : State) (v : Word) : (s.issue v).mem = s.mem := rfl
@[simp] theorem State.issue_inputs (s : State) (v : Word) : (s.issue v).inputs = s.inputs := rfl
@[simp] theorem State.issue_port (s : State) (v : Word) : (s.issue v).port = s.port := rfl
@[simp] theorem State.issue_freeCount (s : State) (v : Word) : (s.issue v).freeCount = s.freeCount := rfl

/-! ### `State.memWrite` -/

@[simp] theorem State.memWrite_params (s : State) (a : Word) (bs : List Byte) : (s.memWrite a bs).params = s.params := rfl
@[simp] theorem State.memWrite_rst (s : State) (a : Word) (bs : List Byte) : (s.memWrite a bs).rst = s.rst := rfl
@[simp] theorem State.memWrite_ie (s : State) (a : Word) (bs : List Byte) : (s.memWrite a bs).ie = s.ie := rfl
@[simp] theorem State.memWrite_busy (s : State) (a : Word) (bs : List Byte) : (s.memWrite a bs).busy = s.busy := rfl
@[simp] theorem State.memWrite_done (s : State) (a : Word) (bs : List Byte) : (s.memWrite a bs).done = s.done := rfl
@[simp] theorem State.memWrite_ovr (s : State) (a : Word) (bs : List Byte) : (s.memWrite a bs).ovr = s.ovr := rfl
@[simp] theorem State.memWrite_err (s : State) (a : Word) (bs : List Byte) : (s.memWrite a bs).err = s.err := rfl
@[simp] theorem State.memWrite_errInfo (s : State) (a : Word) (bs : List Byte) : (s.memWrite a bs).errInfo = s.errInfo := rfl
@[simp] theorem State.memWrite_cfg (s : State) (a : Word) (bs : List Byte) : (s.memWrite a bs).cfg = s.cfg := rfl
@[simp] theorem State.memWrite_regs (s : State) (a : Word) (bs : List Byte) : (s.memWrite a bs).regs = s.regs := rfl
@[simp] theorem State.memWrite_cmdl (s : State) (a : Word) (bs : List Byte) : (s.memWrite a bs).cmdl = s.cmdl := rfl
@[simp] theorem State.memWrite_w (s : State) (a : Word) (bs : List Byte) : (s.memWrite a bs).w = s.w := rfl
@[simp] theorem State.memWrite_k (s : State) (a : Word) (bs : List Byte) : (s.memWrite a bs).k = s.k := rfl
@[simp] theorem State.memWrite_klen (s : State) (a : Word) (bs : List Byte) : (s.memWrite a bs).klen = s.klen := rfl
@[simp] theorem State.memWrite_kv (s : State) (a : Word) (bs : List Byte) : (s.memWrite a bs).kv = s.kv := rfl
@[simp] theorem State.memWrite_ks (s : State) (a : Word) (bs : List Byte) : (s.memWrite a bs).ks = s.ks := rfl
@[simp] theorem State.memWrite_drv (s : State) (a : Word) (bs : List Byte) : (s.memWrite a bs).drv = s.drv := rfl
@[simp] theorem State.memWrite_pr (s : State) (a : Word) (bs : List Byte) : (s.memWrite a bs).pr = s.pr := rfl
@[simp] theorem State.memWrite_ps (s : State) (a : Word) (bs : List Byte) : (s.memWrite a bs).ps = s.ps := rfl
@[simp] theorem State.memWrite_pacc (s : State) (a : Word) (bs : List Byte) : (s.memWrite a bs).pacc = s.pacc := rfl
@[simp] theorem State.memWrite_pbuf (s : State) (a : Word) (bs : List Byte) : (s.memWrite a bs).pbuf = s.pbuf := rfl
@[simp] theorem State.memWrite_pst (s : State) (a : Word) (bs : List Byte) : (s.memWrite a bs).pst = s.pst := rfl
@[simp] theorem State.memWrite_mem (s : State) (a : Word) (bs : List Byte) : (s.memWrite a bs).mem = s.mem.writeBytes a.toNat bs := rfl
@[simp] theorem State.memWrite_inputs (s : State) (a : Word) (bs : List Byte) : (s.memWrite a bs).inputs = s.inputs := rfl
@[simp] theorem State.memWrite_port (s : State) (a : Word) (bs : List Byte) : (s.memWrite a bs).port = s.port := rfl
@[simp] theorem State.memWrite_freeCount (s : State) (a : Word) (bs : List Byte) : (s.memWrite a bs).freeCount = s.freeCount := rfl

/-! ### `State.writeCtrl` -/

@[simp] theorem State.writeCtrl_params (s : State) (v : Word) : (s.writeCtrl v).params = s.params := rfl
@[simp] theorem State.writeCtrl_rst (s : State) (v : Word) : (s.writeCtrl v).rst = s.rst := rfl
@[simp] theorem State.writeCtrl_ie (s : State) (v : Word) : (s.writeCtrl v).ie = v.getLsbD 0 := rfl
@[simp] theorem State.writeCtrl_busy (s : State) (v : Word) : (s.writeCtrl v).busy = s.busy := rfl
@[simp] theorem State.writeCtrl_done (s : State) (v : Word) : (s.writeCtrl v).done = s.done := rfl
@[simp] theorem State.writeCtrl_ovr (s : State) (v : Word) : (s.writeCtrl v).ovr = s.ovr := rfl
@[simp] theorem State.writeCtrl_err (s : State) (v : Word) : (s.writeCtrl v).err = s.err := rfl
@[simp] theorem State.writeCtrl_errInfo (s : State) (v : Word) : (s.writeCtrl v).errInfo = s.errInfo := rfl
@[simp] theorem State.writeCtrl_cfg (s : State) (v : Word) : (s.writeCtrl v).cfg = s.cfg := rfl
@[simp] theorem State.writeCtrl_regs (s : State) (v : Word) : (s.writeCtrl v).regs = s.regs := rfl
@[simp] theorem State.writeCtrl_cmdl (s : State) (v : Word) : (s.writeCtrl v).cmdl = s.cmdl := rfl
@[simp] theorem State.writeCtrl_w (s : State) (v : Word) : (s.writeCtrl v).w = s.w := rfl
@[simp] theorem State.writeCtrl_k (s : State) (v : Word) : (s.writeCtrl v).k = s.k := rfl
@[simp] theorem State.writeCtrl_klen (s : State) (v : Word) : (s.writeCtrl v).klen = s.klen := rfl
@[simp] theorem State.writeCtrl_kv (s : State) (v : Word) : (s.writeCtrl v).kv = s.kv := rfl
@[simp] theorem State.writeCtrl_ks (s : State) (v : Word) : (s.writeCtrl v).ks = s.ks := rfl
@[simp] theorem State.writeCtrl_drv (s : State) (v : Word) : (s.writeCtrl v).drv = s.drv := rfl
@[simp] theorem State.writeCtrl_pr (s : State) (v : Word) : (s.writeCtrl v).pr = s.pr := rfl
@[simp] theorem State.writeCtrl_ps (s : State) (v : Word) : (s.writeCtrl v).ps = s.ps := rfl
@[simp] theorem State.writeCtrl_pacc (s : State) (v : Word) : (s.writeCtrl v).pacc = s.pacc := rfl
@[simp] theorem State.writeCtrl_pbuf (s : State) (v : Word) : (s.writeCtrl v).pbuf = s.pbuf := rfl
@[simp] theorem State.writeCtrl_pst (s : State) (v : Word) : (s.writeCtrl v).pst = s.pst := rfl
@[simp] theorem State.writeCtrl_mem (s : State) (v : Word) : (s.writeCtrl v).mem = s.mem := rfl
@[simp] theorem State.writeCtrl_inputs (s : State) (v : Word) : (s.writeCtrl v).inputs = s.inputs := rfl
@[simp] theorem State.writeCtrl_port (s : State) (v : Word) : (s.writeCtrl v).port = s.port := rfl
@[simp] theorem State.writeCtrl_freeCount (s : State) (v : Word) : (s.writeCtrl v).freeCount = s.freeCount := rfl

/-! ### `State.writeStatus` -/

@[simp] theorem State.writeStatus_params (s : State) (v : Word) : (s.writeStatus v).params = s.params := rfl
@[simp] theorem State.writeStatus_rst (s : State) (v : Word) : (s.writeStatus v).rst = s.rst := rfl
@[simp] theorem State.writeStatus_ie (s : State) (v : Word) : (s.writeStatus v).ie = s.ie := rfl
@[simp] theorem State.writeStatus_busy (s : State) (v : Word) : (s.writeStatus v).busy = s.busy := rfl
@[simp] theorem State.writeStatus_done (s : State) (v : Word) : (s.writeStatus v).done = (s.done && !v.getLsbD 1) := rfl
@[simp] theorem State.writeStatus_ovr (s : State) (v : Word) : (s.writeStatus v).ovr = (s.ovr && !v.getLsbD 2) := rfl
@[simp] theorem State.writeStatus_err (s : State) (v : Word) : (s.writeStatus v).err = s.err := rfl
@[simp] theorem State.writeStatus_errInfo (s : State) (v : Word) : (s.writeStatus v).errInfo = s.errInfo := rfl
@[simp] theorem State.writeStatus_cfg (s : State) (v : Word) : (s.writeStatus v).cfg = s.cfg := rfl
@[simp] theorem State.writeStatus_regs (s : State) (v : Word) : (s.writeStatus v).regs = s.regs := rfl
@[simp] theorem State.writeStatus_cmdl (s : State) (v : Word) : (s.writeStatus v).cmdl = s.cmdl := rfl
@[simp] theorem State.writeStatus_w (s : State) (v : Word) : (s.writeStatus v).w = s.w := rfl
@[simp] theorem State.writeStatus_k (s : State) (v : Word) : (s.writeStatus v).k = s.k := rfl
@[simp] theorem State.writeStatus_klen (s : State) (v : Word) : (s.writeStatus v).klen = s.klen := rfl
@[simp] theorem State.writeStatus_kv (s : State) (v : Word) : (s.writeStatus v).kv = s.kv := rfl
@[simp] theorem State.writeStatus_ks (s : State) (v : Word) : (s.writeStatus v).ks = s.ks := rfl
@[simp] theorem State.writeStatus_drv (s : State) (v : Word) : (s.writeStatus v).drv = s.drv := rfl
@[simp] theorem State.writeStatus_pr (s : State) (v : Word) : (s.writeStatus v).pr = s.pr := rfl
@[simp] theorem State.writeStatus_ps (s : State) (v : Word) : (s.writeStatus v).ps = s.ps := rfl
@[simp] theorem State.writeStatus_pacc (s : State) (v : Word) : (s.writeStatus v).pacc = s.pacc := rfl
@[simp] theorem State.writeStatus_pbuf (s : State) (v : Word) : (s.writeStatus v).pbuf = s.pbuf := rfl
@[simp] theorem State.writeStatus_pst (s : State) (v : Word) : (s.writeStatus v).pst = s.pst := rfl
@[simp] theorem State.writeStatus_mem (s : State) (v : Word) : (s.writeStatus v).mem = s.mem := rfl
@[simp] theorem State.writeStatus_inputs (s : State) (v : Word) : (s.writeStatus v).inputs = s.inputs := rfl
@[simp] theorem State.writeStatus_port (s : State) (v : Word) : (s.writeStatus v).port = s.port := rfl
@[simp] theorem State.writeStatus_freeCount (s : State) (v : Word) : (s.writeStatus v).freeCount = s.freeCount := rfl

/-! ### `State.readOpen` -/

@[simp] theorem State.readOpen_params (s : State) (x : Width) : (s.readOpen x).params = s.params := rfl
@[simp] theorem State.readOpen_rst (s : State) (x : Width) : (s.readOpen x).rst = s.rst := rfl
@[simp] theorem State.readOpen_ie (s : State) (x : Width) : (s.readOpen x).ie = s.ie := rfl
@[simp] theorem State.readOpen_busy (s : State) (x : Width) : (s.readOpen x).busy = s.busy := rfl
@[simp] theorem State.readOpen_done (s : State) (x : Width) : (s.readOpen x).done = s.done := rfl
@[simp] theorem State.readOpen_ovr (s : State) (x : Width) : (s.readOpen x).ovr = s.ovr := rfl
@[simp] theorem State.readOpen_err (s : State) (x : Width) : (s.readOpen x).err = s.err := rfl
@[simp] theorem State.readOpen_errInfo (s : State) (x : Width) : (s.readOpen x).errInfo = s.errInfo := rfl
@[simp] theorem State.readOpen_cfg (s : State) (x : Width) : (s.readOpen x).cfg = s.cfg := rfl
@[simp] theorem State.readOpen_regs (s : State) (x : Width) : (s.readOpen x).regs = s.regs := rfl
@[simp] theorem State.readOpen_cmdl (s : State) (x : Width) : (s.readOpen x).cmdl = s.cmdl := rfl
@[simp] theorem State.readOpen_w (s : State) (x : Width) : (s.readOpen x).w = s.w := rfl
@[simp] theorem State.readOpen_k (s : State) (x : Width) : (s.readOpen x).k = s.k := rfl
@[simp] theorem State.readOpen_klen (s : State) (x : Width) : (s.readOpen x).klen = s.klen := rfl
@[simp] theorem State.readOpen_kv (s : State) (x : Width) : (s.readOpen x).kv = s.kv := rfl
@[simp] theorem State.readOpen_ks (s : State) (x : Width) : (s.readOpen x).ks = s.ks := rfl
@[simp] theorem State.readOpen_drv (s : State) (x : Width) : (s.readOpen x).drv = s.drv := rfl
@[simp] theorem State.readOpen_pr (s : State) (x : Width) : (s.readOpen x).pr = s.pr := rfl
@[simp] theorem State.readOpen_ps (s : State) (x : Width) : (s.readOpen x).ps = s.ps := rfl
@[simp] theorem State.readOpen_pacc (s : State) (x : Width) : (s.readOpen x).pacc = s.pacc := rfl
@[simp] theorem State.readOpen_pbuf (s : State) (x : Width) : (s.readOpen x).pbuf = s.pbuf := rfl
@[simp] theorem State.readOpen_pst (s : State) (x : Width) : (s.readOpen x).pst = s.pst := rfl
@[simp] theorem State.readOpen_mem (s : State) (x : Width) : (s.readOpen x).mem = s.mem := rfl
@[simp] theorem State.readOpen_inputs (s : State) (x : Width) : (s.readOpen x).inputs = s.inputs := rfl
@[simp] theorem State.readOpen_port (s : State) (x : Width) : (s.readOpen x).port = .data (x.narrow (Config.portData s.freeCount)) := rfl
@[simp] theorem State.readOpen_freeCount (s : State) (x : Width) : (s.readOpen x).freeCount = s.freeCount + 1 := rfl

end Sys2Proof.Machine
end

