-- ==== Sys2Proof/Laws/Ops.lean ====
section
/-! SUPPORT. The shared operations: what each can do, said once. `Ends s Q r` is the shape every command's outcome has: it raises
InvalidArgument on the state it started from, or leaves a next state of which `Q` holds. -/

theorem Sys2Proof.Params.dmemSize_le (p : Sys2Proof.Params) : p.dmemSize ≤ 65536 := by
  have h : p.dmemLog2 ≤ 16 := by have := p.dmemIdx.isLt; simp only [Sys2Proof.Params.dmemLog2]; omega
  exact (Nat.pow_le_pow_right (by omega) h : 2 ^ p.dmemLog2 ≤ 2 ^ 16)

namespace Sys2Proof.Machine

/-! ### Checks -/

@[simp] theorem firstFailure_nil : firstFailure [] = none := rfl

@[simp] theorem firstFailure_cons_eq_none (c : Check) (cs : List Check) :
    firstFailure (c :: cs) = none ↔ c.failed = false ∧ firstFailure cs = none := by
  cases h : c.failed <;> simp [firstFailure, h]

theorem firstFailure_eq_none {cs : List Check} : firstFailure cs = none ↔ ∀ c ∈ cs, c.failed = false := by
  induction cs with
  | nil => simp
  | cons c cs ih => simp [ih]

/-- No check fails: the command goes on. -/
theorem checked_pass {cs : List Check} (h : firstFailure cs = none) (s : State) (k : StepResult) :
    checked cs s k = k := by simp only [checked, h]

/-- The first failing check is the one that is raised (R275). -/
theorem checked_fail {cs : List Check} {c : SubCause} (h : firstFailure cs = some c) (s : State) (k : StepResult) :
    checked cs s k = raise c s := by simp only [checked, h]

theorem withAlg_some {s : State} {alg : Alg} (h : s.cfg.alg? = some alg) (k : Alg → StepResult) :
    withAlg s k = k alg := by simp only [withAlg, h]

theorem withAlg_none {s : State} (h : s.cfg.alg? = none) (k : Alg → StepResult) :
    withAlg s k = raise .algReserved s := by simp only [withAlg, h]

theorem withActiveMac_active {s : State} (h : s.pst = .active) (k : StepResult) : withActiveMac s k = k := by
  simp only [withActiveMac, h]

/-! ### The shape of an outcome -/

/-- The outcome is a next state: the start state with an InvalidArgument, or a state of which `Q` holds. -/
def Ends (s : State) (Q : State → Prop) (r : StepResult) : Prop :=
  ∃ t, r = .next t ∧ ((∃ c, t = s.complete (.invalidArgument c)) ∨ Q t)

theorem Ends.of_next {s t : State} {Q : State → Prop} (h : Q t) : Ends s Q (.next t) := ⟨t, rfl, .inr h⟩

theorem Ends.of_succeed {s e : State} {Q : State → Prop} (h : Q (e.complete .ok)) : Ends s Q (succeed e) :=
  ⟨_, rfl, .inr h⟩

theorem Ends.of_raise {s : State} {Q : State → Prop} (c : SubCause) : Ends s Q (raise c s) := ⟨_, rfl, .inl ⟨c, rfl⟩⟩

theorem Ends.of_checked {s : State} {Q : State → Prop} {cs : List Check} {k : StepResult}
    (h : firstFailure cs = none → Ends s Q k) : Ends s Q (checked cs s k) := by
  cases hf : firstFailure cs with
  | none => rw [checked_pass hf]; exact h hf
  | some c => rw [checked_fail hf]; exact .of_raise c

theorem Ends.of_withAlg {s : State} {Q : State → Prop} {k : Alg → StepResult}
    (h : ∀ alg, s.cfg.alg? = some alg → Ends s Q (k alg)) : Ends s Q (withAlg s k) := by
  cases ha : s.cfg.alg? with
  | none => rw [withAlg_none ha]; exact .of_raise _
  | some alg => rw [withAlg_some ha]; exact h alg ha

theorem Ends.of_withActiveMac {s : State} {Q : State → Prop} {k : StepResult}
    (hf : s.pst = .finished → Q (s.misused.complete (misuseResult s.freeCount)))
    (h : s.pst = .active → Ends s Q k) : Ends s Q (withActiveMac s k) := by
  cases hp : s.pst with
  | idle => simp only [withActiveMac, hp]; exact .of_raise _
  | active => simp only [withActiveMac, hp]; exact h hp
  | finished => simp only [withActiveMac, hp]; exact .of_next (hf hp)

theorem Ends.of_aeadChecked {s : State} {Q : State → Prop} {outs : List Range} {k : StepResult}
    (h : s.kv = true → s.cfg.alg? = some .ietf → s.klen = .k32 → s.inRange s.regs.src s.regs.len.toNat = true →
      s.inRange s.regs.dst s.regs.len.toNat = true → s.inRange s.regs.aad s.regs.aadlen.toNat = true →
      s.inRange s.regs.tag 16 = true → s.inRange s.regs.noncea s.aeadNonceLen = true →
      overlap outs s.aeadRanges = false → Ends s Q k) : Ends s Q (aeadChecked outs s k) := by
  refine .of_checked fun h1 => .of_withAlg fun alg ha => .of_checked fun h2 => ?_
  simp only [keyLoadedCheck, firstFailure_cons_eq_none, firstFailure_nil, and_true, Bool.not_eq_false',
    bne_eq_false_iff_eq] at h1 h2
  obtain ⟨rfl, hk, hs, hd, had, ht, hn, ho⟩ := h2
  exact h h1 ha hk hs hd had ht hn ho

/-! ### Ranges -/

@[simp] theorem State.inRange_iff (s : State) (a : Word) (n : Nat) :
    s.inRange a n = true ↔ a.toNat + n ≤ s.params.dmemSize := by simp [State.inRange]

/-! ### Words, bytes and integers -/

@[simp] theorem length_wordBytes (x : Word) : (wordBytes x).length = 4 := rfl

@[simp] theorem length_bytesLE (ws : List Word) : (bytesLE ws).length = 4 * ws.length := by
  induction ws with
  | nil => rfl
  | cons w ws ih => simp only [bytesLE, List.flatMap_cons, List.length_append] at *; simp [ih]; omega

theorem le32_wordBytes (x : Word) :
    le32 (x.extractLsb' 0 8) (x.extractLsb' 8 8) (x.extractLsb' 16 8) (x.extractLsb' 24 8) = x := by
  apply BitVec.eq_of_getLsbD_eq
  intro i hi
  simp only [le32, BitVec.getLsbD_append, BitVec.getLsbD_extractLsb']
  rcases (by omega : i < 8 ∨ (8 ≤ i ∧ i < 16) ∨ (16 ≤ i ∧ i < 24) ∨ (24 ≤ i ∧ i < 32)) with h | h | h | h
  · simp [h]
  · simp [show ¬ i < 8 by omega, show i - 8 < 8 by omega]; congr 1; omega
  · simp [show ¬ i < 8 by omega, show ¬ i - 8 < 8 by omega, show i - 8 - 8 < 8 by omega]; congr 1; omega
  · simp [show ¬ i < 8 by omega, show ¬ i - 8 < 8 by omega, show ¬ i - 8 - 8 < 8 by omega,
      show i - 8 - 8 - 8 < 8 by omega]; congr 1; omega

/-- Serialising words and reading them back gives the words (R13). -/
@[simp] theorem leWords_bytesLE (ws : List Word) : leWords (bytesLE ws) = ws := by
  induction ws with
  | nil => rfl
  | cons w ws ih =>
    show le32 _ _ _ _ :: leWords (bytesLE ws) = w :: ws
    rw [ih, le32_wordBytes]

@[simp] theorem length_toLE (v n : Nat) : (toLE v n).length = n := by
  induction n generalizing v with
  | zero => rfl
  | succ n ih => simp [toLE, ih]

theorem leInt_append (xs ys : List Byte) : leInt (xs ++ ys) = leInt xs + 2 ^ (8 * xs.length) * leInt ys := by
  induction xs with
  | nil => simp [leInt]
  | cons x xs ih =>
    simp only [List.cons_append, leInt, ih, List.length_cons, Nat.mul_add, Nat.pow_add]
    ring

theorem leInt_lt (xs : List Byte) : leInt xs < 2 ^ (8 * xs.length) := by
  induction xs with
  | nil => simp [leInt]
  | cons x xs ih =>
    have := x.isLt
    simp only [leInt, List.length_cons, Nat.mul_add, Nat.pow_add]
    omega

/-- `LEint` of `toLE(v, n)` is v mod 2^(8n) (R13). -/
theorem leInt_toLE (v n : Nat) : leInt (toLE v n) = v % 2 ^ (8 * n) := by
  induction n generalizing v with
  | zero => simp [leInt, toLE, Nat.mod_one]
  | succ n ih =>
    simp only [toLE, leInt, ih, BitVec.toNat_ofNat, Nat.mul_add, Nat.pow_add]
    rw [show 2 ^ (8 * n) * 2 ^ (8 * 1) = 256 * 2 ^ (8 * n) by ring, Nat.mod_mul]

@[simp] theorem length_xorBytes (xs ys : List Byte) : (xorBytes xs ys).length = min xs.length ys.length := by
  simp [xorBytes]

end Sys2Proof.Machine
end

