-- ==== Sys2Proof/Laws/Cipher.lean ====
section
/-! SUPPORT. Lengths and laws of the cipher and MAC functions: a block has 64 bytes, N blocks 64·N, the loop of UPDATE gives one
byte out for each byte in and splits at any point; FieldOp stays below the prime and the partial block below 16 bytes. -/

namespace Sys2Proof.Machine

/-! ### Keystream -/

@[simp] theorem length_block (alg : Alg) (x : CipherState) (rounds : Nat) : (block alg x rounds).length = 64 := by
  simp [block]

@[simp] theorem length_genBlock (alg : Alg) (rounds : Nat) (x : CipherState) : (genBlock alg rounds x).1.length = 64 :=
  length_block alg x rounds

@[simp] theorem genBlock_state (alg : Alg) (rounds : Nat) (x : CipherState) :
    (genBlock alg rounds x).2 = ctrInc alg x := rfl

@[simp] theorem length_genBlocks (alg : Alg) (rounds n : Nat) (x : CipherState) :
    (genBlocks alg rounds n x).1.length = 64 * n := by
  induction n generalizing x with
  | zero => rfl
  | succ n ih => simp only [genBlocks, List.length_append, length_genBlock, ih]; omega

/-- The counter advances by one for each block (R160). -/
theorem genBlocks_state (alg : Alg) (rounds n : Nat) (x : CipherState) :
    (genBlocks alg rounds n x).2 = (ctrInc alg)^[n] x := by
  induction n generalizing x with
  | zero => rfl
  | succ n ih => simp only [genBlocks, ih, genBlock_state, Function.iterate_succ_apply]

theorem genBlocks_add (alg : Alg) (rounds m n : Nat) (x : CipherState) :
    genBlocks alg rounds (m + n) x =
      ((genBlocks alg rounds m x).1 ++ (genBlocks alg rounds n (genBlocks alg rounds m x).2).1,
        (genBlocks alg rounds n (genBlocks alg rounds m x).2).2) := by
  induction m generalizing x with
  | zero => simp [genBlocks]
  | succ m ih =>
    rw [show m + 1 + n = (m + n) + 1 by omega]
    simp only [genBlocks, ih, List.append_assoc]

@[simp] theorem length_xorStream (alg : Alg) (rounds : Nat) (bs : List Byte) (x : CipherState) (ks : List Byte) :
    (xorStream alg rounds bs x ks).1.length = bs.length := by
  induction bs generalizing x ks with
  | nil => rfl
  | cons b bs ih => simp only [xorStream, List.length_cons, ih]

/-- The loop of UPDATE on a string is the loop on its first part and then, from where that left off, on the rest (R169 (b)). -/
theorem xorStream_append (alg : Alg) (rounds : Nat) (xs ys : List Byte) (x : CipherState) (ks : List Byte) :
    xorStream alg rounds (xs ++ ys) x ks =
      ((xorStream alg rounds xs x ks).1 ++
          (xorStream alg rounds ys (xorStream alg rounds xs x ks).2.1 (xorStream alg rounds xs x ks).2.2).1,
        (xorStream alg rounds ys (xorStream alg rounds xs x ks).2.1 (xorStream alg rounds xs x ks).2.2).2) := by
  induction xs generalizing x ks with
  | nil => rfl
  | cons b bs ih => simp only [List.cons_append, xorStream, ih]

/-- Using one stream twice gives the bytes back, and the same stream state (R169 (a)). -/
theorem xorStream_involutive (alg : Alg) (rounds : Nat) (bs : List Byte) (x : CipherState) (ks : List Byte) :
    xorStream alg rounds (xorStream alg rounds bs x ks).1 x ks = (bs, (xorStream alg rounds bs x ks).2) := by
  induction bs generalizing x ks with
  | nil => rfl
  | cons b bs ih => simp only [xorStream, ih, BitVec.xor_assoc, BitVec.xor_self, BitVec.xor_zero]

theorem refill_ne_nil (alg : Alg) (rounds : Nat) (x : CipherState) (ks : List Byte) :
    (refill alg rounds x ks).2 ≠ [] := by
  cases ks with
  | nil => intro h; have := congrArg List.length h; simp [refill] at this
  | cons k ks => simp [refill]

/-- The keystream left pending is at most what was pending, or less than one block (R170). -/
theorem length_xorStream_left (alg : Alg) (rounds : Nat) (bs : List Byte) (x : CipherState) (ks : List Byte) :
    (xorStream alg rounds bs x ks).2.2.length ≤ max ks.length 63 := by
  induction bs generalizing x ks with
  | nil => simp [xorStream]
  | cons b bs ih =>
    refine (ih _ _).trans ?_
    cases ks with
    | nil => simp [refill]
    | cons k ks => simp [refill]; omega

/-- The output of UPDATE's loop: the string exclusive-or the pending bytes and then the blocks that are generated, with their number
(41_keystream.md R166, R170). -/
theorem xorStream_eq (alg : Alg) (rounds : Nat) (bs : List Byte) (x : CipherState) (ks : List Byte) :
    xorStream alg rounds bs x ks =
      (let g := genBlocks alg rounds (if bs.length ≤ ks.length then 0 else (bs.length - ks.length + 63) / 64) x
       (xorBytes bs (ks ++ g.1), g.2, (ks ++ g.1).drop bs.length)) := by
  induction bs generalizing x ks with
  | nil => simp [xorStream, genBlocks, xorBytes]
  | cons b bs ih =>
    cases ks with
    | cons k ks =>
      simp only [xorStream, refill, List.tail_cons, ih, List.length_cons, Nat.add_le_add_iff_right, Nat.add_sub_add_right]
      simp [xorBytes]
    | nil =>
      have hl : (genBlock alg rounds x).1.length = 64 := length_genBlock alg rounds x
      have e : (if (b :: bs).length ≤ ([] : List Byte).length then 0
          else ((b :: bs).length - ([] : List Byte).length + 63) / 64) =
          (if bs.length ≤ 63 then 0 else (bs.length - 63 + 63) / 64) + 1 := by
        simp only [List.length_nil, List.length_cons]; split_ifs <;> omega
      rw [e]
      simp only [xorStream, refill, genBlocks]
      cases hg : (genBlock alg rounds x).1 with
      | nil => rw [hg] at hl; cases hl
      | cons k ks =>
        have hk : ks.length = 63 := by rw [hg] at hl; simpa using hl
        rw [ih, List.tail_cons, hk]
        simp [xorBytes]

@[simp] theorem length_hFunction (alg : Alg) (k : KeyWords) (n : List Byte) (rounds : Nat) :
    (hFunction alg k n rounds).length = 32 := by
  cases alg <;> simp [hFunction, hChaCha, hSalsa]

/-! ### Poly1305 -/

theorem polyPrime_pos : 0 < polyPrime := by decide

theorem fieldOp_lt (acc m : Nat) (r : BitVec 128) : fieldOp acc m r < polyPrime := Nat.mod_lt _ polyPrime_pos

theorem absorb_lt {acc : Nat} (h : acc < polyPrime) (r : BitVec 128) (n : Nat) (buf : List Byte) :
    absorb r n acc buf < polyPrime := by
  induction n generalizing acc buf with
  | zero => exact h
  | succ n ih => exact ih (fieldOp_lt _ _ _) _

theorem absorbPartial_lt {acc : Nat} (h : acc < polyPrime) (r : BitVec 128) (rest : List Byte) :
    absorbPartial r acc rest < polyPrime := by
  unfold absorbPartial; split
  · exact h
  · exact fieldOp_lt _ _ _

theorem length_partialBlock (buf : List Byte) : (partialBlock buf).length = buf.length % 16 := by
  simp only [partialBlock, List.length_drop]; omega

theorem absorb_add (r : BitVec 128) (m n acc : Nat) (buf : List Byte) :
    absorb r (m + n) acc buf = absorb r n (absorb r m acc buf) (buf.drop (16 * m)) := by
  induction m generalizing acc buf with
  | zero => simp [absorb]
  | succ m ih =>
    rw [show m + 1 + n = (m + n) + 1 by omega]
    simp only [absorb, ih, List.drop_drop]
    congr 2; omega

/-- Full blocks are not changed by what follows them. -/
theorem absorb_append (r : BitVec 128) (n acc : Nat) (xs ys : List Byte) (h : 16 * n ≤ xs.length) :
    absorb r n acc (xs ++ ys) = absorb r n acc xs := by
  induction n generalizing acc xs with
  | zero => rfl
  | succ n ih =>
    simp only [absorb]
    rw [List.take_append_of_le_length (by omega), List.drop_append_of_le_length (by omega),
      ih _ _ (by simp only [List.length_drop]; omega)]

@[simp] theorem length_polyTag (acc : Nat) (s : BitVec 128) : (polyTag acc s).length = 16 := length_toLE _ _

@[simp] theorem length_poly1305 (key msg : List Byte) : (poly1305 key msg).length = 16 := length_polyTag _ _

theorem polyR_clamped (key : List Byte) : polyR key &&& ~~~clampMask = 0 := by
  rw [polyR, BitVec.and_assoc, BitVec.and_not_self]; exact BitVec.and_zero

/-! ### AEAD -/

@[simp] theorem length_aeadBlock (x : AeadContext) (c : Nat) : (x.block c).length = 64 := length_block _ _ _

theorem length_flatMap_block (x : AeadContext) (js : List Nat) :
    (js.flatMap fun j => x.block (1 + j)).length = 64 * js.length := by
  induction js with
  | nil => rfl
  | cons j js ih => simp only [List.flatMap_cons, List.length_append, length_aeadBlock, ih, List.length_cons]; omega

@[simp] theorem length_aeadXor (x : AeadContext) (bs : List Byte) : (x.xor bs).length = bs.length := by
  simp only [AeadContext.xor, length_xorBytes, length_flatMap_block, List.length_range]; omega

@[simp] theorem length_aeadTag (x : AeadContext) (a c : List Byte) : (x.tag a c).length = 16 := length_poly1305 _ _

theorem xorBytes_xorBytes (xs ks : List Byte) (h : xs.length ≤ ks.length) : xorBytes (xorBytes xs ks) ks = xs := by
  refine List.ext_getElem (by simp; omega) fun i h1 h2 => ?_
  simp [xorBytes]

/-- The data keystream applied twice gives the bytes back. -/
theorem aeadXor_involutive (x : AeadContext) (bs : List Byte) : x.xor (x.xor bs) = bs := by
  have h : (x.xor bs).length = bs.length := length_aeadXor x bs
  rw [AeadContext.xor, h]
  exact xorBytes_xorBytes _ _ (by rw [length_flatMap_block, List.length_range]; omega)

end Sys2Proof.Machine
end

