-- ==== Sys2Proof/Laws/Bytes.lean ====
section
/-! SUPPORT. Bytes, words and integers read from DMEM (00_scope.md R13): `LEint` as a sum, the words of a range, the key and layout
words; and counters: N increments are one addition at the counter's own width (41_keystream.md R153). -/

namespace Sys2Proof.Machine

/-- `LEint` as the sum of R13. -/
theorem leInt_eq_sum (bs : List Byte) :
    leInt bs = ∑ i ∈ Finset.range bs.length, (bs.getD i 0).toNat * 2 ^ (8 * i) := by
  induction bs with
  | nil => rfl
  | cons b bs ih =>
    rw [leInt, ih, List.length_cons, Finset.sum_range_succ', Finset.mul_sum, Nat.add_comm]
    congr 1
    · refine Finset.sum_congr rfl fun i _ => ?_
      simp only [List.getD_cons_succ, Nat.mul_add, Nat.pow_add]
      ring
    · simp

/-- `LEint(MemRead(a, n))` as a sum over the bytes. -/
theorem leInt_readBytes (m : Memory) (a n : Nat) :
    leInt (m.readBytes a n) = ∑ i ∈ Finset.range n, (m.read (a + i)).toNat * 2 ^ (8 * i) := by
  rw [leInt_eq_sum, Memory.length_readBytes]
  refine Finset.sum_congr rfl fun i hi => ?_
  rw [List.getD_eq_getElem _ _ (by simpa using hi), Memory.getElem_readBytes]

theorem toNat_le32 (b0 b1 b2 b3 : Byte) : (le32 b0 b1 b2 b3).toNat = leInt [b0, b1, b2, b3] := by
  simp only [le32, leInt, BitVec.toNat_append]
  have h0 := b0.isLt; have h1 := b1.isLt; have h2 := b2.isLt; have h3 := b3.isLt
  rw [← Nat.shiftLeft_add_eq_or_of_lt h0, ← Nat.shiftLeft_add_eq_or_of_lt h1, ← Nat.shiftLeft_add_eq_or_of_lt h2]
  simp only [Nat.shiftLeft_eq]
  omega

/-- `LE32` of four bytes of DMEM. -/
def Memory.word (m : Memory) (a : Nat) : Word := le32 (m.read a) (m.read (a + 1)) (m.read (a + 2)) (m.read (a + 3))

theorem Memory.word_eq_ofNat (m : Memory) (a : Nat) : m.word a = BitVec.ofNat 32 (leInt (m.readBytes a 4)) := by
  apply BitVec.eq_of_toNat_eq
  have h := leInt_lt (m.readBytes a 4)
  rw [Memory.length_readBytes] at h
  rw [Memory.word, toNat_le32, BitVec.toNat_ofNat, Nat.mod_eq_of_lt h]
  rfl

/-- `LEwords(MemRead(a, 4n))`: the words of a range. -/
theorem leWords_readBytes (m : Memory) (a n : Nat) :
    leWords (m.readBytes a (4 * n)) = (List.range n).map fun j => m.word (a + 4 * j) := by
  induction n generalizing a with
  | zero => rfl
  | succ n ih =>
    rw [show 4 * (n + 1) = 4 + 4 * n by omega, Memory.readBytes_add, List.range_succ_eq_map, List.map_cons, List.map_map]
    have h4 : m.readBytes a 4 = [m.read a, m.read (a + 1), m.read (a + 2), m.read (a + 3)] := rfl
    rw [h4]
    simp only [List.cons_append, List.nil_append, leWords, ih]
    refine congrArg₂ List.cons rfl (List.map_congr_left fun j _ => ?_)
    simp only [Function.comp_apply]
    congr 1
    omega

/-- Word j of a range. -/
theorem wordAt_readBytes (m : Memory) (a n j : Nat) (h : j < n) :
    wordAt (leWords (m.readBytes a (4 * n))) j = m.word (a + 4 * j) := by
  rw [leWords_readBytes, wordAt, List.getD_eq_getElem _ _ (by simpa using h)]
  simp

theorem getElem_keyOfWords (ws : List Word) (i : Fin 8) : (keyOfWords ws)[i] = wordAt ws i.val := by
  fin_cases i <;> rfl

/-- Writing words and reading one back (R13, 20_memory.md R63). -/
theorem word_writeBytes_bytesLE (m : Memory) (a : Nat) (ws : List Word) (j : Nat) (h : j < ws.length) :
    (m.writeBytes a (bytesLE ws)).word (a + 4 * j) = wordAt ws j := by
  have hr := Memory.readBytes_writeBytes_self m a (bytesLE ws)
  rw [length_bytesLE] at hr
  rw [← wordAt_readBytes _ a ws.length j h, hr, leWords_bytesLE]

/-! ### Counters -/

theorem ctrGet_ctrSet (alg : Alg) (v : Nat) (x : CipherState) :
    ctrGet alg (ctrSet alg v x) = v % 2 ^ (if alg = .ietf then 32 else 64) := by
  cases alg <;> simp [ctrGet, ctrSet] <;> omega

theorem ctrSet_ctrSet (alg : Alg) (u v : Nat) (x : CipherState) : ctrSet alg v (ctrSet alg u x) = ctrSet alg v x := by
  cases alg <;>
    · apply Vector.ext
      intro i hi
      simp only [ctrSet, Vector.getElem_set]
      split_ifs <;> rfl

/-- `ctrSet` narrows to the counter's own width. -/
theorem ctrSet_mod (alg : Alg) (v : Nat) (x : CipherState) :
    ctrSet alg (v % 2 ^ (if alg = .ietf then 32 else 64)) x = ctrSet alg v x := by
  have h : BitVec.ofNat 32 (v % 2 ^ 64) = BitVec.ofNat 32 v :=
    BitVec.eq_of_toNat_eq (by simp only [BitVec.toNat_ofNat]; omega)
  have h2 : BitVec.ofNat 32 (v % 2 ^ 64 / 2 ^ 32) = BitVec.ofNat 32 (v / 2 ^ 32) :=
    BitVec.eq_of_toNat_eq (by simp only [BitVec.toNat_ofNat]; omega)
  have h3 : BitVec.ofNat 32 (v % 2 ^ 32) = BitVec.ofNat 32 v :=
    BitVec.eq_of_toNat_eq (by simp only [BitVec.toNat_ofNat]; omega)
  cases alg
  · show x.set 12 _ = x.set 12 _
    exact congrArg (fun a => x.set 12 a) h3
  · show (x.set 12 _).set 13 _ = (x.set 12 _).set 13 _
    exact congrArg₂ (fun a b => (x.set 12 a).set 13 b) h h2
  · show (x.set 8 _).set 9 _ = (x.set 8 _).set 9 _
    exact congrArg₂ (fun a b => (x.set 8 a).set 9 b) h h2

theorem ctrSet_ctrGet (alg : Alg) (x : CipherState) : ctrSet alg (ctrGet alg x) x = x := by
  have h (a b : Word) : BitVec.ofNat 32 (a.toNat * 2 ^ 32 + b.toNat) = b :=
    BitVec.eq_of_toNat_eq (by simp only [BitVec.toNat_ofNat]; omega)
  have h2 (a b : Word) : BitVec.ofNat 32 ((a.toNat * 2 ^ 32 + b.toNat) / 2 ^ 32) = a :=
    BitVec.eq_of_toNat_eq (by simp only [BitVec.toNat_ofNat]; omega)
  cases alg <;>
    · apply Vector.ext
      intro i hi
      simp only [ctrSet, ctrGet, h, h2, Vector.getElem_set, BitVec.ofNat_toNat, BitVec.setWidth_eq]
      split_ifs <;> simp_all

/-- N increments are one addition (R153, 41_keystream.md R170). -/
theorem ctrInc_iterate (alg : Alg) (n : Nat) (x : CipherState) :
    (ctrInc alg)^[n] x = ctrSet alg (ctrGet alg x + n) x := by
  induction n with
  | zero => simp [ctrSet_ctrGet]
  | succ n ih =>
    rw [Function.iterate_succ_apply', ih, ctrInc, ctrSet_ctrSet, ctrGet_ctrSet, ← ctrSet_mod alg (_ + 1),
      ← ctrSet_mod alg (ctrGet alg x + (n + 1))]
    congr 1
    rw [Nat.mod_add_mod, Nat.add_assoc]

end Sys2Proof.Machine
end

