-- ==== Sys2Proof/Laws/Exec.lean ====
section
/-! SUPPORT. What a command can do, said once: `exec_ends` is the inversion lemma of `exec`, over `Effect`, the effect each command
has when none of its checks fails. Frames, invariants and error rules follow from it by cases. -/

namespace Sys2Proof.Machine

/-- The effect `e` of a command that passes all its checks, before completion, with what the checks then guarantee. -/
def Effect : Instr → State → State → Prop
  | .nop, s, e => e = s
  | .qrC a b c d, s, e => e = { s with w := quarterC s.w a b c d }
  | .drC, s, e => e = { s with w := doubleC s.w }
  | .permC, s, e => validRounds s.rounds = true ∧ e = { s with w := permC s.w s.rounds }
  | .qrS a b c d, s, e => e = { s with w := quarterS s.w a b c d }
  | .drS, s, e => e = { s with w := doubleS s.w }
  | .permS, s, e => validRounds s.rounds = true ∧ e = { s with w := permS s.w s.rounds }
  | .ldkey, s, e =>
      s.regs.keya.toNat + s.cfg.keyLen.bytes ≤ s.params.dmemSize ∧
      e = { s with
        k := loadKey s.cfg.keyLen (s.memRead s.regs.keya s.cfg.keyLen.bytes), klen := s.cfg.keyLen, kv := true,
        ks := [], drv := .unkeyed }
  | .setiv, s, e => ∃ alg, s.cfg.alg? = some alg ∧ s.kv = true ∧
      e = { s with w := ivState alg s (s.memRead s.regs.noncea (nonceLen alg s.cfg.xn)), ks := [], drv := .fresh }
  | .setctr, s, e => ∃ alg, s.cfg.alg? = some alg ∧ s.drv ≠ .unkeyed ∧ e = restartAt alg s.ctrOperand s
  | .reset, s, e => ∃ alg, s.cfg.alg? = some alg ∧ s.drv ≠ .unkeyed ∧ e = restartAt alg 0 s
  | .ksgen1, s, e => KsgenEffect 1 s e
  | .ksgen2, s, e => KsgenEffect 2 s e
  | .ksgen4, s, e => KsgenEffect 4 s e
  | .ksgen8, s, e => KsgenEffect 8 s e
  | .update, s, e => ∃ alg, s.cfg.alg? = some alg ∧ s.drv ≠ .unkeyed ∧ validRounds s.rounds = true ∧
      s.regs.dst.toNat + s.regs.len.toNat ≤ s.params.dmemSize ∧
      e = State.memWrite { s with
        w := (xorStream alg s.rounds s.srcBytes s.w s.ks).2.1,
        ks := (xorStream alg s.rounds s.srcBytes s.w s.ks).2.2, drv := .streaming } s.regs.dst
        (xorStream alg s.rounds s.srcBytes s.w s.ks).1
  | .hnonce, s, e => ∃ alg, s.cfg.alg? = some alg ∧ s.kv = true ∧
      s.regs.dst.toNat + 32 ≤ s.params.dmemSize ∧
      e = s.memWrite s.regs.dst (hFunction alg s.k (s.memRead s.regs.noncea 16) s.rounds)
  | .zeroize, s, e => e = { s with
      w := Vector.replicate 16 0, k := Vector.replicate 8 0, klen := .k32, kv := false, ks := [], drv := .unkeyed,
      pr := 0, ps := 0, pacc := 0, pbuf := [], pst := .idle }
  | .pInit, s, e => e = { s with
      pr := polyR (s.memRead s.regs.keya 32), ps := polyS (s.memRead s.regs.keya 32), pacc := 0, pbuf := [], pst := .active }
  | .pBlock h, s, e => s.pst = .active ∧
      e = { s with pacc := fieldOp s.pacc (leInt (s.memRead s.regs.src 16) + h.toNat * 2 ^ 128) s.pr }
  | .pUpdate, s, e => s.pst = .active ∧
      e = { s with
        pacc := absorb s.pr ((s.pbuf ++ s.srcBytes).length / 16) s.pacc (s.pbuf ++ s.srcBytes),
        pbuf := partialBlock (s.pbuf ++ s.srcBytes) }
  | .pFinal, s, e => s.pst = .active ∧ s.regs.tag.toNat + 16 ≤ s.params.dmemSize ∧
      e = State.memWrite { s with pacc := absorbPartial s.pr s.pacc s.pbuf, pbuf := [], pst := .finished } s.regs.tag
        (polyTag (absorbPartial s.pr s.pacc s.pbuf) s.ps)
  | .aeadEnc, s, e => s.regs.dst.toNat + s.regs.len.toNat ≤ s.params.dmemSize ∧
      s.regs.tag.toNat + 16 ≤ s.params.dmemSize ∧
      e = (s.memWrite s.regs.dst (s.aeadContext.xor s.srcBytes)).memWrite s.regs.tag
        (s.aeadContext.tag s.aadBytes (s.aeadContext.xor s.srcBytes))
  | .aeadDec, s, e => s.regs.dst.toNat + s.regs.len.toNat ≤ s.params.dmemSize ∧
      ctEqual (s.aeadContext.tag s.aadBytes s.srcBytes) (s.memRead s.regs.tag 16) = true ∧
      e = s.memWrite s.regs.dst (s.aeadContext.xor s.srcBytes)
where
  /-- The effect of KSGEN.N. -/
  KsgenEffect (n : Nat) (s e : State) : Prop :=
    ∃ alg, s.cfg.alg? = some alg ∧ s.drv ≠ .unkeyed ∧ validRounds s.rounds = true ∧
      e = { s with
        w := (genBlocks alg s.rounds n s.w).2, ks := (genBlocks alg s.rounds n s.w).1, drv := .streaming }

/-- The commands of the MAC that U3 leaves open while PST = Finished. -/
def needsActiveMac : Instr → Bool
  | .pBlock _ => true
  | .pUpdate => true
  | .pFinal => true
  | _ => false

/-- What can follow a command that raised no InvalidArgument by its checks. -/
inductive ExecOutcome (i : Instr) (s : State) : State → Prop where
  | effect (e : State) (h : Effect i s e) : ExecOutcome i s (e.complete .ok)
  | forged (hi : i = .aeadDec) : ExecOutcome i s (s.complete .authenticationFailure)
  | misused (hi : needsActiveMac i = true) (hp : s.pst = .finished) :
      ExecOutcome i s (s.misused.complete (misuseResult s.freeCount))

theorem initialised_of_pass {s : State} (h : firstFailure [initialisedCheck s] = none) : s.drv ≠ .unkeyed := by
  simpa [initialisedCheck] using h

theorem ksgen_ends (n : Nat) (s : State) (Q : State → Prop)
    (h : ∀ e, Effect.KsgenEffect n s e → Q (e.complete .ok)) : Ends s Q (ksgen n s) := by
  refine .of_checked fun h1 => .of_withAlg fun alg ha => .of_checked fun h2 => .of_succeed (h _ ?_)
  exact ⟨alg, ha, initialised_of_pass h1, by simpa [roundsCheck] using h2, rfl⟩

/-- The inversion lemma of `exec`: a command raises InvalidArgument on the state it started from, or has one of its outcomes.
It never stops. -/
theorem exec_ends (i : Instr) (s : State) : Ends s (ExecOutcome i s) (exec i s) := by
  have eff : ∀ {i s}, ∀ e, Effect i s e → ExecOutcome i s (e.complete .ok) := fun e h => .effect e h
  cases i with
  | nop => exact .of_succeed (eff _ rfl)
  | qrC a b c d => exact .of_succeed (eff _ rfl)
  | drC => exact .of_succeed (eff _ rfl)
  | permC => exact .of_checked fun h => .of_succeed (eff _ ⟨by simpa [roundsCheck] using h, rfl⟩)
  | qrS a b c d => exact .of_succeed (eff _ rfl)
  | drS => exact .of_succeed (eff _ rfl)
  | permS => exact .of_checked fun h => .of_succeed (eff _ ⟨by simpa [roundsCheck] using h, rfl⟩)
  | ldkey => exact .of_checked fun h => .of_succeed (eff _ ⟨by simpa using h, rfl⟩)
  | setiv =>
    refine .of_checked fun h1 => .of_withAlg fun alg ha => .of_checked fun _ => .of_succeed (eff _ ⟨alg, ha, ?_, rfl⟩)
    simpa [keyLoadedCheck] using h1
  | setctr => exact .of_checked fun h => .of_withAlg fun alg ha => .of_succeed (eff _ ⟨alg, ha, initialised_of_pass h, rfl⟩)
  | reset => exact .of_checked fun h => .of_withAlg fun alg ha => .of_succeed (eff _ ⟨alg, ha, initialised_of_pass h, rfl⟩)
  | ksgen1 => exact ksgen_ends 1 s _ fun e h => eff e h
  | ksgen2 => exact ksgen_ends 2 s _ fun e h => eff e h
  | ksgen4 => exact ksgen_ends 4 s _ fun e h => eff e h
  | ksgen8 => exact ksgen_ends 8 s _ fun e h => eff e h
  | update =>
    refine .of_checked fun h1 => .of_withAlg fun alg ha => .of_checked fun h2 => .of_succeed (eff _ ?_)
    simp only [roundsCheck, firstFailure_cons_eq_none, firstFailure_nil, Bool.not_eq_false', State.inRange_iff] at h2
    exact ⟨alg, ha, initialised_of_pass h1, h2.1, h2.2.2.1, rfl⟩
  | hnonce =>
    refine .of_checked fun h1 => .of_withAlg fun alg ha => .of_checked fun h2 => .of_succeed (eff _ ⟨alg, ha, ?_, ?_, rfl⟩)
    · simpa [keyLoadedCheck] using h1
    · simp only [firstFailure_cons_eq_none, Bool.not_eq_false', State.inRange_iff] at h2
      exact h2.2.2.1
  | zeroize => exact .of_succeed (eff _ rfl)
  | pInit => exact .of_checked fun _ => .of_succeed (eff _ rfl)
  | pBlock h =>
    exact .of_withActiveMac (fun hp => .misused rfl hp) fun hp => .of_checked fun _ => .of_succeed (eff _ ⟨hp, rfl⟩)
  | pUpdate =>
    exact .of_withActiveMac (fun hp => .misused rfl hp) fun hp => .of_checked fun _ => .of_succeed (eff _ ⟨hp, rfl⟩)
  | pFinal =>
    exact .of_withActiveMac (fun hp => .misused rfl hp) fun hp => .of_checked fun h =>
      .of_succeed (eff _ ⟨hp, by simpa using h, rfl⟩)
  | aeadEnc =>
    refine .of_aeadChecked fun _ _ _ _ hd _ ht _ _ => .of_succeed (eff _ ⟨?_, ?_, rfl⟩)
    · exact (State.inRange_iff ..).1 hd
    · exact (State.inRange_iff ..).1 ht
  | aeadDec =>
    refine .of_aeadChecked fun _ _ _ _ hd _ _ _ _ => ?_
    by_cases hc : ctEqual (s.aeadContext.tag s.aadBytes s.srcBytes) (s.memRead s.regs.tag 16) = true
    · simp only [hc, if_true]
      exact .of_succeed (eff _ ⟨(State.inRange_iff ..).1 hd, hc, rfl⟩)
    · simp only [hc]
      exact .of_next (.forged rfl)

/-- A command that answers `t` raised InvalidArgument and changed nothing else, or had one of its outcomes. -/
theorem exec_cases {i : Instr} {s t : State} (h : exec i s = .next t) :
    (∃ c, t = s.complete (.invalidArgument c)) ∨ ExecOutcome i s t := by
  obtain ⟨t', ht, hc⟩ := exec_ends i s
  rw [h] at ht
  injection ht with ht
  subst ht
  exact hc

/-! ### MAC misuse (R217, U3) -/

section Misused
variable (s : State)

@[simp] theorem State.misused_params : s.misused.params = s.params := by unfold State.misused; dsimp only; split <;> rfl
@[simp] theorem State.misused_rst : s.misused.rst = s.rst := by unfold State.misused; dsimp only; split <;> rfl
@[simp] theorem State.misused_ie : s.misused.ie = s.ie := by unfold State.misused; dsimp only; split <;> rfl
@[simp] theorem State.misused_ovr : s.misused.ovr = s.ovr := by unfold State.misused; dsimp only; split <;> rfl
@[simp] theorem State.misused_cfg : s.misused.cfg = s.cfg := by unfold State.misused; dsimp only; split <;> rfl
@[simp] theorem State.misused_regs : s.misused.regs = s.regs := by unfold State.misused; dsimp only; split <;> rfl
@[simp] theorem State.misused_cmdl : s.misused.cmdl = s.cmdl := by unfold State.misused; dsimp only; split <;> rfl
@[simp] theorem State.misused_w : s.misused.w = s.w := by unfold State.misused; dsimp only; split <;> rfl
@[simp] theorem State.misused_k : s.misused.k = s.k := by unfold State.misused; dsimp only; split <;> rfl
@[simp] theorem State.misused_klen : s.misused.klen = s.klen := by unfold State.misused; dsimp only; split <;> rfl
@[simp] theorem State.misused_kv : s.misused.kv = s.kv := by unfold State.misused; dsimp only; split <;> rfl
@[simp] theorem State.misused_ks : s.misused.ks = s.ks := by unfold State.misused; dsimp only; split <;> rfl
@[simp] theorem State.misused_drv : s.misused.drv = s.drv := by unfold State.misused; dsimp only; split <;> rfl
@[simp] theorem State.misused_pr : s.misused.pr = s.pr := by unfold State.misused; dsimp only; split <;> rfl
@[simp] theorem State.misused_inputs : s.misused.inputs = s.inputs := by unfold State.misused; dsimp only; split <;> rfl
@[simp] theorem State.misused_port : s.misused.port = s.port := by unfold State.misused; dsimp only; split <;> rfl
@[simp] theorem State.misused_freeCount : s.misused.freeCount = s.freeCount + 1 := by
  unfold State.misused; dsimp only; split <;> rfl

/-- Where DMEM ends up: as it was, or with free bytes in the TAG range. -/
theorem State.misused_mem : s.misused.mem = s.mem ∨ s.misused.mem = s.misusedMem := by
  unfold State.misused; dsimp only; split
  · exact .inl rfl
  · exact .inr rfl

theorem State.misusedMem_cases : s.misusedMem = s.mem ∨ (s.regs.tag.toNat + 16 ≤ s.params.dmemSize ∧
    s.misusedMem = s.mem.writeBytes s.regs.tag.toNat (toLE (Config.misuseTag s.freeCount).toNat 16)) := by
  unfold State.misusedMem; split
  · rename_i h; exact .inr ⟨by simpa using h, rfl⟩
  · exact .inl rfl

/-- DMEM after MAC misuse: as it was, or with 16 free bytes written to the TAG range, which then exists. -/
theorem State.misused_mem_cases : s.misused.mem = s.mem ∨ (s.regs.tag.toNat + 16 ≤ s.params.dmemSize ∧
    s.misused.mem = s.mem.writeBytes s.regs.tag.toNat (toLE (Config.misuseTag s.freeCount).toNat 16)) := by
  rcases s.misused_mem with h | h
  · exact .inl h
  · rw [h]; exact s.misusedMem_cases

theorem State.misused_pacc (h : s.pacc < polyPrime) : s.misused.pacc < polyPrime := by
  unfold State.misused; dsimp only; split
  · exact h
  · exact Nat.mod_lt _ polyPrime_pos

theorem State.misused_pbuf (h : s.pbuf.length ≤ 15) : s.misused.pbuf.length ≤ 15 := by
  unfold State.misused; dsimp only; split
  · exact h
  · simp only [List.length_take]; omega

/-- Outside the TAG range every byte of DMEM is as before. -/
theorem State.misused_read {a : Nat} (h : ¬(s.regs.tag.toNat ≤ a ∧ a < s.regs.tag.toNat + 16)) :
    s.misused.mem.read a = s.mem.read a := by
  rcases s.misused_mem_cases with hm | ⟨-, hm⟩
  · rw [hm]
  · rw [hm, Memory.read_writeBytes, if_neg (by simpa using h)]

end Misused

end Sys2Proof.Machine
end

