-- ==== Sys2Proof/Laws/Completion.lean ====
section
/-! SUPPORT. When a command with checks completes with ERR = 0, and with which effect: one lemma for each, under the conditions its
checks test. The commands without checks complete by definition. -/

namespace Sys2Proof.Machine

theorem roundsCheck_ok {s : State} (h : validRounds s.rounds = true) : (roundsCheck s).failed = false := by
  simp [roundsCheck, h]

theorem exec_permC {s : State} (h : validRounds s.rounds = true) :
    exec .permC s = succeed { s with w := permC s.w s.rounds } := checked_pass (by simp [roundsCheck_ok h]) ..

theorem exec_permS {s : State} (h : validRounds s.rounds = true) :
    exec .permS s = succeed { s with w := permS s.w s.rounds } := checked_pass (by simp [roundsCheck_ok h]) ..

theorem exec_ldkey {s : State} (h : s.regs.keya.toNat + s.cfg.keyLen.bytes ≤ s.params.dmemSize) :
    exec .ldkey s = succeed { s with
      k := loadKey s.cfg.keyLen (s.memRead s.regs.keya s.cfg.keyLen.bytes), klen := s.cfg.keyLen, kv := true, ks := [],
      drv := .unkeyed } := checked_pass (by simpa using h) ..

theorem exec_setiv {s : State} {alg : Alg} (ha : s.cfg.alg? = some alg) (hk : s.kv = true)
    (hx : s.cfg.xn = true → alg ≠ .original ∧ s.klen = .k32 ∧ validRounds s.rounds = true)
    (hn : s.regs.noncea.toNat + nonceLen alg s.cfg.xn ≤ s.params.dmemSize) :
    exec .setiv s = succeed { s with
      w := ivState alg s (s.memRead s.regs.noncea (nonceLen alg s.cfg.xn)), ks := [], drv := .fresh } := by
  show checked _ s _ = _
  rw [checked_pass (by simp [keyLoadedCheck, hk]), withAlg_some ha]
  refine checked_pass ?_ ..
  cases hxn : s.cfg.xn with
  | false => rw [hxn] at hn; simp [hn]
  | true => obtain ⟨h1, h2, h3⟩ := hx hxn; rw [hxn] at hn; simp [h1, h2, h3, hn]

theorem exec_setctr {s : State} {alg : Alg} (ha : s.cfg.alg? = some alg) (hd : s.drv ≠ .unkeyed) :
    exec .setctr s = succeed (restartAt alg s.ctrOperand s) := by
  show checked _ s _ = _
  rw [checked_pass (by simp [initialisedCheck, hd]), withAlg_some ha]

theorem exec_reset {s : State} {alg : Alg} (ha : s.cfg.alg? = some alg) (hd : s.drv ≠ .unkeyed) :
    exec .reset s = succeed (restartAt alg 0 s) := by
  show checked _ s _ = _
  rw [checked_pass (by simp [initialisedCheck, hd]), withAlg_some ha]

theorem ksgen_pass {s : State} {alg : Alg} (ha : s.cfg.alg? = some alg) (hd : s.drv ≠ .unkeyed)
    (hr : validRounds s.rounds = true) (n : Nat) :
    ksgen n s = succeed { s with
      w := (genBlocks alg s.rounds n s.w).2, ks := (genBlocks alg s.rounds n s.w).1, drv := .streaming } := by
  rw [ksgen, checked_pass (by simp [initialisedCheck, hd]), withAlg_some ha]
  exact checked_pass (by simp [roundsCheck_ok hr]) ..

theorem exec_update {s : State} {alg : Alg} (ha : s.cfg.alg? = some alg) (hd : s.drv ≠ .unkeyed)
    (hr : validRounds s.rounds = true) (h1 : s.regs.src.toNat + s.regs.len.toNat ≤ s.params.dmemSize)
    (h2 : s.regs.dst.toNat + s.regs.len.toNat ≤ s.params.dmemSize)
    (ho : overlap [s.dstRange] [s.srcRange, s.dstRange] = false) :
    exec .update s = succeed (State.memWrite { s with
      w := (xorStream alg s.rounds s.srcBytes s.w s.ks).2.1, ks := (xorStream alg s.rounds s.srcBytes s.w s.ks).2.2,
      drv := .streaming } s.regs.dst (xorStream alg s.rounds s.srcBytes s.w s.ks).1) := by
  show checked _ s _ = _
  rw [checked_pass (by simp [initialisedCheck, hd]), withAlg_some ha]
  exact checked_pass (by simp [roundsCheck_ok hr, h1, h2, ho]) ..

theorem exec_hnonce {s : State} {alg : Alg} (ha : s.cfg.alg? = some alg) (hk : s.kv = true) (hl : s.klen = .k32)
    (hr : validRounds s.rounds = true) (h1 : s.regs.dst.toNat + 32 ≤ s.params.dmemSize)
    (h2 : s.regs.noncea.toNat + 16 ≤ s.params.dmemSize)
    (ho : overlap [s.hnonceDstRange] [s.hnonceDstRange, s.nonceRange 16] = false) :
    exec .hnonce s =
      succeed (s.memWrite s.regs.dst (hFunction alg s.k (s.memRead s.regs.noncea 16) s.rounds)) := by
  show checked _ s _ = _
  rw [checked_pass (by simp [keyLoadedCheck, hk]), withAlg_some ha]
  exact checked_pass (by simp [roundsCheck_ok hr, hl, h1, h2, ho]) ..

theorem exec_pInit {s : State} (h : s.regs.keya.toNat + 32 ≤ s.params.dmemSize) :
    exec .pInit s = succeed { s with
      pr := polyR (s.memRead s.regs.keya 32), ps := polyS (s.memRead s.regs.keya 32), pacc := 0, pbuf := [],
      pst := .active } := checked_pass (by simpa using h) ..

theorem exec_pBlock {s : State} (hp : s.pst = .active) (hb : s.pbuf = [])
    (h : s.regs.src.toNat + 16 ≤ s.params.dmemSize) (high : Bool) :
    exec (.pBlock high) s = succeed { s with
      pacc := fieldOp s.pacc (leInt (s.memRead s.regs.src 16) + high.toNat * 2 ^ 128) s.pr } := by
  show withActiveMac s _ = _
  rw [withActiveMac_active hp]
  exact checked_pass (by simp [hb, h]) ..

theorem exec_pUpdate {s : State} (hp : s.pst = .active)
    (h : s.regs.src.toNat + s.regs.len.toNat ≤ s.params.dmemSize) :
    exec .pUpdate s = succeed { s with
      pacc := absorb s.pr ((s.pbuf ++ s.srcBytes).length / 16) s.pacc (s.pbuf ++ s.srcBytes),
      pbuf := partialBlock (s.pbuf ++ s.srcBytes) } := by
  show withActiveMac s _ = _
  rw [withActiveMac_active hp]
  exact checked_pass (by simpa using h) ..

theorem exec_pFinal {s : State} (hp : s.pst = .active) (h : s.regs.tag.toNat + 16 ≤ s.params.dmemSize) :
    exec .pFinal s = succeed (State.memWrite { s with
      pacc := absorbPartial s.pr s.pacc s.pbuf, pbuf := [], pst := .finished } s.regs.tag
      (polyTag (absorbPartial s.pr s.pacc s.pbuf) s.ps)) := by
  show withActiveMac s _ = _
  rw [withActiveMac_active hp]
  exact checked_pass (by simpa using h) ..

/-- What the checks of an AEAD command with the output ranges `outs` test (44_aead.md R240). -/
structure AeadReady (outs : List Range) (s : State) : Prop where
  key : s.kv = true
  alg : s.cfg.alg? = some .ietf
  length : s.klen = .k32
  src : s.regs.src.toNat + s.regs.len.toNat ≤ s.params.dmemSize
  dst : s.regs.dst.toNat + s.regs.len.toNat ≤ s.params.dmemSize
  aad : s.regs.aad.toNat + s.regs.aadlen.toNat ≤ s.params.dmemSize
  tag : s.regs.tag.toNat + 16 ≤ s.params.dmemSize
  nonce : s.regs.noncea.toNat + s.aeadNonceLen ≤ s.params.dmemSize
  apart : overlap outs s.aeadRanges = false

theorem aeadChecked_pass {outs : List Range} {s : State} (h : AeadReady outs s) (k : StepResult) :
    aeadChecked outs s k = k := by
  rw [aeadChecked, checked_pass (by simp [keyLoadedCheck, h.key]), withAlg_some h.alg]
  exact checked_pass (by simp [h.length, h.src, h.dst, h.aad, h.tag, h.nonce, h.apart]) ..

theorem exec_aeadEnc {s : State} (h : AeadReady [s.dstRange, s.tagRange] s) :
    exec .aeadEnc s = succeed ((s.memWrite s.regs.dst (s.aeadContext.xor s.srcBytes)).memWrite s.regs.tag
      (s.aeadContext.tag s.aadBytes (s.aeadContext.xor s.srcBytes))) := aeadChecked_pass h _

theorem exec_aeadDec {s : State} (h : AeadReady [s.dstRange] s) :
    exec .aeadDec s =
      if ctEqual (s.aeadContext.tag s.aadBytes s.srcBytes) (s.memRead s.regs.tag 16) then
        succeed (s.memWrite s.regs.dst (s.aeadContext.xor s.srcBytes))
      else .next (s.complete .authenticationFailure) := aeadChecked_pass h _

end Sys2Proof.Machine
end

