-- ==== Sys2Proof/Laws/Decode.lean ====
section
/-! SUPPORT. The fields of a command word: a word is its fields put together, the fields of an encoded word are the operands, and what
each format's decoder answers. -/

namespace Sys2Proof

/-- A word is its upper 24 bits and its OPC. -/
theorem word_eq_append (w : Word) : w = w.extractLsb' 8 24 ++ opcField w := by
  apply BitVec.eq_of_getLsbD_eq
  intro i hi
  simp only [opcField, BitVec.getLsbD_extractLsb', BitVec.getLsbD_append]
  by_cases h : i < 8
  · simp [h]
  · simp [h, show i - 8 < 24 by omega, show 8 + (i - 8) = i by omega]

theorem upper_eq_append_q (w : Word) : w.extractLsb' 8 24 =
    w.extractLsb' 24 8 ++ w.extractLsb' 20 4 ++ w.extractLsb' 16 4 ++ w.extractLsb' 12 4 ++ w.extractLsb' 8 4 := by
  apply BitVec.eq_of_getLsbD_eq
  intro i hi
  simp only [BitVec.getLsbD_extractLsb', BitVec.getLsbD_append]
  interval_cases i <;> simp

theorem upper_eq_append_k (w : Word) : w.extractLsb' 8 24 = w.extractLsb' 10 22 ++ w.extractLsb' 8 2 := by
  apply BitVec.eq_of_getLsbD_eq
  intro i hi
  simp only [BitVec.getLsbD_extractLsb', BitVec.getLsbD_append]
  interval_cases i <;> simp

theorem upper_eq_append_p (w : Word) : w.extractLsb' 8 24 = w.extractLsb' 9 23 ++ BitVec.ofBool (w.getLsbD 8) := by
  apply BitVec.eq_of_getLsbD_eq
  intro i hi
  simp only [BitVec.getLsbD_extractLsb', BitVec.getLsbD_append]
  interval_cases i <;> simp

theorem opcField_eq {w : Word} {n : Nat} (h : (opcField w).toNat = n) : opcField w = BitVec.ofNat 8 n := by
  apply BitVec.eq_of_toNat_eq
  rw [BitVec.toNat_ofNat, ← h]
  exact (Nat.mod_eq_of_lt (opcField w).isLt).symm

/-- OPC as a number. -/
theorem toNat_opcField (w : Word) : (opcField w).toNat = w.toNat % 256 := by
  simp [opcField]

/-- The upper bits of a word are zero exactly when the word is small. -/
theorem upper_eq_zero_iff (w : Word) (n : Nat) (h : n ≤ 32) : w.extractLsb' n (32 - n) = 0#(32 - n) ↔ w.toNat / 2 ^ n = 0 := by
  have hw := w.isLt
  have hd : w.toNat / 2 ^ n < 2 ^ (32 - n) :=
    Nat.div_lt_of_lt_mul (by rw [← Nat.pow_add, Nat.add_sub_cancel' h]; exact hw)
  rw [BitVec.toNat_eq, BitVec.extractLsb'_toNat, Nat.shiftRight_eq_div_pow, Nat.mod_eq_of_lt hd, BitVec.toNat_ofNat, Nat.zero_mod]

/-- The fields of an encoded format Q word. -/
theorem fields_encodeQ (opc : BitVec 8) (a b c d : Lane) :
    opcField (encodeQ opc a b c d) = opc ∧ (encodeQ opc a b c d).extractLsb' 24 8 = 0#8 ∧
    laneField (encodeQ opc a b c d) 8 = a ∧ laneField (encodeQ opc a b c d) 12 = b ∧
    laneField (encodeQ opc a b c d) 16 = c ∧ laneField (encodeQ opc a b c d) 20 = d := by
  have key : ∀ (z o : BitVec 8) (a b c d : BitVec 4),
      (z ++ d ++ c ++ b ++ a ++ o).extractLsb' 0 8 = o ∧ (z ++ d ++ c ++ b ++ a ++ o).extractLsb' 24 8 = z ∧
      (z ++ d ++ c ++ b ++ a ++ o).extractLsb' 8 4 = a ∧ (z ++ d ++ c ++ b ++ a ++ o).extractLsb' 12 4 = b ∧
      (z ++ d ++ c ++ b ++ a ++ o).extractLsb' 16 4 = c ∧ (z ++ d ++ c ++ b ++ a ++ o).extractLsb' 20 4 = d := by
    intro z o a b c d
    refine ⟨?_, ?_, ?_, ?_, ?_, ?_⟩ <;>
      (apply BitVec.eq_of_getLsbD_eq; intro i hi
       simp only [BitVec.getLsbD_extractLsb', BitVec.getLsbD_append]; interval_cases i <;> simp)
  obtain ⟨h1, h2, h3, h4, h5, h6⟩ := key 0#8 opc (BitVec.ofFin a) (BitVec.ofFin b) (BitVec.ofFin c) (BitVec.ofFin d)
  unfold encodeQ laneField opcField
  rw [h1, h2, h3, h4, h5, h6]
  simp

/-! ### What each format's decoder answers -/

theorem decodeN_eq_instr {i j : Instr} {w : Word} {n : Nat} (h : decodeN i w = .instr j) (ho : (opcField w).toNat = n) :
    i = j ∧ w = encodeN (BitVec.ofNat 8 n) := by
  unfold decodeN at h
  split at h
  · rename_i h0
    injection h with h
    refine ⟨h, ?_⟩
    rw [word_eq_append w, h0, opcField_eq ho]
    rfl
  · cases h

theorem decodeQ_eq_instr {m : QMnemonic} {j : Instr} {w : Word} {n : Nat} (h : decodeQ m w = .instr j)
    (ho : (opcField w).toNat = n) :
    ∃ a b c d, j = m.instr a b c d ∧ w = encodeQ (BitVec.ofNat 8 n) a b c d := by
  unfold decodeQ at h
  split at h
  · rename_i h0
    injection h with h
    refine ⟨_, _, _, _, h.symm, ?_⟩
    conv_lhs => rw [word_eq_append w, upper_eq_append_q w, h0, opcField_eq ho]
    rfl
  · cases h

theorem decodeK_eq_instr {j : Instr} {w : Word} {n : Nat} (h : decodeK w = .instr j) (ho : (opcField w).toNat = n) :
    ∃ x : Fin 4, j = ksgenOfNlog x ∧ w = encodeK (BitVec.ofNat 8 n) (BitVec.ofFin (w := 2) x) := by
  unfold decodeK at h
  split at h
  · rename_i h0
    injection h with h
    refine ⟨_, h.symm, ?_⟩
    conv_lhs => rw [word_eq_append w, upper_eq_append_k w, h0, opcField_eq ho]
    rfl
  · cases h

theorem decodeP_eq_instr {j : Instr} {w : Word} {n : Nat} (h : decodeP w = .instr j) (ho : (opcField w).toNat = n) :
    ∃ x, j = .pBlock x ∧ w = encodeP (BitVec.ofNat 8 n) x := by
  unfold decodeP at h
  split at h
  · rename_i h0
    injection h with h
    refine ⟨_, h.symm, ?_⟩
    conv_lhs => rw [word_eq_append w, upper_eq_append_p w, h0, opcField_eq ho]
    rfl
  · cases h

end Sys2Proof
end

