-- ==== Sys2Proof/Laws/HostPort.lean ====
section
/-! SUPPORT. The host port and the step: which register stands at which offset, what a legal access reaches, what a host access
and the engine's turn can do, and `step_cases`, the inversion lemma of `step`. -/

namespace Sys2Proof.Machine

/-! ### The register window -/

/-- The offset of an operand register (10_state.md R20). -/
def OperandName.offset : OperandName → Nat
  | .src => 0x020
  | .dst => 0x024
  | .len => 0x028
  | .aad => 0x02C
  | .aadlen => 0x030
  | .tag => 0x034
  | .keya => 0x038
  | .noncea => 0x03C
  | .ctrlo => 0x040
  | .ctrhi => 0x044

/-- The offset of a register (10_state.md R20). -/
def HostReg.offset : HostReg → Nat
  | .id => 0x000
  | .cap => 0x004
  | .ctrl => 0x008
  | .status => 0x00C
  | .errInfo => 0x010
  | .cfg => 0x014
  | .cmd => 0x018
  | .operand o => o.offset
  | .w i => 0x080 + 4 * i.val

@[simp] theorem HostReg.atOffset_offset (r : HostReg) : HostReg.atOffset r.offset = some r := by
  cases r with
  | operand o => cases o <;> rfl
  | w i => revert i; decide
  | _ => rfl

/-- A register stands at one offset only. -/
theorem HostReg.offset_of_atOffset {off : Nat} {r : HostReg} (h : HostReg.atOffset off = some r) : off = r.offset := by
  unfold HostReg.atOffset at h
  split at h
  · rename_i ho
    injection h with h
    subst h
    have : (off - 0x080) / 4 < 16 := by omega
    simp only [HostReg.offset, Fin.ofNat, Nat.mod_eq_of_lt this]
    omega
  · split at h <;> first | (injection h with h; subst h; rfl) | cases h

theorem HostReg.offset_lt (r : HostReg) : r.offset < 0x01000 ∧ r.offset % 4 = 0 := by
  cases r with
  | operand o => cases o <;> decide
  | w i => simp only [HostReg.offset]; omega
  | _ => decide

/-- No register stands at an offset exactly when R20 does not list it. -/
theorem HostReg.atOffset_eq_none {off : Nat} : HostReg.atOffset off = none ↔ ∀ r : HostReg, off ≠ r.offset := by
  constructor
  · intro h r hr
    rw [hr, HostReg.atOffset_offset] at h
    cases h
  · intro h
    cases hr : HostReg.atOffset off with
    | none => rfl
    | some r => exact absurd (HostReg.offset_of_atOffset hr) (h r)

/-- The registers' offsets, as ranges. -/
theorem HostReg.exists_offset_iff {off : Nat} : (∃ r : HostReg, off = r.offset) ↔
    off % 4 = 0 ∧ (off ≤ 0x018 ∨ (0x020 ≤ off ∧ off ≤ 0x044) ∨ (0x080 ≤ off ∧ off ≤ 0x0BC)) := by
  constructor
  · rintro ⟨r, rfl⟩
    cases r with
    | operand o => cases o <;> decide
    | w i => simp only [HostReg.offset]; omega
    | _ => decide
  · rintro ⟨hm, h | h | h⟩
    · rcases (by omega : off = 0x000 ∨ off = 0x004 ∨ off = 0x008 ∨ off = 0x00C ∨ off = 0x010 ∨ off = 0x014 ∨ off = 0x018)
        with rfl | rfl | rfl | rfl | rfl | rfl | rfl
      exacts [⟨.id, rfl⟩, ⟨.cap, rfl⟩, ⟨.ctrl, rfl⟩, ⟨.status, rfl⟩, ⟨.errInfo, rfl⟩, ⟨.cfg, rfl⟩, ⟨.cmd, rfl⟩]
    · rcases (by omega : off = 0x020 ∨ off = 0x024 ∨ off = 0x028 ∨ off = 0x02C ∨ off = 0x030 ∨ off = 0x034 ∨ off = 0x038 ∨
          off = 0x03C ∨ off = 0x040 ∨ off = 0x044) with rfl | rfl | rfl | rfl | rfl | rfl | rfl | rfl | rfl | rfl
      exacts [⟨.operand .src, rfl⟩, ⟨.operand .dst, rfl⟩, ⟨.operand .len, rfl⟩, ⟨.operand .aad, rfl⟩, ⟨.operand .aadlen, rfl⟩,
        ⟨.operand .tag, rfl⟩, ⟨.operand .keya, rfl⟩, ⟨.operand .noncea, rfl⟩, ⟨.operand .ctrlo, rfl⟩, ⟨.operand .ctrhi, rfl⟩]
    · exact ⟨.w ⟨(off - 0x080) / 4, by omega⟩, by simp only [HostReg.offset]; omega⟩

/-! ### What an access reaches -/

theorem Width.bytes_eq_four {width : Width} : width.bytes = 4 ↔ width = .b32 := by cases width <;> decide

theorem Width.bytes_cases (width : Width) : width.bytes = 1 ∨ width.bytes = 2 ∨ width.bytes = 4 := by
  cases width <;> decide

/-- A 32-bit access at a register's offset reaches the register. -/
@[simp] theorem target_reg (p : Params) (r : HostReg) : target p r.offset .b32 = some (.reg r) := by
  simp [target, r.offset_lt]

/-- An aligned access in the DMEM window reaches its bytes (20_memory.md R61, R67). -/
theorem target_dmem (p : Params) {a : Nat} {width : Width} (h : a < p.dmemSize) (hm : (0x10000 + a) % width.bytes = 0) :
    target p (0x10000 + a) width = some (.dmem a) := by
  simp [target, h, hm, show ¬0x10000 + a < 0x01000 by omega]

/-- What a legal access reaches, read back (20_memory.md R61, R62, R67). -/
theorem target_some {p : Params} {off : Nat} {width : Width} {t : Target} (h : target p off width = some t) :
    (∃ r, t = .reg r ∧ off = r.offset ∧ width = .b32) ∨
      (∃ a, t = .dmem a ∧ off = 0x10000 + a ∧ a < p.dmemSize ∧ off % width.bytes = 0) := by
  unfold target at h
  split at h
  · split at h
    · rename_i hw
      obtain ⟨r, hr, rfl⟩ := Option.map_eq_some_iff.1 h
      exact .inl ⟨r, rfl, HostReg.offset_of_atOffset hr, hw.1⟩
    · cases h
  · split at h
    · injection h with h
      exact .inr ⟨_, h.symm, by omega, by omega, by omega⟩
    · cases h

/-- When an access reaches nothing: the bus errors of 20_memory.md R62. -/
theorem target_eq_none {p : Params} {off : Nat} {width : Width} : target p off width = none ↔
    (off < 0x01000 ∧ (width ≠ .b32 ∨ ∀ r : HostReg, off ≠ r.offset)) ∨
      (0x01000 ≤ off ∧ (off < 0x10000 ∨ 0x10000 + p.dmemSize ≤ off ∨ off % width.bytes ≠ 0)) := by
  unfold target
  by_cases h : off < 0x01000
  · have hr : off % 4 ≠ 0 → ∀ r : HostReg, off ≠ r.offset := fun hm r hr => hm (hr ▸ r.offset_lt.2)
    simp only [h, if_true, true_and, show ¬0x01000 ≤ off by omega, false_and, or_false]
    by_cases hw : width = .b32 ∧ off % 4 = 0
    · simp [hw, HostReg.atOffset_eq_none]
    · simp only [hw, if_false, true_iff]
      rcases not_and_or.1 hw with hw | hm
      · exact .inl hw
      · exact .inr (hr hm)
  · simp only [h, if_false, false_and, false_or, show 0x01000 ≤ off by omega, true_and]
    split
    · simp; omega
    · simp; omega

/-! ### Host accesses -/

theorem hostAccess_rst {s : State} (h : s.rst = true) (a : Access) : hostAccess a s = .next (accessUnderReset a s) := by
  simp only [hostAccess, h, if_true]

/-- A legal access is performed. -/
theorem hostAccess_legal {s : State} {a : Access} {t : Target} (h : s.rst = false)
    (ht : target s.params a.offset a.width = some t) : hostAccess a s = .next (a.perform t s) := by
  simp only [hostAccess, h, ht, Bool.false_eq_true, if_false]

/-- An access that reaches nothing faults (20_memory.md R62). -/
theorem hostAccess_fault {s : State} {a : Access} (h : s.rst = false) (ht : target s.params a.offset a.width = none) :
    hostAccess a s = .fault (.busError a) := by simp only [hostAccess, h, ht, Bool.false_eq_true, if_false]

/-- A read changes nothing but the port's reply and the counter of free values (20_memory.md R69 (c)). -/
theorem hostRead_frame (t : Target) (width : Width) (s : State) :
    hostRead t width s = { s with port := (hostRead t width s).port, freeCount := (hostRead t width s).freeCount } := by
  unfold hostRead; split <;> rfl

/-! ### The engine's turn and the step -/

/-- The engine's turn on a decoded command is the command's execution. -/
theorem engineTurn_instr {s : State} {i : Instr} (hb : s.busy = true) (hr : s.rst = false) (hd : decode s.cmdl = .instr i) :
    engineTurn s = exec i s := by simp only [engineTurn, hb, hr, hd, runDecoded, Bool.not_false, Bool.and_self, if_true]

/-- The engine's turn on an illegal word completes with IllegalCommand (60_exceptions.md R271). -/
theorem engineTurn_illegal {s : State} {why : IllegalReason} (hb : s.busy = true) (hr : s.rst = false)
    (hd : decode s.cmdl = .illegal why) : engineTurn s = .next (s.complete .illegalCommand) := by
  simp only [engineTurn, hb, hr, hd, runDecoded, Bool.not_false, Bool.and_self, if_true]

theorem engineTurn_idle {s : State} (h : s.busy = false ∨ s.rst = true) : engineTurn s = .next s := by
  rcases h with h | h <;> simp [engineTurn, h]

/-- What the engine's turn can do. -/
inductive TurnOutcome (s : State) : State → Prop where
  | idle (h : s.busy = false ∨ s.rst = true) : TurnOutcome s s
  | illegal (hb : s.busy = true) (hr : s.rst = false) : TurnOutcome s (s.complete .illegalCommand)
  | invalid (hb : s.busy = true) (hr : s.rst = false) (c : SubCause) : TurnOutcome s (s.complete (.invalidArgument c))
  | ran (hb : s.busy = true) (hr : s.rst = false) (i : Instr) (t : State) (h : ExecOutcome i s t) : TurnOutcome s t

/-- The engine's turn never stops, and has one of its outcomes. -/
theorem engineTurn_cases (s : State) : ∃ t, engineTurn s = .next t ∧ TurnOutcome s t := by
  by_cases h : s.busy = false ∨ s.rst = true
  · exact ⟨s, engineTurn_idle h, .idle h⟩
  · have hb : s.busy = true := by simpa using fun hb => h (.inl hb)
    have hr : s.rst = false := by simpa using fun hr => h (.inr hr)
    cases hd : decode s.cmdl with
    | illegal why => exact ⟨_, engineTurn_illegal hb hr hd, .illegal hb hr⟩
    | instr i =>
      obtain ⟨t, ht, hc⟩ := exec_ends i s
      refine ⟨t, (engineTurn_instr hb hr hd).trans ht, ?_⟩
      rcases hc with ⟨c, rfl⟩ | hc
      · exact .invalid hb hr c
      · exact .ran hb hr i t hc

theorem step_nil {s : State} (h : s.inputs = []) : step s = engineTurn s := by simp only [step, stepInput, h]

theorem step_engine {s : State} {rest : List Input} (h : s.inputs = .engine :: rest) :
    step s = engineTurn { s with inputs := rest } := by simp only [step, stepInput, h]

theorem step_access {s : State} {a : Access} {rest : List Input} (h : s.inputs = .access a :: rest) :
    step s = hostAccess a { s with inputs := rest } := by simp only [step, stepInput, h]

theorem step_rst {s : State} {level : Bool} {rest : List Input} (h : s.inputs = .rst level :: rest) :
    step s = .next (resetInput level { s with inputs := rest }) := by simp only [step, stepInput, h]

/-- A step on a legal access performs it. -/
theorem step_access_legal {s : State} {a : Access} {rest : List Input} {t : Target} (hi : s.inputs = .access a :: rest)
    (hr : s.rst = false) (ht : target s.params a.offset a.width = some t) :
    step s = .next (a.perform t { s with inputs := rest }) := (step_access hi).trans (hostAccess_legal hr ht)

/-- A step on an access that reaches nothing faults. -/
theorem step_access_fault {s : State} {a : Access} {rest : List Input} (hi : s.inputs = .access a :: rest)
    (hr : s.rst = false) (ht : target s.params a.offset a.width = none) : step s = .fault (.busError a) :=
  (step_access hi).trans (hostAccess_fault hr ht)

theorem target_reg_ofNat (p : Params) (r : HostReg) : target p (BitVec.ofNat 17 r.offset).toNat .b32 = some (.reg r) := by
  rw [BitVec.toNat_ofNat, Nat.mod_eq_of_lt (by have := r.offset_lt; omega), target_reg]

/-- A step on a 32-bit read of a register. -/
theorem step_readReg {s : State} {r : HostReg} {rest : List Input} (hr : s.rst = false)
    (hi : s.inputs = .access (.read (BitVec.ofNat 17 r.offset) .b32) :: rest) :
    step s = .next (hostRead (.reg r) .b32 { s with inputs := rest }) :=
  step_access_legal hi hr (target_reg_ofNat s.params r)

/-- A step on a 32-bit write to a register. -/
theorem step_writeReg {s : State} {r : HostReg} {v : Word} {rest : List Input} (hr : s.rst = false)
    (hi : s.inputs = .access (.write (BitVec.ofNat 17 r.offset) .b32 v) :: rest) :
    step s = .next (hostWrite (.reg r) .b32 v { s with inputs := rest }) :=
  step_access_legal hi hr (target_reg_ofNat s.params r)

/-- What a step that answers a next state did. -/
inductive StepOutcome (s : State) : State → Prop where
  | turn (u t : State) (hu : u = s ∨ ∃ rest, s.inputs = .engine :: rest ∧ u = { s with inputs := rest })
      (h : TurnOutcome u t) : StepOutcome s t
  | underReset (a : Access) (rest : List Input) (hi : s.inputs = .access a :: rest) (hr : s.rst = true) :
      StepOutcome s (accessUnderReset a { s with inputs := rest })
  | access (a : Access) (rest : List Input) (t : Target) (hi : s.inputs = .access a :: rest) (hr : s.rst = false)
      (ht : target s.params a.offset a.width = some t) : StepOutcome s (a.perform t { s with inputs := rest })
  | reset (level : Bool) (rest : List Input) (hi : s.inputs = .rst level :: rest) :
      StepOutcome s (resetInput level { s with inputs := rest })

/-- The inversion lemma of `step`: it answers a next state with one of the outcomes, or faults on a bus error of the host. -/
theorem step_cases (s : State) : (∃ t, step s = .next t ∧ StepOutcome s t) ∨
    (∃ a rest, s.inputs = .access a :: rest ∧ s.rst = false ∧ target s.params a.offset a.width = none ∧
      step s = .fault (.busError a)) := by
  cases hi : s.inputs with
  | nil =>
    obtain ⟨t, ht, hc⟩ := engineTurn_cases s
    exact .inl ⟨t, (step_nil hi).trans ht, .turn s t (.inl rfl) hc⟩
  | cons x rest =>
    cases x with
    | engine =>
      obtain ⟨t, ht, hc⟩ := engineTurn_cases { s with inputs := rest }
      exact .inl ⟨t, (step_engine hi).trans ht, .turn _ t (.inr ⟨rest, hi, rfl⟩) hc⟩
    | rst level => exact .inl ⟨_, step_rst hi, .reset level rest hi⟩
    | access a =>
      cases hr : s.rst with
      | true => exact .inl ⟨_, (step_access hi).trans (hostAccess_rst (by exact hr) a), .underReset a rest hi hr⟩
      | false =>
        cases ht : target s.params a.offset a.width with
        | none => exact .inr ⟨a, rest, rfl, rfl, ht, (step_access hi).trans (hostAccess_fault (by exact hr) ht)⟩
        | some t => exact .inl ⟨_, (step_access hi).trans (hostAccess_legal (by exact hr) ht), .access a rest t hi hr ht⟩

/-- The outcome of a step that answered `t`. -/
theorem step_outcome {s t : State} (h : step s = .next t) : StepOutcome s t := by
  rcases step_cases s with ⟨t', ht, hc⟩ | ⟨a, rest, -, -, -, hf⟩
  · rw [h] at ht
    injection ht with ht
    exact ht ▸ hc
  · rw [h] at hf
    cases hf

end Sys2Proof.Machine
end

