-- ==== Sys2Proof/Laws/PerInstr.lean ====
section
/-! SUPPORT. The family `RowSelected`: the word the encoder gives a command is selected, by match and mask, by the command's own row of
30_encoding.md R93, and by no other row. The map's match and mask columns are a second reading of the encodings, which neither the
encoder nor the decoder uses. -/

namespace Sys2Proof.Laws.RowSelected

/-- Exactly the row of R93 that the command is named in selects its word. -/
def Statement (i : Instr) : Prop := (opcodeTable.filter fun r => r.selects (encode i)).map (·.row) = [i.row]

/-- A row whose OPC is another one does not select the word. -/
theorem selects_eq_false {r : OpcodeRow} {w : Word} (hm : opcField r.mask = 0xFF#8) (h : opcField w ≠ opcField r.matchBits) :
    r.selects w = false := by
  rw [OpcodeRow.selects, beq_eq_false_iff_ne]
  intro hs
  apply h
  have ha : opcField (w &&& r.mask) = opcField w &&& opcField r.mask := BitVec.extractLsb'_and ..
  rw [← hs, ha, hm]
  exact BitVec.and_allOnes.symm

/-- Every mask of R93 takes in the whole OPC. -/
theorem opc_of_mask {r : OpcodeRow} (h : r ∈ opcodeTable) : opcField r.mask = 0xFF#8 := by
  revert r; decide

/-- The OPC and the must-be-zero bits of a format Q word. -/
theorem encodeQ_fields (opc : BitVec 8) (a b c d : Lane) :
    opcField (encodeQ opc a b c d) = opc ∧ encodeQ opc a b c d &&& 0xFF0000FF#32 = encodeN opc := by
  constructor
  · apply BitVec.eq_of_getLsbD_eq
    intro i hi
    simp only [opcField, encodeQ, BitVec.getLsbD_extractLsb', BitVec.getLsbD_append]
    simp [hi]
  · apply BitVec.eq_of_getLsbD_eq
    intro i hi
    simp only [encodeQ, encodeN, BitVec.getLsbD_and, BitVec.getLsbD_append]
    interval_cases i <;> simp

/-- Only the rows of the word's OPC can select it. -/
theorem filter_selects {w : Word} : (opcodeTable.filter fun r => r.selects w) =
    (opcodeTable.filter fun r => opcField r.matchBits == opcField w).filter fun r => r.selects w := by
  rw [List.filter_filter]
  refine List.filter_congr fun r hr => ?_
  by_cases h : opcField r.matchBits = opcField w
  · simp [h]
  · simp [selects_eq_false (opc_of_mask hr) (Ne.symm h)]

theorem nop : Statement .nop := by unfold Statement; decide

theorem qrC (a b c d : Lane) : Statement (.qrC a b c d) := by
  obtain ⟨ho, hm⟩ := encodeQ_fields 0x01#8 a b c d
  rw [Statement, filter_selects, encode, ho,
    show (opcodeTable.filter fun r => opcField r.matchBits == 0x01#8) = [⟨1, 0x00000001#32, 0xFF0000FF#32⟩] by decide]
  have hs : OpcodeRow.selects ⟨1, 0x00000001#32, 0xFF0000FF#32⟩ (encodeQ 0x01#8 a b c d) = true := by
    simp only [OpcodeRow.selects, hm]; decide
  simp [hs, Instr.row]

theorem drC : Statement .drC := by unfold Statement; decide

theorem permC : Statement .permC := by unfold Statement; decide

theorem qrS (a b c d : Lane) : Statement (.qrS a b c d) := by
  obtain ⟨ho, hm⟩ := encodeQ_fields 0x04#8 a b c d
  rw [Statement, filter_selects, encode, ho,
    show (opcodeTable.filter fun r => opcField r.matchBits == 0x04#8) = [⟨4, 0x00000004#32, 0xFF0000FF#32⟩] by decide]
  have hs : OpcodeRow.selects ⟨4, 0x00000004#32, 0xFF0000FF#32⟩ (encodeQ 0x04#8 a b c d) = true := by
    simp only [OpcodeRow.selects, hm]; decide
  simp [hs, Instr.row]

theorem drS : Statement .drS := by unfold Statement; decide

theorem permS : Statement .permS := by unfold Statement; decide

theorem ldkey : Statement .ldkey := by unfold Statement; decide

theorem setiv : Statement .setiv := by unfold Statement; decide

theorem setctr : Statement .setctr := by unfold Statement; decide

theorem reset : Statement .reset := by unfold Statement; decide

theorem ksgen1 : Statement .ksgen1 := by unfold Statement; decide

theorem ksgen2 : Statement .ksgen2 := by unfold Statement; decide

theorem ksgen4 : Statement .ksgen4 := by unfold Statement; decide

theorem ksgen8 : Statement .ksgen8 := by unfold Statement; decide

theorem update : Statement .update := by unfold Statement; decide

theorem hnonce : Statement .hnonce := by unfold Statement; decide

theorem zeroize : Statement .zeroize := by unfold Statement; decide

theorem pInit : Statement .pInit := by unfold Statement; decide

theorem pBlock (h : Bool) : Statement (.pBlock h) := by
  cases h <;> (unfold Statement; decide)

theorem pUpdate : Statement .pUpdate := by unfold Statement; decide

theorem pFinal : Statement .pFinal := by unfold Statement; decide

theorem aeadEnc : Statement .aeadEnc := by unfold Statement; decide

theorem aeadDec : Statement .aeadDec := by unfold Statement; decide

end Sys2Proof.Laws.RowSelected
end

