-- ==== Sys2Proof/Tests/Slice0.lean ====
section
/-! SUPPORT. The tests: ill-formed lines refused, each command's word decoded, single steps against 95_test_vectors.md, and for each
obligation with hypotheses a concrete state that meets them. -/

open Sys2Proof Sys2Proof.Machine Sys2Proof.Claims

namespace Sys2Proof.Tests

-- One theorem after the other: kernel evaluations that wait for each other would each hold a thread.
set_option Elab.async false

/-! ### Helpers -/

/-- A field of the next state, if there is one. -/
def after {α : Type} (r : StepResult) (f : State → α) : Option α :=
  match r with
  | .next t => some (f t)
  | .fault _ => none
  | .refused _ => none

/-- The bytes b, b + 1, … of 95_test_vectors.md's notation `00..1f`. -/
def run (b n : Nat) : List Byte := (List.range n).map fun i => BitVec.ofNat 8 (b + i)

/-- Bytes listed from an address on. -/
def cells (a : Nat) (bs : List Byte) : List Host.Cell := (List.range bs.length).map fun i => (a + i, bs.getD i 0)

/-- DMEM of the tests: `00..1f` at 0x00, the nonce `00..17` at 0x20, 16 zero bytes at 0x40, 16 × ff at 0x60, zeros at 0x80. -/
def dmem : Memory :=
  ⟨0, cells 0x00 (run 0 32) ++ cells 0x20 (run 0 24) ++ cells 0x40 (List.replicate 16 0#8) ++
    cells 0x60 (List.replicate 16 0xff#8) ++ cells 0x80 (List.replicate 16 0#8)⟩

/-- W with its first four words given and the rest 0. -/
def w4 (a b c d : Word) : CipherState := #v[a, b, c, d, 0, 0, 0, 0, 0, 0, 0, 0, 0, 0, 0, 0]

/-- Reset, with other words in W. -/
def withW (w : CipherState) : State := { State.reset with w := w }

/-- The one-bit state of 95_test_vectors.md §2.1. -/
def oneBit : State := withW (w4 1 0 0 0)

/-- A CFG value, written as the host writes it. -/
def cfgOf (v : Word) : Cfg := Cfg.ofWord v

/-- The key 00..1f loaded, nonce at 0x20, before any SETIV. -/
def keyed : State :=
  { State.reset with
    mem := dmem, kv := true, regs := { OperandRegs.reset with noncea := 0x20 },
    k := #v[0x03020100, 0x07060504, 0x0b0a0908, 0x0f0e0d0c, 0x13121110, 0x17161514, 0x1b1a1918, 0x1f1e1d1c] }

/-- The state of 95_test_vectors.md §3.1: keyed, and SETIV done. -/
def fresh : State :=
  { keyed with
    drv := .fresh,
    w := #v[0x61707865, 0x3320646e, 0x79622d32, 0x6b206574, 0x03020100, 0x07060504, 0x0b0a0908, 0x0f0e0d0c,
      0x13121110, 0x17161514, 0x1b1a1918, 0x1f1e1d1c, 0x00000000, 0x03020100, 0x07060504, 0x0b0a0908] }

/-- That state about to UPDATE 10 zero bytes at 0x40 to 0x70. -/
def streaming : State := { fresh with regs := { fresh.regs with src := 0x40, dst := 0x100, len := 10 } }

/-- A MAC in progress with r = 2, s = 2^128 − 1 (95_test_vectors.md §5.2). -/
def macActive : State :=
  { State.reset with
    mem := dmem, pr := 2, ps := BitVec.allOnes 128, pst := .active,
    regs := { OperandRegs.reset with src := 0x60, len := 5, tag := 0x200, keya := 0x00 } }

/-- A 32-byte key in K and the operands of an AEAD command with no text and no associated data. -/
def aeadReady : State := { keyed with regs := { keyed.regs with tag := 0x200, src := 0x40, dst := 0x40 } }

/-! ### Ill-formed lines are refused (30_encoding.md R92, R99) -/

theorem test_lane_a_16_refused : (AsmLine.lanes .qrC 16 0 0 0).wellFormed = false := by decide
theorem test_lane_b_16_refused : (AsmLine.lanes .qrC 0 16 0 0).wellFormed = false := by decide
theorem test_lane_c_16_refused : (AsmLine.lanes .qrS 0 0 16 0).wellFormed = false := by decide
theorem test_lane_d_16_refused : (AsmLine.lanes .qrS 0 0 0 16).wellFormed = false := by decide
theorem test_batch_3_refused : (AsmLine.ksgen 3).wellFormed = false := by decide
theorem test_batch_16_refused : (AsmLine.ksgen 16).wellFormed = false := by decide
theorem test_high_bit_2_refused : (AsmLine.pBlock 2).wellFormed = false := by decide
theorem test_repeated_lanes_accepted : (AsmLine.lanes .qrC 15 15 0 0).instr? = some (.qrC 15 15 0 0) := by decide

/-! ### Decoding, each word put together from R91 and R93: the zero field first, then the operand fields, then OPC -/

theorem test_decode_nop : decode 0b00000000000000000000000000000000#32 = .instr .nop := by decide
theorem test_decode_qrC : decode 0b00000000_0011_0010_0001_0000_00000001#32 = .instr (.qrC 0 1 2 3) := by decide
theorem test_decode_drC : decode 0b00000000000000000000000000000010#32 = .instr .drC := by decide
theorem test_decode_permC : decode 0b00000000000000000000000000000011#32 = .instr .permC := by decide
theorem test_decode_qrS : decode 0b00000000_1101_0110_0101_0100_00000100#32 = .instr (.qrS 4 5 6 13) := by decide
theorem test_decode_drS : decode 0b00000000000000000000000000000101#32 = .instr .drS := by decide
theorem test_decode_permS : decode 0b00000000000000000000000000000110#32 = .instr .permS := by decide
theorem test_decode_ldkey : decode 0b00000000000000000000000000010000#32 = .instr .ldkey := by decide
theorem test_decode_setiv : decode 0b00000000000000000000000000010001#32 = .instr .setiv := by decide
theorem test_decode_setctr : decode 0b00000000000000000000000000010010#32 = .instr .setctr := by decide
theorem test_decode_reset : decode 0b00000000000000000000000000010011#32 = .instr .reset := by decide
theorem test_decode_ksgen1 : decode 0b0000000000000000000000_00_00010100#32 = .instr .ksgen1 := by decide
theorem test_decode_ksgen2 : decode 0b0000000000000000000000_01_00010100#32 = .instr .ksgen2 := by decide
theorem test_decode_ksgen4 : decode 0b0000000000000000000000_10_00010100#32 = .instr .ksgen4 := by decide
theorem test_decode_ksgen8 : decode 0b0000000000000000000000_11_00010100#32 = .instr .ksgen8 := by decide
theorem test_decode_update : decode 0b00000000000000000000000000010101#32 = .instr .update := by decide
theorem test_decode_hnonce : decode 0b00000000000000000000000000010110#32 = .instr .hnonce := by decide
theorem test_decode_zeroize : decode 0b00000000000000000000000000010111#32 = .instr .zeroize := by decide
theorem test_decode_pInit : decode 0b00000000000000000000000000100000#32 = .instr .pInit := by decide
theorem test_decode_pBlock_0 : decode 0b00000000000000000000000_0_00100001#32 = .instr (.pBlock false) := by decide
theorem test_decode_pBlock_1 : decode 0b00000000000000000000000_1_00100001#32 = .instr (.pBlock true) := by decide
theorem test_decode_pUpdate : decode 0b00000000000000000000000000100010#32 = .instr .pUpdate := by decide
theorem test_decode_pFinal : decode 0b00000000000000000000000000100011#32 = .instr .pFinal := by decide
theorem test_decode_aeadEnc : decode 0b00000000000000000000000000110000#32 = .instr .aeadEnc := by decide
theorem test_decode_aeadDec : decode 0b00000000000000000000000000110001#32 = .instr .aeadDec := by decide

/-- 95_test_vectors.md §7.2: the illegal words, each with its reason. -/
theorem test_decode_illegal :
    decode 0x00000100 = .illegal .mustBeZero ∧ decode 0x00000414 = .illegal .mustBeZero ∧
    decode 0x00000221 = .illegal .mustBeZero ∧ decode 0x01000001 = .illegal .mustBeZero ∧
    decode 0x00000007 = .illegal .reservedOpcode ∧ decode 0x00000018 = .illegal .reservedOpcode ∧
    decode 0x00000024 = .illegal .reservedOpcode ∧ decode 0x00000032 = .illegal .reservedOpcode := by decide

/-- The words of §1.3 for COLROUND.S and DIAGROUND.C, from the assembler's formula and from the encoder. -/
theorem test_encode_rounds :
    Pseudo.colroundS.expand.map encode = [0x00c84004, 0x001d9504, 0x0062ea04, 0x00b73f04] ∧
    Pseudo.diagroundC.expand.map encode = [0x00fa5001, 0x00cb6101, 0x00d87201, 0x00e94301] := by decide

theorem test_decodeTableWord : decodeTableWord 32 0x00321001 = some (.qrC 0 1 2 3) ∧ decodeTableWord 32 0x07 = none := by decide

/-! ### Single steps, the expected values from 95_test_vectors.md -/

/-- §1.1: the RFC 8439 §2.1.1 quarter round. -/
theorem test_qrC : after (exec (.qrC 0 1 2 3) (withW (w4 0x11111111 0x01020304 0x9b8d6f43 0x01234567))) (·.w) =
    some (w4 0xea2a92f4 0xcb1cf8ce 0x4581472e 0x5881c4bb) := by decide +kernel

/-- §1.1: aliased lanes 0, 1, 0, 1. -/
theorem test_qrC_aliased : after (exec (.qrC 0 1 0 1) (withW (w4 0x11111111 0x01020304 0 0))) (·.w) =
    some (w4 0xa1508538 0xdc378bc2 0 0) := by decide +kernel

/-- §1.2. -/
theorem test_qrS : after (exec (.qrS 0 1 2 3) (withW (w4 0xd3917c5b 0x55f1c407 0x52a58a7a 0x8f887a3b))) (·.w) =
    some (w4 0x3e2f308c 0xd90a8f36 0x6ab2a923 0x2883524c) := by decide +kernel

/-- §1.2: aliased lanes 0, 0, 0, 0. -/
theorem test_qrS_aliased : after (exec (.qrS 0 0 0 0) oneBit) (·.w) = some (w4 0x29444f22 0 0 0) := by decide +kernel

/-- §2.1. -/
theorem test_drC : after (exec .drC oneBit) (·.w) = some #v[0x21000001, 0x00100011, 0x10110010, 0x01090890, 0x8c08c084,
    0x08889088, 0x80890800, 0x08089801, 0x12011120, 0x89909109, 0x01111121, 0x01111201, 0x00011101, 0x11001010, 0x01881089,
    0x01100121] := by decide +kernel

/-- §2.1. -/
theorem test_drS : after (exec .drS oneBit) (·.w) = some #v[0x8186a22d, 0x0040a284, 0x82479210, 0x06929051, 0x08000090,
    0x02402200, 0x00004000, 0x00800000, 0x00010200, 0x20400000, 0x08008104, 0x00000000, 0x20500000, 0xa0000040, 0x0008180a,
    0x612a8020] := by decide +kernel

/-- §2.1: PERM.C with ROUNDS 4. -/
theorem test_permC : after (exec .permC { oneBit with cfg := cfgOf 0x00000400 }) (·.w) = some #v[0x2a10641d, 0xba614e01,
    0xcf5cfd46, 0x53f39e80, 0x7ff9a988, 0x5d7ef186, 0xb3a10622, 0x97d8c93b, 0xdec6d5d4, 0x0db08cae, 0xa0e8bfaa, 0x7497a0f1,
    0x30b14ba5, 0xc06a0c0c, 0xa30cf4fd, 0xc4987037] := by decide +kernel

/-- §2.2: ROUNDS = 19 is refused and W kept. -/
theorem test_permC_rounds : after (exec .permC { oneBit with cfg := cfgOf 0x00001300 })
    (fun t => (t.statusWord, t.errInfoWord, t.w)) = some (0x00000012#32, 0x00000006#32, oneBit.w) := by decide

/-- §2.4: PERM.S with ROUNDS 8 on the Salsa20 state. -/
theorem test_permS : after (exec .permS { State.reset with cfg := cfgOf 0x00000802, w := #v[0x61707865, 0x03020100, 0x07060504,
    0x0b0a0908, 0x0f0e0d0c, 0x3320646e, 0, 0, 0, 0, 0x79622d32, 0x13121110, 0x17161514, 0x1b1a1918, 0x1f1e1d1c, 0x6b206574] })
    (fun t => (t.w[0], t.w[10], t.w[15])) = some (0x2145c755#32, 0x7873339b#32, 0xa4ad16a5#32) := by decide +kernel

/-- §2.2: ROUNDS = 0 is refused. -/
theorem test_permS_rounds : after (exec .permS { oneBit with cfg := cfgOf 0 }) (fun t => (t.statusWord, t.errInfoWord)) =
    some (0x00000012#32, 0x00000006#32) := by decide

/-- §7.2: NOP at reset. -/
theorem test_nop : after (exec .nop State.reset) State.statusWord = some 0x00000002#32 := by decide

/-- R155: the key 00..1f. -/
theorem test_ldkey : after (exec .ldkey { State.reset with mem := dmem })
    (fun t => (t.k[0], t.k[7], t.klen, t.statusWord)) = some (0x03020100#32, 0x1f1e1d1c#32, .k32, 0x00000402#32) := by
  decide +kernel

/-- §2.5: a 16-byte key is held twice. -/
theorem test_ldkey_16 : after (exec .ldkey { State.reset with mem := dmem, cfg := cfgOf 0x00001408 })
    (fun t => (t.k[3], t.k[4], t.k[7], t.klen)) = some (0x0f0e0d0c#32, 0x03020100#32, 0x0f0e0d0c#32, .k16) := by
  decide +kernel

/-- R156 and §3.1: the IETF layout. -/
theorem test_setiv : after (exec .setiv keyed) (fun t => (t.w, t.statusWord)) = some (fresh.w, 0x00000502#32) := by
  decide +kernel

/-- §3.5: the XSalsa20 state. -/
theorem test_setiv_xn : after (exec .setiv { keyed with cfg := cfgOf 0x00001406 }) (·.w) = some #v[0x61707865, 0x7c2da5f2,
    0xbab62bea, 0x7fb032bc, 0x8724e289, 0x3320646e, 0x13121110, 0x17161514, 0, 0, 0x79622d32, 0x48c263a0, 0x41ff8410,
    0xb70f19b8, 0x1c509d83, 0x6b206574] := by decide +kernel

/-- §3.3: with ALG 0, SETCTR does not read CTRHI. -/
theorem test_setctr_ietf : after (exec .setctr { fresh with
    regs := { fresh.regs with ctrlo := 0x12345678, ctrhi := 0x9abcdef0 } }) (fun t => (t.w[12], t.w[13], t.statusWord)) =
    some (0x12345678#32, 0x03020100#32, 0x00000502#32) := by decide +kernel

/-- §3.3: with ALG 2 the counter is W8 and W9. -/
theorem test_setctr_salsa : after (exec .setctr { fresh with
    cfg := cfgOf 0x00001402, regs := { fresh.regs with ctrlo := 0x12345678, ctrhi := 0x9abcdef0 } })
    (fun t => (t.w[8], t.w[9], t.w[12])) = some (0x12345678#32, 0x9abcdef0#32, 0#32) := by decide +kernel

/-- R159: RESET in the middle of a stream. -/
theorem test_reset : after (exec .reset { fresh with drv := .streaming, ks := [1, 2, 3], w := fresh.w.set 12 2 })
    (fun t => (t.w, t.statusWord)) = some (fresh.w, 0x00000502#32) := by decide +kernel

/-- §7.1: ALG_RESERVED. -/
theorem test_reset_reserved : after (exec .reset { fresh with cfg := cfgOf 0x00001403 })
    (fun t => (t.statusWord, t.errInfoWord)) = some (0x00000512#32, 0x04#32) := by decide

/-- §3.1: the block at counter 0, its first and last bytes. -/
theorem test_ksgen1 : after (exec .ksgen1 fresh) (fun t => (t.ks.take 4, t.ks.drop 60, t.w[12])) =
    some ([0x10#8, 0x3a#8, 0xf1#8, 0x11#8], [0x62#8, 0x0d#8, 0x5f#8, 0xed#8], 1#32) := by decide +kernel

/-- §3.3: the 32-bit counter wraps between two blocks and W13 is unchanged. -/
theorem test_ksgen2_wrap : after (exec .ksgen2 { fresh with w := fresh.w.set 12 0xffffffff })
    (fun t => (t.w[12], t.w[13], t.ks.length)) = some (1#32, 0x03020100#32, 128) := by decide +kernel

/-- §3.4: KSGEN.4. -/
theorem test_ksgen4 : after (exec .ksgen4 fresh) (fun t => (t.statusWord, t.w[12])) =
    some (0x01000602#32, 4#32) := by decide +kernel

/-- R167: KSGEN.8 leaves 512 bytes and the counter at 8. -/
theorem test_ksgen8 : after (exec .ksgen8 fresh) (fun t => (t.ks.length, t.w[12])) = some (512, 8#32) := by decide +kernel

/-- §3.4: UPDATE 10 on zero bytes. -/
theorem test_update : after (exec .update streaming) (fun t => (t.mem.readBytes 0x100 10, t.statusWord, t.w[12])) =
    some ([0x10#8, 0x3a#8, 0xf1#8, 0x11#8, 0xc1#8, 0x8b#8, 0x54#8, 0x9d#8, 0x39#8, 0x24#8], 0x00360602#32, 1#32) := by
  decide +kernel

/-- §7.1: SRC = 0xFFFFFFFF with LEN = 2 does not wrap. -/
theorem test_update_range : after (exec .update { streaming with regs := { streaming.regs with src := 0xFFFFFFFF, len := 2 } })
    (fun t => (t.statusWord, t.errInfoWord)) = some (0x00000512#32, 0x10#32) := by decide

/-- §4.1 row 2: HNONCE with the nonce 00..0f. -/
theorem test_hnonce : after (exec .hnonce { keyed with regs := { keyed.regs with dst := 0x300 } })
    (fun t => (t.mem.readBytes 0x300 4, t.mem.readBytes 0x31C 4, t.statusWord)) =
    some ([0x51#8, 0xe3#8, 0xff#8, 0x45#8], [0xcb#8, 0xd3#8, 0xef#8, 0xf6#8], 0x00000402#32) := by decide +kernel

/-- §7.1: DST = 0x28 meets the nonce at 0x20. -/
theorem test_hnonce_overlap : after (exec .hnonce { keyed with regs := { keyed.regs with dst := 0x28 } })
    (fun t => (t.statusWord, t.errInfoWord)) = some (0x00000412#32, 0x20#32) := by decide

/-- §3.4: ZEROIZE. -/
theorem test_zeroize : after (exec .zeroize { streaming with ks := [1, 2] }) (fun t => (t.statusWord, t.w, t.k)) =
    some (0x00000002#32, State.reset.w, State.reset.k) := by decide

/-- §5.2: the clamp of a key of 16 × ff, and R212. -/
theorem test_pInit : after (exec .pInit { State.reset with mem := dmem, regs := { OperandRegs.reset with keya := 0x60 } })
    (fun t => (t.pr, t.statusWord)) = some (0x0ffffffc0ffffffc0ffffffc0fffffff#128, 0x00000802#32) := by decide +kernel

/-- R213: r = 2, a block of 16 × ff with H = 1 gives 3. -/
theorem test_pBlock : after (exec (.pBlock true) macActive) (fun t => (t.pacc, t.pst)) = some (3, .active) := by decide +kernel

/-- §7.1: P.BLOCK with a partial block pending. -/
theorem test_pBlock_partial : after (exec (.pBlock true) { macActive with pbuf := [1, 2] })
    (fun t => (t.statusWord, t.errInfoWord)) = some (0x00000812#32, 0x08#32) := by decide

/-- R214: 5 bytes stay in PBUF; §5.2: 16 bytes are one field operation. -/
theorem test_pUpdate : after (exec .pUpdate macActive) (fun t => (t.pacc, t.pbuf)) = some (0, List.replicate 5 0xff#8) ∧
    after (exec .pUpdate { macActive with regs := { macActive.regs with len := 16 } }) (fun t => (t.pacc, t.pbuf)) =
      some (3, []) := by decide +kernel

/-- §5.2: (3 + 2^128 − 1) mod 2^128 = 2. -/
theorem test_pFinal : after (exec .pFinal { macActive with pacc := 3 }) (fun t => (t.mem.readBytes 0x200 16, t.statusWord)) =
    some (2#8 :: List.replicate 15 0#8, 0x00001002#32) := by decide +kernel

/-- §7.1: RANGE_TAG. -/
theorem test_pFinal_range : after (exec .pFinal { macActive with regs := { macActive.regs with tag := 0xFFF8 } })
    (fun t => (t.statusWord, t.errInfoWord)) = some (0x00000812#32, 0x13#32) := by decide

/-- §6.2: the tag of the empty text with no associated data. -/
theorem test_aeadEnc : after (exec .aeadEnc { aeadReady with
    k := #v[0x83828180, 0x87868584, 0x8b8a8988, 0x8f8e8d8c, 0x93929190, 0x97969594, 0x9b9a9998, 0x9f9e9d9c],
    mem := ⟨0, cells 0x20 [0x07, 0x00, 0x00, 0x00, 0x40, 0x41, 0x42, 0x43, 0x44, 0x45, 0x46, 0x47]⟩ })
    (fun t => (t.mem.readBytes 0x200 16, t.statusWord)) =
    some ([0xa0#8, 0x78#8, 0x4d#8, 0x7a#8, 0x47#8, 0x16#8, 0xf3#8, 0xfe#8, 0xb4#8, 0xf6#8, 0x4e#8, 0x7f#8, 0x4b#8, 0x39#8,
      0xbf#8, 0x04#8], 0x00000402#32) := by decide +kernel

/-- §6.4: AEAD.ENC with ALG = 2. -/
theorem test_aeadEnc_alg : after (exec .aeadEnc { aeadReady with cfg := cfgOf 0x00001402 })
    (fun t => (t.statusWord, t.errInfoWord)) = some (0x00000412#32, 0x05#32) := by decide

/-- §6.2 and §6.4: AEAD.DEC accepts that tag, and refuses it with one bit flipped. -/
theorem test_aeadDec :
    (let s : Byte → State := fun last => { aeadReady with
      k := #v[0x83828180, 0x87868584, 0x8b8a8988, 0x8f8e8d8c, 0x93929190, 0x97969594, 0x9b9a9998, 0x9f9e9d9c],
      mem := ⟨0, cells 0x20 [0x07, 0x00, 0x00, 0x00, 0x40, 0x41, 0x42, 0x43, 0x44, 0x45, 0x46, 0x47] ++
        cells 0x200 [0xa0, 0x78, 0x4d, 0x7a, 0x47, 0x16, 0xf3, 0xfe, 0xb4, 0xf6, 0x4e, 0x7f, 0x4b, 0x39, 0xbf, last]⟩ }
     after (exec .aeadDec (s 0x04)) State.statusWord = some 0x00000402#32 ∧
     after (exec .aeadDec (s 0x05)) State.statusWord = some 0x00000422#32) := by decide +kernel

/-! ### The host port and the step -/

/-- Reset, with the host's accesses to come. -/
def host (l : List Input) : State := { State.reset with inputs := l }

/-- §7.4 trace B, step 3: a write to W0 while BUSY = 1 is dropped and sets OVR. -/
theorem test_dropped_write : after (step { host [.access (.write 0x080 .b32 0x12345678)] with busy := true })
    (fun t => (t.statusWord, t.w)) = some (0x00000005#32, State.reset.w) := by decide

/-- §7.4 trace C: `rst` while BUSY = 1. -/
theorem test_reset_abandons : after (step { host [.rst true] with busy := true, cmdl := 3, ie := true })
    (fun t => (t.statusWord, t.irq, t.cfg.word)) = some (0#32, false, 0x00001400#32) := by decide

/-- R67: a 32-bit write, and its bytes, least significant first. -/
theorem test_dmem_little_endian : after (step (host [.access (.write 0x10004 .b32 0x0a0b0c0d)]))
    (fun t => t.mem.readBytes 4 4) = some [0x0d#8, 0x0c#8, 0x0b#8, 0x0a#8] := by decide

/-- R62: a misaligned access faults. -/
theorem test_misaligned : step (host [.access (.read 0x10001 .b16)]) = .fault (.busError (.read 0x10001 .b16)) := rfl

/-- The word of a row is run by the very next step: `run` of an illegal word gives 0x00000032 (§7.2). -/
theorem test_withFetchWord : after (step (State.reset.withFetchWord 32 0x00321001)) State.statusWord = some 0x00000002#32 ∧
    after (step (State.reset.withFetchWord 32 0x000000FF)) State.statusWord = some 0x00000032#32 := by decide +kernel

/-! ### Witnesses: for each obligation with hypotheses, states and operands that meet them together -/

theorem firstOf_none {l : List (Prop × SubCause)} (h : ∀ e ∈ l, ¬e.1) : firstOf l = none := by
  induction l with
  | nil => rfl
  | cons e rest ih =>
    have h1 := h e List.mem_cons_self
    simp only [firstOf, if_neg h1]
    exact ih fun f hf => h f (List.mem_cons_of_mem _ hf)

/-- A command passes when none of its checks fails. -/
theorem passes_of {i : Instr} {s : State} (h : ∀ e ∈ checksOf s i, ¬e.1) : passes i s := firstOf_none h

/-- A next state with a property that can be computed. -/
theorem next_of {r : StepResult} {P : State → Prop} [DecidablePred P] (h : after r (fun t => decide (P t)) = some true) :
    ∃ t, r = .next t ∧ P t := by
  cases r with
  | next t => exact ⟨t, rfl, by simpa [after] using h⟩
  | fault f => simp [after] at h
  | refused f => simp [after] at h

/-- Reset with the smallest DMEM, 256 bytes, and the inputs to come. -/
def small (l : List Input) : State := { State.resetOf ⟨0, false, false⟩ with inputs := l }

/-- A command in execution, with the inputs to come. -/
def busyWith (l : List Input) : State := { host l with busy := true }

/-- Another value of CFG. -/
def withCfg (v : Word) (s : State) : State := { s with cfg := cfgOf v }

/-- The AEAD command on the 10 zero bytes at 0x40 with 3 bytes of associated data, its output to 0x100 and its tag to 0x200. -/
def sealing : State :=
  { keyed with regs := { keyed.regs with src := 0x40, dst := 0x100, len := 10, aad := 0x60, aadlen := 3, tag := 0x200 } }

/-- HNONCE from the nonce at 0x20 to 0x300, with the child nonces of both layouts at 0x400 and 0x404. -/
def expanding : State :=
  { keyed with
    mem := ⟨0, dmem.cells ++ cells 0x400 (List.replicate 4 0#8 ++ run 16 8)⟩, regs := { keyed.regs with dst := 0x300 } }

theorem reset_inv : State.reset.Inv := by
  constructor <;> decide

theorem busyWith_inv (l : List Input) : (busyWith l).Inv :=
  { reset_inv with busyQuiet := fun _ => ⟨rfl, rfl, rfl⟩, resetQuiet := fun h => by cases h }

theorem macActive_inv : macActive.Inv := by
  constructor <;> decide

theorem witness_EncodeOfDecodeIsTheWord : decode 0x00D87201 = .instr (.qrC 2 7 8 13) := by decide

/-- The boundary values of the reserved ranges, and for each format the lowest and the highest must-be-zero bit. -/
theorem witness_IllegalWordsRaiseIllegalCommand :
    ∀ w ∈ ([0x07, 0x0F, 0x18, 0x1F, 0x24, 0x2F, 0x32, 0xFF, 0x01000001, 0x80000004, 0x414, 0x80000014, 0x221, 0x80000021,
        0x100, 0x80000031, 0x110, 0x123] : List Nat),
      (let s : State := { busyWith [.engine] with cmdl := BitVec.ofNat 32 w }; let opc := s.cmdl.toNat % 256
       s.busy = true ∧ s.rst = false ∧ s.inputs = [.engine] ∧
       (((0x07 ≤ opc ∧ opc ≤ 0x0F) ∨ (0x18 ≤ opc ∧ opc ≤ 0x1F) ∨ (0x24 ≤ opc ∧ opc ≤ 0x2F) ∨ 0x32 ≤ opc) ∨
        (opc ∈ [0x01, 0x04] ∧ s.cmdl.toNat / 2 ^ 24 ≠ 0) ∨ (opc = 0x14 ∧ s.cmdl.toNat / 2 ^ 10 ≠ 0) ∨
        (opc = 0x21 ∧ s.cmdl.toNat / 2 ^ 9 ≠ 0) ∨
        (opc ∈ [0x00, 0x02, 0x03, 0x05, 0x06, 0x10, 0x11, 0x12, 0x13, 0x15, 0x16, 0x17, 0x20, 0x22, 0x23, 0x30, 0x31] ∧
          s.cmdl.toNat / 2 ^ 8 ≠ 0))) := by decide

theorem witness_WellFormedLinesAssemble :
    (AsmLine.lanes .qrS 0 15 15 7).instr? = some (.qrS 0 15 15 7) ∧ (AsmLine.ksgen 8).instr? = some .ksgen8 ∧
    (AsmLine.pBlock 1).instr? = some (.pBlock true) := by decide

theorem witness_EngineTurnRunsTheDecodedCommand :
    ∀ l ∈ [[Input.engine], []],
      (busyWith l).busy = true ∧ (busyWith l).rst = false ∧ decode (busyWith l).cmdl = .instr .nop ∧ (busyWith l).inputs = l := by
  decide

theorem witness_IdleExactlyWhenNotBusy :
    State.reset.rst = false ∧ State.reset.inputs = [] ∧ State.reset.busy = false ∧
    (busyWith []).rst = false ∧ (busyWith []).inputs = [] ∧ (busyWith []).busy = true := by decide

theorem witness_CmdWriteIssues :
    (host [.access (.write 0x018 .b32 3)]).rst = false ∧ (host [.access (.write 0x018 .b32 3)]).busy = false ∧
    (busyWith [.access (.write 0x018 .b32 3)]).rst = false ∧ (busyWith [.access (.write 0x018 .b32 3)]).busy = true ∧
    (host [.access (.read 0x018 .b32)]).inputs = [.access (.read 0x018 .b32)] := by decide

theorem witness_RunIssuesExecutesAndReports :
    (host (runInputs .update)).busy = false ∧ (host (runInputs .update)).rst = false ∧
    (host (runInputs .update)).inputs = runInputs .update ++ [] := by decide

/-- A command whose checks pass, one whose first check fails, and a MAC command in an active MAC. -/
theorem witness_FirstFailingCheckIsRaised :
    firstOf (checksOf State.reset .nop) = none ∧ firstOf (checksOf State.reset .setiv) = some .keyNotLoaded ∧
    firstOf (checksOf macActive .pFinal) = none ∧ macActive.pst ≠ .finished := by
  refine ⟨rfl, ?_, passes_of ?_, by decide⟩
  · simp [checksOf, firstOf, State.reset, State.resetOf]
  · simp [checksOf, beyond, macActive, State.reset, State.resetOf, OperandRegs.reset, Params.dmemSize, Params.dmemLog2,
      Config.reference]

theorem witness_ErrorsChangeNoOtherState :
    (∃ t, exec .setiv State.reset = .next t ∧ t.err ≠ .none) ∧
    ∃ t, step { busyWith [.engine] with cmdl := 0xFF } = .next t ∧ t.err ≠ .none := ⟨next_of (by decide), next_of (by decide)⟩

theorem witness_CommandsKeepRegistersAndInputs : ∃ t, exec (.pBlock true) macActive = .next t ∧ t.pacc = 3 :=
  next_of (by decide +kernel)

theorem witness_InterruptFollowsCompletion :
    (∃ t, exec .setiv { State.reset with ie := true } = .next t ∧ t.irq = true) ∧
    (∃ t, step { busyWith [.engine] with ie := true, cmdl := 0xFF } = .next t ∧ t.irq = true) ∧
    (∃ t, step { host [.access (.write 0x018 .b32 0)] with ie := true, done := true } = .next t ∧ t.irq = false) ∧
    ((2#32).getLsbD 1 = true ∧
      ∃ t, step { host [.access (.write 0x00C .b32 2)] with ie := true, done := true } = .next t ∧ t.irq = false) ∧
    (∃ t, step { host [.access (.write 0x008 .b32 1)] with done := true } = .next t ∧ t.irq = true) :=
  ⟨next_of (by decide), next_of (by decide), next_of (by decide), ⟨by decide, next_of (by decide)⟩, next_of (by decide)⟩

theorem witness_TiersChangeNoResult : ∃ t, exec .ksgen8 fresh = .next t ∧ t.ks.length = 512 := next_of (by decide +kernel)

/-- The boundary of each clause of R62 in a block of 256 bytes, on both sides. -/
theorem witness_StopsAreExactlyTheBusErrors :
    (∀ e ∈ ([(0x00FFC, 4), (0x01000, 4), (0x0FFFF, 1), (0x10100, 4), (0x1FFFF, 1), (0x1C, 4), (0x48, 4), (0x7C, 4), (0xC0, 4),
        (0x20, 2), (0x21, 4), (0x10001, 2), (0x10002, 4)] : List (Nat × Nat)),
      busErrorAccess (small []).params e.1 e.2) ∧
    (∀ e ∈ ([(0x00, 4), (0x18, 4), (0x20, 4), (0x44, 4), (0x80, 4), (0xBC, 4), (0x10000, 1), (0x100FF, 1), (0x100FE, 2),
        (0x100FC, 4)] : List (Nat × Nat)), ¬busErrorAccess (small []).params e.1 e.2) ∧
    step (small [.access (.read 0x10100 .b8)]) = .fault (.busError (.read 0x10100 .b8)) := by
  refine ⟨?_, ?_, rfl⟩
  · unfold busErrorAccess listedOffset; decide
  · unfold busErrorAccess listedOffset; decide

/-- The ends of each range of dropped targets, a run on which OVR stays, one that clears it, and a bus error. -/
theorem witness_WritesWhileBusyAreDropped :
    (∀ off ∈ ([0x014, 0x018, 0x020, 0x044, 0x080, 0x0BC, 0x10000, 0x100FC] : List Nat),
      droppedOffset off ∧ ¬busErrorAccess (small []).params off 4) ∧
    (∃ t, step { busyWith [.engine] with ovr := true } = .next t ∧ t.ovr = true) ∧
    (∃ t, step { busyWith [.access (.write 0x00C .b32 4)] with ovr := true } = .next t ∧ t.ovr = false) ∧
    busErrorAccess (busyWith []).params (accessOffset (.write 0x1C .b32 0)) (accessBytes (.write 0x1C .b32 0)) := by
  refine ⟨?_, next_of (by decide), next_of (by decide), ?_⟩
  · unfold droppedOffset busErrorAccess listedOffset; decide
  · unfold busErrorAccess listedOffset; decide

theorem witness_AllowedAccessesWhileBusy :
    (∀ e ∈ readableWhileBusy (busyWith []), BitVec.ofNat 17 e.1 ∈ [0x000#17, 0x004#17, 0x008#17, 0x00C#17, 0x010#17, 0x014#17,
      0x020#17, 0x024#17, 0x028#17, 0x02C#17, 0x030#17, 0x034#17, 0x038#17, 0x03C#17, 0x040#17, 0x044#17]) ∧
    (∀ l : List Input, (busyWith l).Inv ∧ (busyWith l).rst = false ∧ (busyWith l).busy = true ∧ (busyWith l).inputs = l) ∧
    (∀ off ∈ ([0x080, 0x0BC, 0x10000, 0x1FFFC] : List Nat),
      ((0x080 ≤ off ∧ off ≤ 0x0BC) ∨ 0x10000 ≤ off) ∧ ¬busErrorAccess (busyWith []).params off 4) := by
  refine ⟨by decide, fun l => ⟨busyWith_inv l, rfl, rfl, rfl⟩, ?_⟩
  unfold busErrorAccess listedOffset; decide

theorem witness_ReadsHaveNoSideEffect :
    (∃ t, step (host [.access (.read 0x080 .b32)]) = .next t ∧ t.port = .data 0) ∧ State.reset.rst = false ∧
    State.reset.busy = false := ⟨next_of (by decide), by decide, by decide⟩

theorem witness_RegisterWritesReadBack :
    ∀ l : List Input, (host l).rst = false ∧ (host l).busy = false ∧ (host l).inputs = l := fun _ => ⟨rfl, rfl, rfl⟩

theorem witness_StatusFields : State.reset.Inv ∧ (busyWith [.access (.write 0x00C .b32 6)]).Inv ∧
    (busyWith [.access (.write 0x00C .b32 6)]).rst = false ∧
    (let s : State := { host [.access (.read 0x010 .b32)] with done := true, err := .invalidArgument, errInfo := some .overlap }
     s.Inv ∧ s.rst = false ∧ s.busy = false) :=
  ⟨reset_inv, busyWith_inv _, rfl,
    { reset_inv with
      busyQuiet := fun h => (Bool.noConfusion h), infoOfInvalid := by decide, resetQuiet := fun h => (Bool.noConfusion h) },
    rfl, rfl⟩

theorem witness_CapReportsTheParameters :
    (∃ t, step { host [.rst true] with busy := true } = .next t ∧ t.rst = true) ∧
    (busyWith [.access (.read 0x004 .b32)]).rst = false ∧ (host [.access (.write 0x004 .b32 7)]).rst = false :=
  ⟨next_of (by decide), rfl, rfl⟩

/-- Each width at both ends of DMEM, and a misaligned access. -/
theorem witness_DmemWindowIsLittleEndian :
    (∀ e ∈ ([(0, 1), (255, 1), (0, 2), (254, 2), (0, 4), (252, 4), (1, 2), (254, 4)] : List (Nat × Nat)),
      e.2 ∈ [1, 2, 4] ∧ e.1 < (small []).params.dmemSize) ∧ 252 % 4 = 0 ∧ 254 % 4 ≠ 0 ∧
    (∀ l : List Input, (small l).rst = false ∧ (small l).busy = false ∧ (small l).inputs = l) :=
  ⟨by decide, by decide, by decide, fun _ => ⟨rfl, rfl, rfl⟩⟩

theorem witness_SecretsAreNotHostReadable :
    keyed.ks.length = State.reset.ks.length ∧ (∃ t, step (host [.access (.read 0x00C .b32)]) = .next t ∧ t.port = .data 0) ∧
    step (host [.access (.read 0x01C .b32)]) = .fault (.busError (.read 0x01C .b32)) :=
  ⟨by decide, next_of (by decide), rfl⟩

theorem witness_ResetGivesTheTable :
    (busyWith [.rst true]).inputs = [.rst true] ∧
    ∀ l : List Input, ({ host l with rst := true } : State).rst = true ∧ ({ host l with rst := true } : State).inputs = l :=
  ⟨rfl, fun _ => ⟨rfl, rfl⟩⟩

theorem witness_EveryStepKeepsTheInvariant :
    (∃ t, step State.reset = .next t ∧ t.busy = false) ∧ State.reset.Inv ∧
    (∃ t, step (busyWith [.engine]) = .next t ∧ t.done = true) ∧ (busyWith [.engine]).Inv :=
  ⟨next_of (by decide), reset_inv, next_of (by decide +kernel), busyWith_inv _⟩

theorem witness_QuarterRoundsOnDistinctLanes : ([0, 5, 10, 15] : List Lane).Nodup := by decide

theorem witness_PermutationsAreRepeatedDoubleRounds :
    roundsLegal oneBit ∧ roundsLegal (withCfg 0x00000400 oneBit) ∧ roundsLegal (withCfg 0x0000FC00 oneBit) := by
  unfold roundsLegal; decide

theorem witness_PermutationCommandsAreBijections : roundsLegal oneBit ∧ ([3, 4, 9, 14] : List Lane).Nodup := by
  unfold roundsLegal; decide

theorem witness_LdkeyLoadsTheKey :
    keyed.cfg.k16 = false ∧ keyed.regs.keya.toNat + 32 ≤ keyed.params.dmemSize ∧
    (withCfg 0x00001408 keyed).cfg.k16 = true ∧
    (withCfg 0x00001408 keyed).regs.keya.toNat + 16 ≤ (withCfg 0x00001408 keyed).params.dmemSize := by decide

theorem witness_SetivBuildsTheLayout :
    ∀ e ∈ [(Alg.ietf, 0x00001400#32), (.original, 0x00001401#32), (.salsa, 0x00001402#32)],
      (let s := withCfg e.2 keyed
       algIs s e.1 ∧ s.kv = true ∧ s.cfg.xn = false ∧ s.regs.noncea.toNat + nonceBytes s ≤ s.params.dmemSize) := by
  intro e he
  fin_cases he <;> exact ⟨rfl, rfl, rfl, by unfold nonceBytes; decide⟩

/-- A SETIV with XN = 1 and a DST that meets the nonce, so that HNONCE must go elsewhere. -/
def expandingX (v : Word) : State := withDst 0x28 (withCfg v expanding)

theorem setiv_passes {v : Word} (h : v = 0x00001404 ∨ v = 0x00001406) : passes .setiv (expandingX v) := passes_of (by
  rcases h with rfl | rfl <;>
  simp [checksOf, beyond, roundsLegal, nonceBytes, expandingX, expanding, keyed, State.reset, State.resetOf, withCfg, withDst,
    cfgOf, Cfg.ofWord, OperandRegs.reset, Params.dmemSize, Params.dmemLog2, Config.reference])

theorem witness_SetivExtendedBuildsTheChild :
    (algIs (expandingX 0x00001404) .ietf ∧ passes .setiv (expandingX 0x00001404) ∧ (expandingX 0x00001404).cfg.xn = true ∧
      subkeyFits (expandingX 0x00001404) 0x300) ∧
    (algIs (expandingX 0x00001406) .salsa ∧ passes .setiv (expandingX 0x00001406) ∧ (expandingX 0x00001406).cfg.xn = true ∧
      subkeyFits (expandingX 0x00001406) 0xFFE0) :=
  ⟨⟨rfl, setiv_passes (.inl rfl), rfl, by unfold subkeyFits meets; decide⟩, rfl, setiv_passes (.inr rfl), rfl,
    by unfold subkeyFits meets; decide⟩

theorem witness_CounterCommandsSetTheCounter :
    ∀ e ∈ [(Alg.ietf, 0x00001400#32), (.original, 0x00001401#32), (.salsa, 0x00001402#32)],
      algIs (withCfg e.2 fresh) e.1 ∧ (withCfg e.2 fresh).drv ≠ .unkeyed := by
  intro e he
  fin_cases he <;> exact ⟨rfl, by decide⟩

theorem witness_KsgenOneIsTheBlock :
    ∀ e ∈ [(Alg.ietf, 0x00001400#32), (.original, 0x00000801#32), (.salsa, 0x0000FC02#32)],
      algIs (withCfg e.2 fresh) e.1 ∧ (withCfg e.2 fresh).drv ≠ .unkeyed ∧ roundsLegal (withCfg e.2 fresh) := by
  intro e he
  fin_cases he <;> exact ⟨rfl, by decide, by unfold roundsLegal; decide⟩

theorem witness_KsgenBatchesAreSingleBlocks : ∀ i ∈ [Instr.ksgen1, .ksgen2, .ksgen4, .ksgen8], passes i fresh := by
  intro i hi
  refine passes_of ?_
  fin_cases hi <;> simp [checksOf, ksgenChecks, roundsLegal, fresh, keyed, State.reset, State.resetOf, Cfg.reset]

/-- Under every algorithm; with LEN = 0, with fewer and with more bytes than are pending. -/
theorem update_passes {v len : Word} (hv : v = 0x00001400 ∨ v = 0x00001401 ∨ v = 0x00001402)
    (hl : len = 0 ∨ len = 10 ∨ len = 100) :
    passes .update (withCfg v { streaming with ks := run 0 54, drv := .streaming, regs := { streaming.regs with len := len } }) :=
  passes_of (by
    rcases hv with rfl | rfl | rfl <;> rcases hl with rfl | rfl | rfl <;>
    simp [checksOf, beyond, meets, roundsLegal, streaming, fresh, keyed, State.reset, State.resetOf, withCfg, cfgOf,
      Cfg.ofWord, OperandRegs.reset, Params.dmemSize, Params.dmemLog2, Config.reference])

theorem witness_UpdateCountsItsBlocks :
    ∀ e ∈ [(Alg.ietf, 0x00001400#32), (.original, 0x00001401#32), (.salsa, 0x00001402#32)], ∀ len ∈ [0#32, 10#32, 100#32],
      (let s := withCfg e.2 { streaming with ks := run 0 54, drv := .streaming, regs := { streaming.regs with len := len } }
       algIs s e.1 ∧ passes .update s) := by
  intro e he len hl
  refine ⟨?_, update_passes ?_ (by simpa using hl)⟩ <;> fin_cases he <;> first | rfl | decide

theorem witness_UpdateXorsTheKeystream :
    algIs (withCfg 0x00001402 { streaming with ks := run 0 54, drv := .streaming }) .salsa ∧
    passes .update (withCfg 0x00001402 { streaming with ks := run 0 54, drv := .streaming }) :=
  ⟨rfl, update_passes (len := 10) (by decide) (by decide)⟩

theorem witness_UpdateSplitsAnywhere :
    passes .update (withCfg 0x00001400 { streaming with ks := run 0 54, drv := .streaming }) ∧
    (3#32).toNat + (7#32).toNat = streaming.regs.len.toNat ∧
    ∃ t, exec .update (withCfg 0x00001400 { streaming with ks := run 0 54, drv := .streaming }) = .next t ∧ t.err = .none :=
  ⟨update_passes (len := 10) (by decide) (by decide), by decide, next_of (by decide +kernel)⟩

theorem witness_UpdateIsAnInvolution :
    passes .update (withCfg 0x00001400 { streaming with ks := run 0 54, drv := .streaming }) ∧
    ∃ t, exec .update (withCfg 0x00001400 { streaming with ks := run 0 54, drv := .streaming }) = .next t ∧ t.err = .none :=
  ⟨update_passes (len := 10) (by decide) (by decide), next_of (by decide +kernel)⟩

theorem hnonce_passes {v : Word} (h : v = 0x00001400 ∨ v = 0x00001401 ∨ v = 0x00001402) :
    passes .hnonce (withCfg v expanding) := passes_of (by
  rcases h with rfl | rfl | rfl <;>
  simp [checksOf, beyond, meets, roundsLegal, expanding, keyed, State.reset, State.resetOf, withCfg, cfgOf, Cfg.ofWord,
    OperandRegs.reset, Params.dmemSize, Params.dmemLog2, Config.reference])

theorem witness_HnonceWritesTheSubkey :
    ∀ e ∈ [(Alg.ietf, 0x00001400#32), (.original, 0x00001401#32), (.salsa, 0x00001402#32)],
      (let s := withCfg e.2 expanding; let alg := e.1
       algIs s alg ∧ passes .hnonce s ∧
       (let n := s.regs.noncea.toNat
        ∃ x : CipherState, x.toList = layout (if alg = .salsa then .salsa else .ietf) (constOf .k32) s.k.toList
         (if alg = .salsa then memWord s.mem (n + 8) else memWord s.mem n) (memWord s.mem (n + 12))
         (if alg = .salsa then [memWord s.mem n, memWord s.mem (n + 4)]
          else [memWord s.mem (n + 4), memWord s.mem (n + 8), memWord s.mem (n + 12)]))) := by
  intro e he
  refine ⟨?_, hnonce_passes ?_, ⟨⟨List.toArray _, ?_⟩, rfl⟩⟩ <;> fin_cases he <;> first | rfl | decide

theorem witness_ExtendedNonceEquivalence :
    (algIs (expandingX 0x00001404) .ietf ∧ passes .setiv (expandingX 0x00001404) ∧ (expandingX 0x00001404).cfg.xn = true ∧
      subkeyFits (expandingX 0x00001404) 0x300 ∧ 0x400 + 12 ≤ (expandingX 0x00001404).params.dmemSize ∧
      ∃ h, exec .hnonce (withDst 0x300 (expandingX 0x00001404)) = .next h ∧ h.err = .none ∧
        (∀ i < 4, h.mem.read (0x400 + i) = 0) ∧ ∀ i < 8, h.mem.read (0x404 + i) = expanding.mem.read (0x30 + i)) ∧
    (algIs (expandingX 0x00001406) .salsa ∧ passes .setiv (expandingX 0x00001406) ∧ (expandingX 0x00001406).cfg.xn = true ∧
      subkeyFits (expandingX 0x00001406) 0x300 ∧ 0x404 + 8 ≤ (expandingX 0x00001406).params.dmemSize ∧
      ∃ h, exec .hnonce (withDst 0x300 (expandingX 0x00001406)) = .next h ∧ h.err = .none ∧
        ∀ i < 8, h.mem.read (0x404 + i) = expanding.mem.read (0x30 + i)) ∧
    ∀ i ∈ [Instr.setctr, .ksgen2, .reset], i ∈ [Instr.ksgen1, .ksgen2, .ksgen4, .ksgen8, .setctr, .reset] :=
  ⟨⟨rfl, setiv_passes (.inl rfl), rfl, by unfold subkeyFits meets; decide, by decide, next_of (by decide +kernel)⟩,
    ⟨rfl, setiv_passes (.inr rfl), rfl, by unfold subkeyFits meets; decide, by decide, next_of (by decide +kernel)⟩, by decide⟩

theorem witness_PInitStartsTheMac : macActive.regs.keya.toNat + 32 ≤ macActive.params.dmemSize := by decide

theorem witness_PBlockIsOneFieldOperation :
    macActive.pst = .active ∧ macActive.pbuf = [] ∧ macActive.regs.src.toNat + 16 ≤ macActive.params.dmemSize := by decide

/-- With an empty PBUF: five bytes, sixteen bytes on a block boundary, and none; and with three bytes pending. -/
theorem witness_PUpdateAbsorbsBlocks :
    macActive.Inv ∧ macActive.pst = .active ∧ macActive.pbuf = [] ∧
    (∀ n ∈ ([0, 5, 16] : List Nat), macActive.regs.src.toNat + n ≤ macActive.params.dmemSize) ∧
    (2#32).toNat + (3#32).toNat = macActive.regs.len.toNat ∧
    ({ macActive with pbuf := [1, 2, 3] } : State).Inv :=
  ⟨macActive_inv, by decide, by decide, by decide, by decide, { macActive_inv with pbufLength := by decide }⟩

/-- R214 with three bytes pending: 13 of the 16 input bytes complete the block, three bytes stay. -/
theorem test_pUpdate_pending :
    after (exec .pUpdate { macActive with pbuf := [0, 0, 0], regs := { macActive.regs with len := 16 } })
      (fun t => (t.pacc, t.pbuf)) = some ((2 ^ 128 - 2 ^ 24 + 2 ^ 128) * 2 % (2 ^ 130 - 5), [0xff, 0xff, 0xff]) := by
  decide +kernel

theorem witness_PFinalWritesTheTag :
    macActive.pst = .active ∧ macActive.regs.tag.toNat + 16 ≤ macActive.params.dmemSize := by decide

theorem witness_MacSequenceIsPolyOneShot :
    macActive.regs.keya.toNat + 32 ≤ macActive.params.dmemSize ∧
    macActive.regs.src.toNat + macActive.regs.len.toNat ≤ macActive.params.dmemSize ∧
    macActive.regs.tag.toNat + 16 ≤ macActive.params.dmemSize := by decide

theorem witness_MacMisuseStaysInItsBounds :
    ({ macActive with pst := .finished } : State).pst = .finished ∧ guardedByMac (.pBlock true) ∧ guardedByMac .pUpdate ∧
    guardedByMac .pFinal := ⟨rfl, .inl ⟨true, rfl⟩, .inr (.inl rfl), .inr (.inr rfl)⟩

theorem witness_MacAndStreamShareNoState :
    (isMac .pUpdate ∧ ∃ t, exec .pUpdate macActive = .next t ∧ t.pbuf.length = 5) ∧
    (isStream .update ∧ ∃ t, exec .update streaming = .next t ∧ t.ks.length = 54) ∧
    (∃ t, exec .zeroize streaming = .next t ∧ t.kv = false) ∧
    (isAead .aeadEnc ∧ ∃ t, exec .aeadEnc sealing = .next t ∧ t.err = .none) :=
  ⟨⟨.inr (.inr (.inl rfl)), next_of (by decide +kernel)⟩, ⟨by unfold isStream; decide, next_of (by decide +kernel)⟩,
    next_of (by decide +kernel), .inl rfl, next_of (by decide +kernel)⟩

theorem witness_AeadKeepsAllButItsOutputs :
    isAead .aeadEnc ∧ ∃ t, exec .aeadEnc sealing = .next t ∧ t.err = .none := ⟨.inl rfl, next_of (by decide +kernel)⟩

theorem sealing_passes {i : Instr} (h : isAead i) : passes i sealing := passes_of (by
  rcases h with rfl | rfl <;>
  simp [checksOf, aeadChecks, aeadOverlap, beyond, meets, sealing, keyed, State.reset, State.resetOf, Cfg.reset,
    OperandRegs.reset, Params.dmemSize, Params.dmemLog2, Config.reference])

theorem witness_AeadCiphertextIsTheStream : passes .aeadEnc sealing ∧ sealing.cfg.xn = false :=
  ⟨sealing_passes (.inl rfl), rfl⟩

theorem witness_AeadTagIsTheMac : passes .aeadEnc sealing ∧ sealing.cfg.xn = false := ⟨sealing_passes (.inl rfl), rfl⟩

/-- The key for the child: what HNONCE leaves at DST. -/
def childKey (m : Memory) (a : Nat) : KeyWords := Vector.ofFn fun i => memWord m (a + 4 * i.val)

/-- An AEAD.ENC with the extended nonce 00..17 at 0x20, the child nonce standing at 0x400, and a DST too near the end of DMEM for
HNONCE. -/
def sealingX : State := withDst 0xFFF0 (withCfg 0x00001404 { sealing with mem := expanding.mem })

theorem sealingX_passes : passes .aeadEnc sealingX := passes_of (by
  simp [checksOf, aeadChecks, aeadOverlap, beyond, meets, sealing, sealingX, keyed, State.reset, State.resetOf, withCfg, withDst, cfgOf,
    Cfg.ofWord, OperandRegs.reset, Params.dmemSize, Params.dmemLog2, Config.reference])

theorem child_passes (k : KeyWords) : passes .aeadEnc { sealingX with
    k := k, cfg := { sealingX.cfg with xn := false }, regs := { sealingX.regs with noncea := 0x400 } } := passes_of (by
  simp [checksOf, aeadChecks, aeadOverlap, beyond, meets, sealing, sealingX, keyed, State.reset, State.resetOf, withCfg, withDst, cfgOf,
    Cfg.ofWord, OperandRegs.reset, Params.dmemSize, Params.dmemLog2, Config.reference])

theorem witness_AeadExtendedNonce :
    sealingX.cfg.xn = true ∧ passes .aeadEnc sealingX ∧ subkeyFits sealingX 0x300 ∧
    ∃ (h v : State) (k : KeyWords),
      exec .hnonce (withDst 0x300 { sealingX with cfg := { sealingX.cfg with rounds := 20#8 } }) = .next h ∧
      (∀ i < 4, sealingX.mem.read (0x400 + i) = 0) ∧
      (∀ i < 8, sealingX.mem.read (0x400 + 4 + i) = sealingX.mem.read (sealingX.regs.noncea.toNat + 16 + i)) ∧
      (∀ i : Fin 8, k[i] = memWord h.mem (0x300 + 4 * i.val)) ∧
      v = { sealingX with k := k, cfg := { sealingX.cfg with xn := false }, regs := { sealingX.regs with noncea := 0x400 } } ∧
      passes .aeadEnc v := by
  obtain ⟨h, hh, -⟩ := next_of
    (r := exec .hnonce (withDst 0x300 { sealingX with cfg := { sealingX.cfg with rounds := 20#8 } }))
    (P := fun h => h.err = .none) (by decide +kernel)
  exact ⟨rfl, sealingX_passes, by unfold subkeyFits meets; decide, h, _, childKey h.mem 0x300, hh, by decide +kernel,
    by decide +kernel, by simp [childKey], rfl, child_passes _⟩

/-- Decrypting in place and to another range. -/
theorem witness_AeadDecryptsWhatItEncrypted : passes .aeadEnc sealing ∧ ∃ t, exec .aeadEnc sealing = .next t ∧
    ∀ d ∈ [0x100#32, 0x300#32], passes .aeadDec { t with regs := { t.regs with src := t.regs.dst, dst := d } } := by
  refine ⟨sealing_passes (.inl rfl), ?_⟩
  obtain ⟨t, ht, h⟩ := next_of (r := exec .aeadEnc sealing)
    (P := fun t => t.kv = true ∧ t.cfg = sealing.cfg ∧ t.klen = .k32 ∧ t.regs = sealing.regs ∧ t.params = sealing.params)
    (by decide +kernel)
  refine ⟨t, ht, fun d hd => passes_of ?_⟩
  obtain ⟨h1, h2, h3, h4, h5⟩ := h
  fin_cases hd <;>
  simp [h1, h2, h3, h4, h5, checksOf, aeadChecks, aeadOverlap, beyond, meets, sealing, keyed, State.reset, State.resetOf,
    Cfg.reset, OperandRegs.reset, Params.dmemSize, Params.dmemLog2, Config.reference]

/-- A tag that differs (sealing has no tag yet: 16 zero bytes are put there) and one that is right. -/
theorem witness_AeadDecVerifiesBeforeItWrites :
    (List.replicate 16 (0#8)).length = 16 ∧ passes .aeadDec sealing ∧
    (let s : State := { sealing with mem := ⟨0, dmem.cells ++ cells 0x200 (List.replicate 16 0#8)⟩ }
     passes .aeadDec s ∧ s.mem.readBytes s.regs.tag.toNat 16 ≠ s.aeadContext.tag
       (s.mem.readBytes s.regs.aad.toNat s.regs.aadlen.toNat) (s.mem.readBytes s.regs.src.toNat s.regs.len.toNat)) ∧
    ∃ t, exec .aeadEnc { sealing with regs := { sealing.regs with dst := 0x40 } } = .next t ∧
      t.mem.readBytes t.regs.tag.toNat 16 = t.aeadContext.tag
        (t.mem.readBytes t.regs.aad.toNat t.regs.aadlen.toNat) (t.mem.readBytes t.regs.src.toNat t.regs.len.toNat) :=
  ⟨rfl, sealing_passes (.inr rfl), ⟨sealing_passes (.inr rfl), by decide +kernel⟩, next_of (by decide +kernel)⟩

end Sys2Proof.Tests
end

section
/-! The host port on CMD and CAP (10_state.md R22, R28): what a register access does, and that no step changes the parameters. -/

open Sys2Proof Sys2Proof.Machine Sys2Proof.Claims

namespace Sys2Proof.Proofs

/-! ### Reads and writes of a legal target -/

/-- A read whose data the spec gives (R311) replies with that data and changes nothing else. -/
theorem hostRead_given {t : Target} {s : State} (h : s.busy = false ∨ t.openWhileBusy = false) (width : Width) :
    hostRead t width s = { s with port := .data (t.read s width) } := by
  rcases h with h | h <;> simp [hostRead, h]

/-- A write while BUSY = 0, or to a target that is not on R312's list, is performed. -/
theorem hostWrite_performed {t : Target} {s : State} (h : s.busy = false ∨ t.droppedWhileBusy = false) (width : Width)
    (v : Word) : hostWrite t width v s = { t.write v s width with port := .written } := by
  rcases h with h | h <;> simp [hostWrite, h]

/-- A write while BUSY = 1 to a target on R312's list is dropped, and OVR records it. -/
theorem hostWrite_dropped {t : Target} {s : State} (hb : s.busy = true) (ht : t.droppedWhileBusy = true) (width : Width)
    (v : Word) : hostWrite t width v s = { s with ovr := true, port := .written } := by
  simp [hostWrite, hb, ht]

/-! ### A step that accesses a register -/

section RegisterAccess
variable {s : State} {r : HostReg} {v : Word} {rest : List Input}

theorem step_readReg_given (hr : s.rst = false) (h : s.busy = false ∨ (Target.reg r).openWhileBusy = false)
    (hi : s.inputs = .access (.read (BitVec.ofNat 17 r.offset) .b32) :: rest) :
    step s = .next { s with inputs := rest, port := .data (r.read s) } := by
  rw [step_readReg hr hi, hostRead_given (by exact h)]
  cases r <;> rfl

theorem step_writeReg_performed (hr : s.rst = false) (h : s.busy = false ∨ (Target.reg r).droppedWhileBusy = false)
    (hi : s.inputs = .access (.write (BitVec.ofNat 17 r.offset) .b32 v) :: rest) :
    step s = .next { r.write v { s with inputs := rest } with port := .written } := by
  rw [step_writeReg hr hi, hostWrite_performed (by exact h)]
  rfl

theorem step_writeReg_dropped (hr : s.rst = false) (hb : s.busy = true) (h : (Target.reg r).droppedWhileBusy = true)
    (hi : s.inputs = .access (.write (BitVec.ofNat 17 r.offset) .b32 v) :: rest) :
    step s = .next { s with inputs := rest, ovr := true, port := .written } := by
  rw [step_writeReg hr hi, hostWrite_dropped (by exact hb) h]

end RegisterAccess

/-! ### The parameters are constant (00_scope.md R9) -/

theorem effect_params {i : Instr} {s e : State} (h : Effect i s e) : e.params = s.params := by
  cases i with
  | nop | qrC | drC | qrS | drS | zeroize | pInit => cases h; rfl
  | permC | permS | ldkey | pBlock | pUpdate => obtain ⟨-, rfl⟩ := h; rfl
  | pFinal | aeadEnc | aeadDec => obtain ⟨-, -, rfl⟩ := h; rfl
  | setiv | setctr | reset => obtain ⟨alg, -, -, rfl⟩ := h; rfl
  | ksgen1 | ksgen2 | ksgen4 | ksgen8 | hnonce => obtain ⟨alg, -, -, -, rfl⟩ := h; rfl
  | update => obtain ⟨alg, -, -, -, -, rfl⟩ := h; rfl

theorem execOutcome_params {i : Instr} {s t : State} (h : ExecOutcome i s t) : t.params = s.params := by
  cases h with
  | effect e he => exact (e.complete_params .ok).trans (effect_params he)
  | forged => rfl
  | misused => exact s.misused_params

theorem turnOutcome_params {s t : State} (h : TurnOutcome s t) : t.params = s.params := by
  cases h with
  | ran _ _ i t h => exact execOutcome_params h
  | _ => rfl

theorem writeReg_params (r : HostReg) (v : Word) (s : State) : (r.write v s).params = s.params := by
  cases r <;> rfl

theorem hostRead_params (t : Target) (width : Width) (s : State) : (hostRead t width s).params = s.params := by
  rw [hostRead_frame]

theorem hostWrite_params (t : Target) (width : Width) (v : Word) (s : State) :
    (hostWrite t width v s).params = s.params := by
  unfold hostWrite
  split
  · rfl
  · cases t with
    | reg r => exact writeReg_params r v s
    | dmem a => rfl

theorem step_params {s t : State} (h : step s = .next t) : t.params = s.params := by
  cases step_outcome h with
  | turn u t hu h =>
    rw [turnOutcome_params h]
    rcases hu with rfl | ⟨rest, -, rfl⟩ <;> rfl
  | underReset a rest => cases a <;> rfl
  | access a rest t =>
    cases a with
    | read off width => exact hostRead_params t width _
    | write off width v => exact hostWrite_params t width v _
  | reset level rest => cases level <;> rfl

/-! ### The fields of CAP -/

theorem getLsbD_of_toNat {w : Word} {i : Nat} {b : Bool} (h : w.toNat / 2 ^ i % 2 = b.toNat) : w.getLsbD i = b := by
  rw [BitVec.getLsbD, Nat.testBit_eq_decide_div_mod_eq, h]
  cases b <;> rfl

theorem dmemLog2_le (p : Params) : p.dmemLog2 ≤ 16 := by
  have := p.dmemIdx.isLt
  simp only [Params.dmemLog2]
  omega

/-- CAP as a number: each field at its place in R22's table, over the 36 parameter values that R9 admits. -/
theorem toNat_capWord (p : Params) : (capWord p).toNat =
    p.dmemLog2 * 2 ^ 8 + (Params.tier p).toNat * 2 ^ 2 + p.hasV256.toNat * 2 + p.hasV128.toNat := by
  obtain ⟨i, v128, v256⟩ := p
  revert i v128 v256
  decide

theorem toNat_tier (p : Params) :
    (Params.tier p).toNat = if p.hasV256 = true then 2 else if p.hasV128 = true then 1 else 0 := by
  unfold Params.tier
  split_ifs <;> rfl

theorem capWord_fields (p : Params) :
    (capWord p).getLsbD 0 = p.hasV128 ∧ (capWord p).getLsbD 1 = p.hasV256 ∧
    (capWord p).toNat / 2 ^ 2 % 2 ^ 2 = (Params.tier p).toNat ∧ (capWord p).toNat / 2 ^ 4 % 2 ^ 4 = 0 ∧
    (capWord p).toNat / 2 ^ 8 % 2 ^ 8 = p.dmemLog2 ∧ (capWord p).toNat / 2 ^ 16 = 0 := by
  have hl := dmemLog2_le p
  have ht := (Params.tier p).isLt
  have h128 := p.hasV128.toNat_lt
  have h256 := p.hasV256.toNat_lt
  have hw := toNat_capWord p
  refine ⟨getLsbD_of_toNat ?_, getLsbD_of_toNat ?_, ?_, ?_, ?_, ?_⟩ <;> omega

/-! ### The obligations -/

/-- Settles O9: CMD's case of the register-access rules; BUSY decides whether the write issues the word or is dropped. -/
theorem cmdWriteIssues : Obligations.CmdWriteIssues := by
  intro s v rest hr
  refine ⟨fun hi hb => ?_, fun hi hb => ?_, fun hi => ?_⟩
  · exact step_writeReg_performed (r := .cmd) hr (.inl hb) hi
  · exact step_writeReg_dropped (r := .cmd) hr hb rfl hi
  · exact step_readReg_given (r := .cmd) hr (.inr rfl) hi

/-- Settles O23: the fields are read off CAP's value as a number, and CAP is constant because the parameters are. -/
theorem capReportsTheParameters : Obligations.CapReportsTheParameters := by
  refine ⟨fun p => ?_, fun s t => ⟨fun h => ?_, fun v rest hr => ⟨fun hi => ?_, fun hi => ?_⟩⟩⟩
  · obtain ⟨h128, h256, htier, hlow, hlog, hhigh⟩ := capWord_fields p
    exact ⟨h128, h256, htier.trans (toNat_tier p), hlow, congrArg (2 ^ ·) hlog, hhigh⟩
  · rw [step_params h]
  · exact step_readReg_given (r := .cap) hr (.inr rfl) hi
  · exact step_writeReg_performed (r := .cap) hr (.inr rfl) hi

end Sys2Proof.Proofs
end

section
/-! The decoder against the opcode map (30_encoding.md R91 to R97): which words are illegal, and which row of R93 a legal word is. -/

open Sys2Proof Sys2Proof.Machine Sys2Proof.Claims

namespace Sys2Proof.Proofs

/-! ### The illegal words (30_encoding.md R94, R95) -/

/-- The lowest must-be-zero bit of the format of an OPC (R91, R93); none for a reserved OPC (R94). -/
def mustBeZeroFrom (opc : Nat) : Option Nat :=
  if opc ∈ [0x01, 0x04] then some 24
  else if opc = 0x14 then some 10
  else if opc = 0x21 then some 9
  else if opc ∈ [0x00, 0x02, 0x03, 0x05, 0x06, 0x10, 0x11, 0x12, 0x13, 0x15, 0x16, 0x17, 0x20, 0x22, 0x23, 0x30, 0x31] then some 8
  else none

/-- The ranges of R94 are reserved. -/
theorem mustBeZeroFrom_eq_none {opc : Nat} (h : (0x07 ≤ opc ∧ opc ≤ 0x0F) ∨ (0x18 ≤ opc ∧ opc ≤ 0x1F) ∨
    (0x24 ≤ opc ∧ opc ≤ 0x2F) ∨ 0x32 ≤ opc) : mustBeZeroFrom opc = none := by
  simp only [mustBeZeroFrom, List.mem_cons, List.not_mem_nil, or_false]
  repeat rw [if_neg (by omega)]

theorem mustBeZeroFrom_formatQ : ∀ opc ∈ [0x01, 0x04], mustBeZeroFrom opc = some 24 := by decide

theorem mustBeZeroFrom_formatN : ∀ opc ∈ [0x00, 0x02, 0x03, 0x05, 0x06, 0x10, 0x11, 0x12, 0x13, 0x15, 0x16, 0x17, 0x20, 0x22,
    0x23, 0x30, 0x31], mustBeZeroFrom opc = some 8 := by decide

/-- The check all four formats make: the bits from `n` up are zero. -/
theorem ite_illegal_iff {n : Nat} (hn : n ≤ 32) (w : Word) (i : Instr) :
    (∃ why, (if w.extractLsb' n (32 - n) = 0#(32 - n) then .instr i else .illegal .mustBeZero) = Decoded.illegal why) ↔
      w.toNat / 2 ^ n ≠ 0 := by
  rw [Ne, ← upper_eq_zero_iff w n hn]
  split <;> simp [*]

theorem decodeN_illegal_iff (i : Instr) (w : Word) : (∃ why, decodeN i w = .illegal why) ↔ w.toNat / 2 ^ 8 ≠ 0 :=
  ite_illegal_iff (n := 8) (by decide) w _

theorem decodeQ_illegal_iff (m : QMnemonic) (w : Word) : (∃ why, decodeQ m w = .illegal why) ↔ w.toNat / 2 ^ 24 ≠ 0 :=
  ite_illegal_iff (n := 24) (by decide) w _

theorem decodeK_illegal_iff (w : Word) : (∃ why, decodeK w = .illegal why) ↔ w.toNat / 2 ^ 10 ≠ 0 :=
  ite_illegal_iff (n := 10) (by decide) w _

theorem decodeP_illegal_iff (w : Word) : (∃ why, decodeP w = .illegal why) ↔ w.toNat / 2 ^ 9 ≠ 0 :=
  ite_illegal_iff (n := 9) (by decide) w _

/-- A word is illegal exactly when its OPC is reserved or a must-be-zero bit of its format is 1. -/
theorem decode_illegal_iff (w : Word) : (∃ why, decode w = .illegal why) ↔
    ∀ n, mustBeZeroFrom (w.toNat % 256) = some n → w.toNat / 2 ^ n ≠ 0 := by
  rw [← toNat_opcField]
  unfold decode
  split
  case h_22 => simp_all [mustBeZeroFrom]
  all_goals
    simp [mustBeZeroFrom, decodeN_illegal_iff, decodeQ_illegal_iff, decodeK_illegal_iff, decodeP_illegal_iff, *]

/-- A reserved OPC makes a word illegal (R94). -/
theorem illegal_of_reserved {w : Word} (hf : mustBeZeroFrom (w.toNat % 256) = none) : ∃ why, decode w = .illegal why :=
  (decode_illegal_iff w).2 fun n hn => by simp [hf] at hn

/-- A 1 in a must-be-zero bit makes a word illegal (R95). -/
theorem illegal_of_mustBeZero {w : Word} {m : Nat} (hf : mustBeZeroFrom (w.toNat % 256) = some m)
    (hz : w.toNat / 2 ^ m ≠ 0) : ∃ why, decode w = .illegal why :=
  (decode_illegal_iff w).2 fun n hn => by rwa [← Option.some.inj (hf.symm.trans hn)]

/-! ### The rows of the opcode map (30_encoding.md R93) -/

/-- Where a row's mask is all ones, a word that selects the row has the row's match bits. -/
theorem extractLsb'_of_selects {r : OpcodeRow} {w : Word} {lo len : Nat} (hs : r.selects w = true)
    (hm : r.mask.extractLsb' lo len = BitVec.allOnes len) : w.extractLsb' lo len = r.matchBits.extractLsb' lo len := by
  rw [← eq_of_beq hs, BitVec.extractLsb'_and, hm, BitVec.and_allOnes]

/-- Every row's OPC is assigned, and the row's mask takes in the must-be-zero bits of the OPC's format, which are 0 in its match. -/
theorem mustBeZeroFrom_of_row : ∀ r ∈ opcodeTable, ∃ n ≤ 32, mustBeZeroFrom (opcField r.matchBits).toNat = some n ∧
    r.mask.extractLsb' n (32 - n) = BitVec.allOnes (32 - n) ∧ r.matchBits.extractLsb' n (32 - n) = 0#(32 - n) := by
  decide

/-- An illegal word selects no row. -/
theorem selects_eq_false_of_illegal {w : Word} {why : IllegalReason} (hw : decode w = .illegal why) {q : OpcodeRow}
    (hq : q ∈ opcodeTable) : q.selects w = false := by
  rw [Bool.eq_false_iff]
  intro hs
  obtain ⟨n, hn, hf, hm, hz⟩ := mustBeZeroFrom_of_row q hq
  have hopc : opcField w = opcField q.matchBits := extractLsb'_of_selects hs (Laws.RowSelected.opc_of_mask hq)
  have hzero : w.toNat / 2 ^ n = 0 := (upper_eq_zero_iff w n hn).1 ((extractLsb'_of_selects hs hm).trans hz)
  rw [← hopc, toNat_opcField] at hf
  exact (decode_illegal_iff w).1 ⟨why, hw⟩ n hf hzero

/-- The format K word of a batch size is the word of its command. -/
theorem encode_ksgenOfNlog (x : Fin 4) : encode (ksgenOfNlog x) = encodeK 0x14#8 (BitVec.ofFin (w := 2) x) := by
  revert x; decide

/-- A legal word is the word of the command it decodes to: the inversion of the decoder, by OPC. -/
theorem encode_of_decode {w : Word} {i : Instr} (h : decode w = .instr i) : encode i = w := by
  unfold decode at h
  split at h
  case h_2 ho | h_5 ho =>
    obtain ⟨a, b, c, d, rfl, rfl⟩ := decodeQ_eq_instr h ho
    rfl
  case h_12 ho =>
    obtain ⟨x, rfl, rfl⟩ := decodeK_eq_instr h ho
    exact encode_ksgenOfNlog x
  case h_17 ho =>
    obtain ⟨x, rfl, rfl⟩ := decodeP_eq_instr h ho
    rfl
  case h_22 => cases h
  all_goals
    obtain ⟨rfl, rfl⟩ := decodeN_eq_instr h ‹_›
    rfl

/-- The family `RowSelected`, for every command at once. -/
theorem rowSelected : ∀ i : Instr, Laws.RowSelected.Statement i
  | .nop => Laws.RowSelected.nop
  | .qrC a b c d => Laws.RowSelected.qrC a b c d
  | .drC => Laws.RowSelected.drC
  | .permC => Laws.RowSelected.permC
  | .qrS a b c d => Laws.RowSelected.qrS a b c d
  | .drS => Laws.RowSelected.drS
  | .permS => Laws.RowSelected.permS
  | .ldkey => Laws.RowSelected.ldkey
  | .setiv => Laws.RowSelected.setiv
  | .setctr => Laws.RowSelected.setctr
  | .reset => Laws.RowSelected.reset
  | .ksgen1 => Laws.RowSelected.ksgen1
  | .ksgen2 => Laws.RowSelected.ksgen2
  | .ksgen4 => Laws.RowSelected.ksgen4
  | .ksgen8 => Laws.RowSelected.ksgen8
  | .update => Laws.RowSelected.update
  | .hnonce => Laws.RowSelected.hnonce
  | .zeroize => Laws.RowSelected.zeroize
  | .pInit => Laws.RowSelected.pInit
  | .pBlock h => Laws.RowSelected.pBlock h
  | .pUpdate => Laws.RowSelected.pUpdate
  | .pFinal => Laws.RowSelected.pFinal
  | .aeadEnc => Laws.RowSelected.aeadEnc
  | .aeadDec => Laws.RowSelected.aeadDec

/-- Exactly one row selects the word of a command: the command's own. -/
theorem unique_row_selects_encode (i : Instr) : ∃ r ∈ opcodeTable, r.selects (encode i) = true ∧
    (∀ q ∈ opcodeTable, q.selects (encode i) = true → q = r) ∧ i.row = r.row := by
  obtain ⟨r, hr, hrow⟩ := List.map_eq_singleton_iff.1 (rowSelected i)
  have hmem (q : OpcodeRow) : q ∈ opcodeTable ∧ q.selects (encode i) = true ↔ q = r :=
    List.mem_filter.symm.trans (hr ▸ List.mem_singleton)
  obtain ⟨hin, hsel⟩ := (hmem r).2 rfl
  exact ⟨r, hin, hsel, fun q hq hs => (hmem q).1 ⟨hq, hs⟩, hrow.symm⟩

/-! ### The engine's turn on an illegal word (60_exceptions.md R271) -/

theorem step_illegal {s : State} {rest : List Input} {why : IllegalReason} (hb : s.busy = true) (hr : s.rst = false)
    (hi : s.inputs = .engine :: rest) (hd : decode s.cmdl = .illegal why) :
    step s = .next { s with inputs := rest, busy := false, done := true, err := .illegalCommand, errInfo := none } :=
  (step_engine hi).trans (engineTurn_illegal (s := { s with inputs := rest }) hb hr hd)

/-! ### The obligations -/

/-- Settles O4: a legal word is its command's word, which its own row alone selects; a word that selects a row is not illegal. -/
theorem everyWordIsOneRowOrIllegal : Obligations.EveryWordIsOneRowOrIllegal := by
  intro w
  cases hw : decode w with
  | instr i =>
    obtain ⟨r, hr, hs, hu, hrow⟩ := unique_row_selects_encode i
    rw [encode_of_decode hw] at hs hu
    exact .inl ⟨r, hr, hs, hu, i, rfl, hrow⟩
  | illegal why =>
    refine .inr ⟨fun q hq => selects_eq_false_of_illegal hw hq, ?_⟩
    cases why with
    | reservedOpcode => exact .inl rfl
    | mustBeZero => exact .inr rfl

/-- Settles O5: each clause gives an OPC without a format, or a 1 among the must-be-zero bits of its OPC's format. -/
theorem illegalWordsRaiseIllegalCommand : Obligations.IllegalWordsRaiseIllegalCommand := by
  intro s rest hb hr hi hw
  have hillegal : ∃ why, decode s.cmdl = .illegal why := by
    rcases hw with hres | ⟨hopc, hz⟩ | ⟨hopc, hz⟩ | ⟨hopc, hz⟩ | ⟨hopc, hz⟩
    · exact illegal_of_reserved (mustBeZeroFrom_eq_none hres)
    · exact illegal_of_mustBeZero (mustBeZeroFrom_formatQ _ hopc) hz
    · exact illegal_of_mustBeZero (congrArg mustBeZeroFrom hopc) hz
    · exact illegal_of_mustBeZero (congrArg mustBeZeroFrom hopc) hz
    · exact illegal_of_mustBeZero (mustBeZeroFrom_formatN _ hopc) hz
  obtain ⟨why, hd⟩ := hillegal
  exact step_illegal hb hr hi hd

end Sys2Proof.Proofs
end

section
/-! The quarter-round commands (40_permutation.md R121, R122, R127, R128): each line of the rules is one update of the model. -/

open Sys2Proof Sys2Proof.Machine Sys2Proof.Claims

namespace Sys2Proof.Proofs

/-! ### What the commands leave -/

/-- A command that succeeds completes with ERR = 0 (60_exceptions.md R270). -/
theorem succeed_eq_next_doneOk (s : State) : succeed s = .next (doneOk s) := rfl

theorem exec_qrC (a b c d : Lane) (s : State) :
    exec (.qrC a b c d) s = .next (doneOk { s with w := quarterC s.w a b c d }) := succeed_eq_next_doneOk _

theorem exec_qrS (a b c d : Lane) (s : State) :
    exec (.qrS a b c d) s = .next (doneOk { s with w := quarterS s.w a b c d }) := succeed_eq_next_doneOk _

/-! ### The lines of a quarter round -/

/-- The two shifts of 00_scope.md R12 are the left rotation. -/
theorem rotl32_eq_rot {n : Nat} (hn : n < 32) (x : Word) : rotl32 x n = rot x n := by
  rw [rot, BitVec.rotateLeft_def, Nat.mod_eq_of_lt hn, rotl32]

/-- One line of R121: an addition and then a rotation that reads the sum. -/
theorem addXorRotate_eq_rot {n : Nat} (hn : n < 32) (x : CipherState) (p q r : Lane) :
    addXorRotate x p q r n =
      (x.set p (x[p] + x[q])).set r (rot ((x.set p (x[p] + x[q]))[r] ^^^ (x.set p (x[p] + x[q]))[p]) n) := by
  rw [addXorRotate, rotl32_eq_rot hn]

/-- One line of R127. -/
theorem addRotateXor_eq_rot {n : Nat} (hn : n < 32) (x : CipherState) (t p q : Lane) :
    addRotateXor x t p q n = x.set t (x[t] ^^^ rot (x[p] + x[q]) n) := by
  rw [addRotateXor, rotl32_eq_rot hn]

/-! ### The obligation -/

/-- Settles O30: the four lines of each quarter round, rotation by rotation; all rotation counts are below 32. -/
theorem quarterRoundsRunTheirLines : Obligations.QuarterRoundsRunTheirLines := by
  intro s a b c d
  constructor
  · rw [exec_qrC, quarterC, addXorRotate_eq_rot (n := 16) (by decide), addXorRotate_eq_rot (n := 12) (by decide),
      addXorRotate_eq_rot (n := 8) (by decide), addXorRotate_eq_rot (n := 7) (by decide)]
  · rw [exec_qrS, quarterS, addRotateXor_eq_rot (n := 7) (by decide), addRotateXor_eq_rot (n := 9) (by decide),
      addRotateXor_eq_rot (n := 13) (by decide), addRotateXor_eq_rot (n := 18) (by decide)]

end Sys2Proof.Proofs
end

section
/-! UPDATE's count of blocks (41_keystream.md R153, R166, R170): what its checks test, the bytes left pending, the counter. -/

open Sys2Proof Sys2Proof.Machine Sys2Proof.Claims

namespace Sys2Proof.Proofs

/-! ### What passing checks give -/

@[simp] theorem firstOf_nil : firstOf [] = none := rfl

@[simp] theorem firstOf_cons_eq_none {p : Prop} {c : SubCause} {rest : List (Prop × SubCause)} :
    firstOf ((p, c) :: rest) = none ↔ ¬p ∧ firstOf rest = none := by
  by_cases hp : p <;> simp [firstOf, hp]

theorem alg?_of_algIs {s : State} {alg : Alg} (h : algIs s alg) : s.cfg.alg? = some alg := by
  cases alg <;> simp only [algIs] at h <;> rw [Cfg.alg?, h] <;> rfl

/-- `ValidRounds` of the model is R134's condition on CFG.ROUNDS. -/
theorem validRounds_iff_roundsLegal (s : State) : validRounds s.rounds = true ↔ roundsLegal s := by
  simp [validRounds, roundsLegal, State.rounds]

/-- The overlap rule of UPDATE (20_memory.md R65): SRC and DST may intersect only when they are equal. -/
theorem update_overlap_eq_false {s : State} (h : ¬(meets s.regs.dst.toNat s.regs.len.toNat s.regs.src.toNat s.regs.len.toNat ∧
    s.regs.dst ≠ s.regs.src)) : overlap [s.dstRange] [s.srcRange, s.dstRange] = false := by
  have hsrc : s.dstRange.conflicts s.srcRange = false := by
    by_cases hin : s.regs.dst = s.regs.src
    · simp [Range.conflicts, Range.inPlace, State.dstRange, State.srcRange, hin]
    · have hapart : s.dstRange.intersects s.srcRange = false := decide_eq_false fun hm => h ⟨hm, hin⟩
      simp [Range.conflicts, hapart]
  have hdst : s.dstRange.conflicts s.dstRange = false := by simp [Range.conflicts]
  simp [overlap, hsrc, hdst]

/-- UPDATE with its checks passed: the pending bytes and R170's number of blocks are the keystream; what it does not use of
them is left pending. -/
theorem exec_update_of_passes {s : State} {alg : Alg} (ha : algIs s alg) (hp : passes .update s) :
    exec .update s =
      (let n := s.regs.len.toNat
       let g := genBlocks alg s.rounds (blocksFor s.ks.length n) s.w
       .next (doneOk (State.memWrite { s with w := g.2, ks := (s.ks ++ g.1).drop n, drv := .streaming } s.regs.dst
         (xorBytes s.srcBytes (s.ks ++ g.1))))) := by
  simp only [passes, checksOf, firstOf_cons_eq_none, beyond, Nat.not_lt, not_not] at hp
  obtain ⟨hdrv, -, hrounds, hsrc, hdst, hoverlap, -⟩ := hp
  have hlen : s.srcBytes.length = s.regs.len.toNat := Memory.length_readBytes ..
  rw [exec_update (alg?_of_algIs ha) hdrv ((validRounds_iff_roundsLegal s).2 hrounds) hsrc hdst
    (update_overlap_eq_false hoverlap), xorStream_eq, hlen]
  rfl

/-! ### The counter (41_keystream.md R153) -/

theorem pair_ofNat (v : Nat) : pair (BitVec.ofNat 32 (v / 2 ^ 32)) (BitVec.ofNat 32 v) = v % 2 ^ 64 := by
  simp only [pair, BitVec.toNat_ofNat]
  omega

/-- Setting the counter narrows it to the layout's width and keeps every other word of W. -/
theorem counterSet_ctrSet (alg : Alg) (v : Nat) (x : CipherState) : counterSet alg x (ctrSet alg v x) v := by
  have apart {i j : Fin 16} (h : i ≠ j) : j.val ≠ i.val := Fin.val_ne_of_ne h.symm
  cases alg with
  | ietf =>
    exact ⟨by simp [ctrSet], fun i h12 => Vector.getElem_set_ne (by decide) i.isLt (apart h12)⟩
  | original =>
    exact ⟨by simpa [ctrSet] using pair_ofNat v, fun i h12 h13 =>
      (Vector.getElem_set_ne (by decide) i.isLt (apart h13)).trans (Vector.getElem_set_ne (by decide) i.isLt (apart h12))⟩
  | salsa =>
    exact ⟨by simpa [ctrSet] using pair_ofNat v, fun i h8 h9 =>
      (Vector.getElem_set_ne (by decide) i.isLt (apart h9)).trans (Vector.getElem_set_ne (by decide) i.isLt (apart h8))⟩

/-- Advancing the counter is setting it to its value plus the advance. -/
theorem counterAdvanced_iff_counterSet (alg : Alg) (x y : CipherState) (g : Nat) :
    counterAdvanced alg x y g ↔ counterSet alg x y (ctrGet alg x + g) := by
  cases alg <;> rfl

theorem genBlocks_counterAdvanced (alg : Alg) (rounds g : Nat) (x : CipherState) :
    counterAdvanced alg x (genBlocks alg rounds g x).2 g := by
  rw [counterAdvanced_iff_counterSet, genBlocks_state, ctrInc_iterate]
  exact counterSet_ctrSet ..

/-! ### The bytes left pending (41_keystream.md R170) -/

theorem pending_eq_leftFor (k n : Nat) : k + 64 * blocksFor k n - n = leftFor k n := by
  rw [leftFor]
  split
  case isTrue h => rw [blocksFor, if_pos h, Nat.mul_zero, Nat.add_zero]
  case isFalse h => omega

/-! ### The obligation -/

/-- Settles O42: the keystream is the k pending bytes and 64 for each of the g blocks, and n bytes of it are used. -/
theorem updateCountsItsBlocks : Obligations.UpdateCountsItsBlocks := by
  intro s alg ha hp
  refine ⟨_, exec_update_of_passes ha hp, ?_, genBlocks_counterAdvanced ..⟩
  calc ((s.ks ++ (genBlocks alg s.rounds (blocksFor s.ks.length s.regs.len.toNat) s.w).1).drop s.regs.len.toNat).length
    _ = s.ks.length + 64 * blocksFor s.ks.length s.regs.len.toNat - s.regs.len.toNat := by
      rw [List.length_drop, List.length_append, length_genBlocks]
    _ = leftFor s.ks.length s.regs.len.toNat := pending_eq_leftFor ..

end Sys2Proof.Proofs
end

section
/-! Nonce expansion (42_nonce_expansion.md R192, R193, R195): SETIV with XN = 1 against HNONCE, LDKEY and a plain SETIV.
The subkey that HNONCE stores is the key LDKEY reads back, so both ways build one W; every keystream command then reads the same
operands. -/

open Sys2Proof Sys2Proof.Machine Sys2Proof.Claims

namespace Sys2Proof.Proofs

/-! ### The commands of both ways -/

/-- The 32 bytes of the subkey that HNONCE writes and SETIV with XN = 1 uses (R192, R193). -/
def subkeyBytes (alg : Alg) (s : State) : List Byte := hFunction alg s.k (s.memRead s.regs.noncea 16) s.rounds

@[simp] theorem length_subkeyBytes (alg : Alg) (s : State) : (subkeyBytes alg s).length = 32 := length_hFunction ..

/-- The child cipher's state that the subkey and the last 8 nonce bytes give (R192). -/
def childState (alg : Alg) (s : State) : CipherState :=
  initState alg (keyOfWords (leWords (subkeyBytes alg s))) .k32 0
    (childNonce alg (s.mem.readBytes (s.regs.noncea.toNat + 16) 8))

/-- The overlap rule of HNONCE (20_memory.md R65): DST must not meet the nonce. -/
theorem hnonce_overlap_eq_false {s : State} (h : ¬meets s.regs.dst.toNat 32 s.regs.noncea.toNat 16) :
    overlap [s.hnonceDstRange] [s.hnonceDstRange, s.nonceRange 16] = false := by
  have hself : s.hnonceDstRange.conflicts s.hnonceDstRange = false := by simp [Range.conflicts]
  have hapart : s.hnonceDstRange.intersects (s.nonceRange 16) = false := decide_eq_false h
  have hnonce : s.hnonceDstRange.conflicts (s.nonceRange 16) = false := by simp [Range.conflicts, hapart]
  simp [overlap, hself, hnonce]

/-- What the checks of SETIV with XN = 1 test (41_keystream.md R156). -/
theorem extended_of_passes_setiv {s : State} (hx : s.cfg.xn = true) (hp : passes .setiv s) :
    s.kv = true ∧ s.klen = .k32 ∧ validRounds s.rounds = true ∧ s.regs.noncea.toNat + 24 ≤ s.params.dmemSize := by
  simp only [passes, checksOf, firstOf_cons_eq_none, beyond, nonceBytes, hx, if_true, true_and, not_not, Nat.not_lt] at hp
  obtain ⟨hkv, -, -, hklen, hrounds, hnonce, -⟩ := hp
  refine ⟨by simpa using hkv, ?_, (validRounds_iff_roundsLegal s).2 hrounds, hnonce⟩
  cases h : s.klen with
  | k16 => exact absurd h hklen
  | k32 => rfl

/-- HNONCE to a fitting DST, in a state whose SETIV with XN = 1 passes its checks. -/
theorem exec_hnonce_withDst {s : State} {alg : Alg} {d : Word} (ha : algIs s alg) (hx : s.cfg.xn = true)
    (hp : passes .setiv s) (hd : subkeyFits s d) :
    exec .hnonce (withDst d s) = .next (doneOk ((withDst d s).memWrite d (subkeyBytes alg s))) := by
  obtain ⟨hkv, hklen, hrounds, hnonce⟩ := extended_of_passes_setiv hx hp
  obtain ⟨hdst, hapart⟩ := hd
  exact exec_hnonce (s := withDst d s) (alg?_of_algIs ha) hkv hklen hrounds hdst
    (Nat.le_trans (Nat.add_le_add_left (by decide) _) hnonce) (hnonce_overlap_eq_false hapart)

/-- The extended nonce is the 16 bytes HNONCE reads and the 8 bytes of n2. -/
theorem xState_eq_childState (alg : Alg) (s : State) :
    xState alg s.k (s.memRead s.regs.noncea 24) s.rounds = childState alg s := by
  have hsplit : s.memRead s.regs.noncea 24 =
      s.memRead s.regs.noncea 16 ++ s.mem.readBytes (s.regs.noncea.toNat + 16) 8 := Memory.readBytes_add _ _ 16 8
  simp only [xState, hsplit, List.take_left' (State.length_memRead ..), List.drop_left' (State.length_memRead ..),
    subkeyBytes, childState]

/-- SETIV with XN = 1 builds the child cipher's state (R192). -/
theorem exec_setiv_extended {s : State} {alg : Alg} (ha : algIs s alg) (hne : alg ≠ .original) (hx : s.cfg.xn = true)
    (hp : passes .setiv s) :
    exec .setiv s = .next (doneOk { s with w := childState alg s, ks := [], drv := .fresh }) := by
  obtain ⟨hkv, hklen, hrounds, hnonce⟩ := extended_of_passes_setiv hx hp
  have hlen : nonceLen alg s.cfg.xn = 24 := by simp [nonceLen, hx]
  rw [exec_setiv (alg?_of_algIs ha) hkv (fun _ => ⟨hne, hklen, hrounds⟩) (hlen ▸ hnonce), hlen, ivState, if_pos hx,
    xState_eq_childState, succeed_eq_next_doneOk]

/-- SETIV with XN = 0 builds the plain layout from K (41_keystream.md R156). -/
theorem exec_setiv_plain {s : State} {alg : Alg} (ha : algIs s alg) (hkv : s.kv = true) (hx : s.cfg.xn = false)
    (hn : s.regs.noncea.toNat + nonceLen alg false ≤ s.params.dmemSize) :
    exec .setiv s = .next (doneOk { s with
      w := initState alg s.k s.klen 0 (s.mem.readBytes s.regs.noncea.toNat (nonceLen alg false)), ks := [],
      drv := .fresh }) := by
  rw [exec_setiv (alg?_of_algIs ha) hkv (by simp [hx]) (hx ▸ hn), ivState, hx, if_neg Bool.false_ne_true,
    succeed_eq_next_doneOk]
  rfl

/-- LDKEY with K16 = 0 loads the words of 32 bytes of DMEM (41_keystream.md R155). -/
theorem exec_ldkey_k32 {s : State} (hk : s.cfg.k16 = false) (hr : s.regs.keya.toNat + 32 ≤ s.params.dmemSize) :
    exec .ldkey s = .next (doneOk { s with
      k := keyOfWords (leWords (s.mem.readBytes s.regs.keya.toNat 32)), klen := .k32, kv := true, ks := [],
      drv := .unkeyed }) := by
  have hlen : s.cfg.keyLen = .k32 := by simp [Cfg.keyLen, hk]
  rw [exec_ldkey (hlen ▸ hr), hlen, succeed_eq_next_doneOk]
  rfl

/-! ### The key and the nonce of the child -/

theorem memWord_eq_word (m : Memory) (a : Nat) : memWord m a = m.word a := by
  rw [Memory.word_eq_ofNat, leInt_readBytes]
  rfl

/-- A key register file read from DMEM holds the words of its range. -/
theorem getElem_keyOfWords_readBytes (m : Memory) (a : Nat) (i : Fin 8) :
    (keyOfWords (leWords (m.readBytes a 32)))[i] = memWord m (a + 4 * i.val) := by
  rw [getElem_keyOfWords, memWord_eq_word]
  exact wordAt_readBytes m a 8 i.val i.isLt

/-- The 12 bytes of the IETF child nonce: four zero bytes and n2. -/
theorem readBytes_eq_zeros_append {m m' : Memory} {a b : Nat} (hzero : ∀ i < 4, m'.read (a + i) = 0)
    (hn2 : ∀ i < 8, m'.read (a + 4 + i) = m.read (b + i)) :
    m'.readBytes a 12 = [0, 0, 0, 0] ++ m.readBytes b 8 := by
  have hz : m'.readBytes a 4 = [0, 0, 0, 0] := by
    refine List.ext_getElem (by simp) fun i hi _ => ?_
    have h4 : i < 4 := by simpa using hi
    rw [Memory.getElem_readBytes, hzero i h4]
    interval_cases i <;> rfl
  rw [Memory.readBytes_add m' a 4 8, hz, Memory.readBytes_congr hn2]

/-- Where the child nonce stands, a plain SETIV reads it (R192, R195). -/
theorem readBytes_eq_childNonce {m m' : Memory} {alg : Alg} {a b : Nat} (hne : alg ≠ .original)
    (hietf : alg = .ietf → (∀ i < 4, m'.read (a + i) = 0) ∧ ∀ i < 8, m'.read (a + 4 + i) = m.read (b + i))
    (hsalsa : alg = .salsa → ∀ i < 8, m'.read (a + i) = m.read (b + i)) :
    m'.readBytes a (nonceLen alg false) = childNonce alg (m.readBytes b 8) := by
  cases alg with
  | ietf => exact readBytes_eq_zeros_append (hietf rfl).1 (hietf rfl).2
  | original => exact absurd rfl hne
  | salsa => exact Memory.readBytes_congr (hsalsa rfl)

/-- A subkey and a child nonce that DMEM holds give the child cipher's state (R192, R195). -/
theorem initState_eq_childState {m : Memory} {alg : Alg} {s : State} {a d : Nat}
    (hsub : m.readBytes d 32 = subkeyBytes alg s)
    (hchild : m.readBytes a (nonceLen alg false) = childNonce alg (s.mem.readBytes (s.regs.noncea.toNat + 16) 8)) :
    initState alg (keyOfWords (leWords (m.readBytes d 32))) .k32 0 (m.readBytes a (nonceLen alg false)) =
      childState alg s := by
  rw [hsub, hchild, childState]

/-! ### The keystream commands that follow -/

/-- The KSGEN forms, SETCTR and RESET (R195). -/
abbrev keystreamCommands : List Instr := [.ksgen1, .ksgen2, .ksgen4, .ksgen8, .setctr, .reset]

/-- The driver of `s` is initialised, its last command succeeded, and KSGEN, SETCTR and RESET read these operands in it:
the algorithm, ROUNDS, the counter operand, W and KS. -/
structure InStream (alg : Alg) (rounds ctr : Nat) (x : CipherState) (ks : List Byte) (s : State) : Prop where
  alg : s.cfg.alg? = some alg
  rounds : s.rounds = rounds
  ctr : s.ctrOperand = ctr
  initialised : s.drv ≠ .unkeyed
  err : s.err = .none
  w : s.w = x
  ks : s.ks = ks

section
variable {alg : Alg} {rounds ctr : Nat} {x : CipherState} {ks : List Byte}

/-- A command that completes with new W, KS and DRV leaves the other operands as they are. -/
theorem InStream.keepsOperands {s : State} (h : InStream alg rounds ctr x ks s) (y : CipherState) (ks' : List Byte) {drv : Drv}
    (hd : drv ≠ .unkeyed) :
    InStream alg rounds ctr y ks' (doneOk { s with w := y, ks := ks', drv := drv }) :=
  ⟨h.alg, h.rounds, h.ctr, hd, rfl, rfl, rfl⟩

theorem InStream.after_ksgen {s : State} (h : InStream alg rounds ctr x ks s) (hr : validRounds rounds = true) (n : Nat) :
    ∃ t, ksgen n s = .next t ∧
      InStream alg rounds ctr (genBlocks alg rounds n x).2 (genBlocks alg rounds n x).1 t := by
  refine ⟨_, ksgen_pass h.alg h.initialised (h.rounds ▸ hr) n, ?_⟩
  rw [h.w, h.rounds]
  exact h.keepsOperands _ _ (by decide)

theorem InStream.after_restartAt {s : State} (h : InStream alg rounds ctr x ks s) (v : Nat) :
    InStream alg rounds ctr (ctrSet alg v x) [] (doneOk (restartAt alg v s)) := by
  rw [restartAt, h.w]
  exact h.keepsOperands _ _ (by decide)

/-- Each keystream command completes, with W and KS given by the operands it reads alone. -/
theorem exec_inStream {i : Instr} (hi : i ∈ keystreamCommands) (hr : validRounds rounds = true) (x : CipherState)
    (ks : List Byte) :
    ∃ y ks', ∀ s, InStream alg rounds ctr x ks s → ∃ t, exec i s = .next t ∧ InStream alg rounds ctr y ks' t := by
  simp only [List.mem_cons, List.not_mem_nil, or_false] at hi
  rcases hi with rfl | rfl | rfl | rfl | rfl | rfl
  · exact ⟨_, _, fun s h => h.after_ksgen hr 1⟩
  · exact ⟨_, _, fun s h => h.after_ksgen hr 2⟩
  · exact ⟨_, _, fun s h => h.after_ksgen hr 4⟩
  · exact ⟨_, _, fun s h => h.after_ksgen hr 8⟩
  · exact ⟨_, _, fun s h => ⟨_, h.ctr ▸ exec_setctr h.alg h.initialised, h.after_restartAt ctr⟩⟩
  · exact ⟨_, _, fun s h => ⟨_, exec_reset h.alg h.initialised, h.after_restartAt 0⟩⟩

theorem runAll_cons_of_exec {i : Instr} {s t : State} (h : exec i s = .next t) (is : List Instr) :
    runAll (i :: is) s = runAll is t := by
  rw [runAll, h]

/-- Every sequence of keystream commands completes, with W and KS given by the operands alone. -/
theorem runAll_inStream (hr : validRounds rounds = true) (later : List Instr) (hl : ∀ i ∈ later, i ∈ keystreamCommands)
    (x : CipherState) (ks : List Byte) :
    ∃ y ks', ∀ s, InStream alg rounds ctr x ks s →
      ∃ t, runAll later s = .next t ∧ InStream alg rounds ctr y ks' t := by
  induction later generalizing x ks with
  | nil => exact ⟨x, ks, fun s h => ⟨s, rfl, h⟩⟩
  | cons i is ih =>
    obtain ⟨y, ks', hstep⟩ := exec_inStream (alg := alg) (ctr := ctr) (hl i List.mem_cons_self) hr x ks
    obtain ⟨z, ks'', hrun⟩ := ih (fun j hj => hl j (List.mem_cons_of_mem i hj)) y ks'
    refine ⟨z, ks'', fun s h => ?_⟩
    obtain ⟨t, ht, hin⟩ := hstep s h
    rw [runAll_cons_of_exec ht]
    exact hrun t hin

/-- Two states with the same operands give the same keystream, whichever keystream commands follow. -/
theorem runAll_same_keystream {t u : State} (hr : validRounds rounds = true) (ht : InStream alg rounds ctr x ks t)
    (hu : InStream alg rounds ctr x ks u) {later : List Instr} (hl : ∀ i ∈ later, i ∈ keystreamCommands) :
    ∃ t' u', runAll later t = .next t' ∧ runAll later u = .next u' ∧ t'.err = .none ∧ u'.err = .none ∧
      u'.ks = t'.ks ∧ u'.w = t'.w := by
  obtain ⟨y, ks', hrun⟩ := runAll_inStream (alg := alg) (ctr := ctr) hr later hl x ks
  obtain ⟨t', ht', hint⟩ := hrun t ht
  obtain ⟨u', hu', hinu⟩ := hrun u hu
  exact ⟨t', u', ht', hu', hint.err, hinu.err, hinu.ks.trans hint.ks.symm, hinu.w.trans hint.w.symm⟩

end

/-! ### The obligation -/

/-- Settles O47: LDKEY reads back the subkey that HNONCE wrote, so both ways build one W, and later commands read nothing else
in which the two states differ. -/
theorem extendedNonceEquivalence : Obligations.ExtendedNonceEquivalence := by
  intro s alg a d ha hne hx hp hd hfit
  refine ⟨_, exec_hnonce_withDst ha hx hp hd, rfl, ?_⟩
  rintro ⟨hietf, hsalsa⟩
  obtain ⟨-, -, hrounds, -⟩ := extended_of_passes_setiv hx hp
  have hsub : (s.mem.writeBytes d.toNat (subkeyBytes alg s)).readBytes d.toNat 32 = subkeyBytes alg s := by
    simpa using Memory.readBytes_writeBytes_self s.mem d.toNat (subkeyBytes alg s)
  have hw := initState_eq_childState hsub (readBytes_eq_childNonce hne hietf hsalsa)
  refine ⟨_, _, _, exec_setiv_extended ha hne hx hp, rfl, exec_ldkey_k32 rfl hd.1, exec_setiv_plain ha rfl rfl hfit, rfl, hw,
    rfl, rfl, getElem_keyOfWords_readBytes _ _, fun later hl => ?_⟩
  have hdrv : Drv.fresh ≠ .unkeyed := by decide
  have ht : InStream alg s.rounds s.ctrOperand (childState alg s) []
      (doneOk { s with w := childState alg s, ks := [], drv := .fresh }) :=
    ⟨alg?_of_algIs ha, rfl, rfl, hdrv, rfl, rfl, rfl⟩
  refine runAll_same_keystream hrounds ht ?_ hl
  exact ⟨alg?_of_algIs ha, rfl, rfl, hdrv, rfl, hw, rfl⟩

end Sys2Proof.Proofs
end

section
/-! Poly1305 (43_poly1305.md R210, R211, R216): the closed form over the 16-byte chunks of a message, and the sequence P.INIT, P.UPDATE,
P.FINAL that writes it. -/

open Sys2Proof Sys2Proof.Machine Sys2Proof.Claims

namespace Sys2Proof.Proofs

/-! ### The closed form (43_poly1305.md R216) -/

theorem leInt_eq_strLE (b : List Byte) : leInt b = strLE b := leInt_eq_sum b

theorem fieldOp_blockInt (r : BitVec 128) (acc : Nat) (c : List Byte) :
    fieldOp acc (blockInt c) r = ((acc + strLE c + 2 ^ (8 * c.length)) * r.toNat) % (2 ^ 130 - 5) := by
  rw [fieldOp, blockInt, leInt_eq_strLE, Nat.add_assoc, polyPrime]

/-- A whole message absorbed: its full blocks, and then the partial block. -/
def absorbAll (r : BitVec 128) (acc : Nat) (msg : List Byte) : Nat :=
  absorbPartial r (absorb r (msg.length / 16) acc msg) (partialBlock msg)

theorem poly1305_eq_polyTag (key msg : List Byte) :
    poly1305 key msg = polyTag (absorbAll (polyR key) 0 msg) (polyS key) := rfl

@[simp] theorem absorbAll_nil (r : BitVec 128) (acc : Nat) : absorbAll r acc [] = acc := rfl

/-- A full block and a partial block are absorbed alike: one field operation on the first chunk, and then the rest. -/
theorem absorbAll_of_ne_nil (r : BitVec 128) (acc : Nat) {msg : List Byte} (h : msg ≠ []) :
    absorbAll r acc msg = absorbAll r (fieldOp acc (blockInt (msg.take 16)) r) (msg.drop 16) := by
  rcases Nat.lt_or_ge msg.length 16 with hshort | hfull
  · have hblocks : msg.length / 16 = 0 := Nat.div_eq_of_lt hshort
    have hpartial : partialBlock msg = msg := by rw [partialBlock, hblocks]; rfl
    rw [List.take_of_length_le hshort.le, List.drop_of_length_le hshort.le, absorbAll_nil, absorbAll, hpartial, hblocks,
      absorbPartial, if_neg h, absorb]
  · have hblocks : msg.length / 16 = (msg.drop 16).length / 16 + 1 := by rw [List.length_drop]; omega
    have hpartial : partialBlock msg = partialBlock (msg.drop 16) := by
      rw [partialBlock, partialBlock, hblocks, List.drop_drop, Nat.mul_add, Nat.add_comm]
    rw [absorbAll, absorbAll, hpartial, hblocks, absorb]

/-- The fold over the chunks of R216 absorbs the whole message. -/
theorem foldl_chunks_eq_absorbAll (r : BitVec 128) (n acc : Nat) (msg : List Byte) (h : msg.length ≤ n) :
    (chunks n msg).foldl (fun acc c => ((acc + strLE c + 2 ^ (8 * c.length)) * r.toNat) % (2 ^ 130 - 5)) acc =
      absorbAll r acc msg := by
  induction n generalizing acc msg with
  | zero =>
    obtain rfl : msg = [] := List.eq_nil_of_length_eq_zero (Nat.le_zero.1 h)
    rfl
  | succ n ih =>
    by_cases hm : msg = []
    · subst hm; rfl
    · have hrest : (msg.drop 16).length ≤ n := by rw [List.length_drop]; omega
      rw [chunks, if_neg hm, List.foldl_cons, ih _ _ hrest, ← fieldOp_blockInt, ← absorbAll_of_ne_nil r acc hm]

theorem polyFold_eq_absorbAll (r : BitVec 128) (acc : Nat) (msg : List Byte) :
    polyFold r.toNat acc msg = absorbAll r acc msg :=
  foldl_chunks_eq_absorbAll r msg.length acc msg (Nat.le_refl _)

/-! ### The one-time key and the tag as numbers (43_poly1305.md R210, R211) -/

theorem leInt_lt_two_pow_128 {b : List Byte} (h : b.length ≤ 16) : leInt b < 2 ^ 128 :=
  (leInt_lt b).trans_le (Nat.pow_le_pow_right (by decide) (by omega))

theorem toNat_polyR (key : List Byte) :
    (polyR key).toNat = strLE (key.take 16) &&& 0x0ffffffc0ffffffc0ffffffc0fffffff := by
  have hlt : leInt (key.take 16) < 2 ^ 128 := leInt_lt_two_pow_128 (by simp)
  rw [polyR, BitVec.toNat_and, BitVec.toNat_ofNat, Nat.mod_eq_of_lt hlt, leInt_eq_strLE]
  rfl

theorem toNat_polyS {key : List Byte} (h : key.length = 32) : (polyS key).toNat = strLE (key.drop 16) := by
  have hlen : (key.drop 16).length = 16 := by rw [List.length_drop, h]
  rw [polyS, List.take_of_length_le hlen.le, BitVec.toNat_ofNat, Nat.mod_eq_of_lt (leInt_lt_two_pow_128 hlen.le),
    leInt_eq_strLE]

/-- The one-shot tag is the closed form of R216 modulo 2^128. -/
theorem leInt_poly1305 {key : List Byte} (h : key.length = 32) (msg : List Byte) :
    leInt (poly1305 key msg) =
      (polyAcc (strLE (key.take 16) &&& 0x0ffffffc0ffffffc0ffffffc0fffffff) msg + strLE (key.drop 16)) % 2 ^ (8 * 16) := by
  rw [poly1305_eq_polyTag, polyTag, leInt_toLE, ← toNat_polyR, ← toNat_polyS h, polyAcc, polyFold_eq_absorbAll]

/-- DMEM holds a number in the bytes that read as it. -/
theorem holdsLE_of_leInt {m : Memory} {a n v : Nat} (h : leInt (m.readBytes a n) = v % 2 ^ (8 * n)) : holdsLE m a n v := by
  rw [holdsLE, memLE, ← leInt_readBytes, h]

/-! ### The sequence of commands -/

/-- P.FINAL writes the tag of what the MAC has absorbed and its partial block. -/
theorem runAll_pFinal {s : State} (hp : s.pst = .active) (htag : s.regs.tag.toNat + 16 ≤ s.params.dmemSize) :
    ∃ t, runAll [.pFinal] s = .next t ∧ t.err = .none ∧ t.pst = .finished ∧
      t.mem = s.mem.writeBytes s.regs.tag.toNat (polyTag (absorbPartial s.pr s.pacc s.pbuf) s.ps) :=
  ⟨_, runAll_cons_of_exec (exec_pFinal hp htag) [], rfl, rfl, rfl⟩

/-- From a MAC that has just started, P.UPDATE and P.FINAL write the tag of the whole message (SRC, LEN). -/
theorem runAll_pUpdate_pFinal {s : State} (hp : s.pst = .active) (hb : s.pbuf = [])
    (hsrc : s.regs.src.toNat + s.regs.len.toNat ≤ s.params.dmemSize) (htag : s.regs.tag.toNat + 16 ≤ s.params.dmemSize) :
    ∃ t, runAll [.pUpdate, .pFinal] s = .next t ∧ t.err = .none ∧ t.pst = .finished ∧
      t.mem = s.mem.writeBytes s.regs.tag.toNat (polyTag (absorbAll s.pr s.pacc s.srcBytes) s.ps) := by
  have hupdate := exec_pUpdate hp hsrc
  rw [hb, List.nil_append] at hupdate
  rw [runAll_cons_of_exec hupdate]
  exact runAll_pFinal hp htag

/-- P.INIT, P.UPDATE and P.FINAL write the one-shot tag of (SRC, LEN) under the key at KEYA. -/
theorem runAll_mac {s : State} (hkey : s.regs.keya.toNat + 32 ≤ s.params.dmemSize)
    (hsrc : s.regs.src.toNat + s.regs.len.toNat ≤ s.params.dmemSize) (htag : s.regs.tag.toNat + 16 ≤ s.params.dmemSize) :
    ∃ t, runAll [.pInit, .pUpdate, .pFinal] s = .next t ∧ t.err = .none ∧ t.pst = .finished ∧
      t.mem = s.mem.writeBytes s.regs.tag.toNat (poly1305 (s.memRead s.regs.keya 32) s.srcBytes) := by
  rw [runAll_cons_of_exec (exec_pInit hkey)]
  exact runAll_pUpdate_pFinal rfl rfl hsrc htag

/-! ### The obligation -/

/-- Settles O52: the sequence leaves the one-shot tag in the TAG range, and that tag is the closed form. -/
theorem macSequenceIsPolyOneShot : Obligations.MacSequenceIsPolyOneShot := by
  intro s hkey hsrc htag
  obtain ⟨t, hrun, herr, hpst, hmem⟩ := runAll_mac hkey hsrc htag
  have hread : t.mem.readBytes s.regs.tag.toNat 16 = poly1305 (s.memRead s.regs.keya 32) s.srcBytes := by
    rw [hmem]
    simpa only [length_poly1305] using Memory.readBytes_writeBytes_self s.mem s.regs.tag.toNat (poly1305 _ _)
  refine ⟨t, hrun, herr, hpst, hread, holdsLE_of_leInt ?_⟩
  rw [hread]
  exact leInt_poly1305 (State.length_memRead ..) s.srcBytes

end Sys2Proof.Proofs
end

section
/-! Which state the Poly1305, stream and AEAD commands share (43_poly1305.md R219). A command does not read a part of the state when
another value of the part changes nothing but that part of its outcome; from a value that is already there, the same says that the
command does not write the part. -/

open Sys2Proof Sys2Proof.Machine Sys2Proof.Claims

namespace Sys2Proof.Proofs

/-! ### Changing a part of the state under a command -/

/-- `f` changes neither CFG nor how a command completes. -/
structure Overlay (f : State → State) : Prop where
  complete : ∀ s r, f (s.complete r) = (f s).complete r
  cfg : ∀ s, (f s).cfg = s.cfg

theorem overlay_withStream (o : State) : Overlay (withStream o) := ⟨fun _ _ => rfl, fun _ => rfl⟩

theorem overlay_withMac (o : State) : Overlay (withMac o) := ⟨fun _ _ => rfl, fun _ => rfl⟩

theorem overlay_withMac_withDriver (o : State) : Overlay fun s => withMac o (withDriver o s) :=
  ⟨fun _ _ => rfl, fun _ => rfl⟩

/-- The outcome `r'` is the outcome `r` with its next state changed by `f`. -/
def Carries (f : State → State) (r r' : StepResult) : Prop := ∀ t, r = .next t → r' = .next (f t)

namespace Carries
variable {f : State → State} {s : State} {k k' : StepResult}

theorem of_next (t : State) : Carries f (.next t) (.next (f t)) := by
  rintro _ ⟨⟩
  rfl

theorem of_complete (hf : Overlay f) (e : State) (r : Result) :
    Carries f (.next (e.complete r)) (.next ((f e).complete r)) := hf.complete e r ▸ of_next _

theorem of_succeed (hf : Overlay f) (e : State) : Carries f (succeed e) (succeed (f e)) := of_complete hf e .ok

theorem of_raise (hf : Overlay f) (c : SubCause) : Carries f (raise c s) (raise c (f s)) :=
  of_complete hf s (.invalidArgument c)

theorem of_checked (hf : Overlay f) (cs : List Check) (h : Carries f k k') :
    Carries f (checked cs s k) (checked cs (f s) k') := by
  cases hc : firstFailure cs with
  | none => rw [checked_pass hc, checked_pass hc]; exact h
  | some c => rw [checked_fail hc, checked_fail hc]; exact of_raise hf c

theorem of_withAlg (hf : Overlay f) {k k' : Alg → StepResult} (h : ∀ alg, Carries f (k alg) (k' alg)) :
    Carries f (withAlg s k) (withAlg (f s) k') := by
  cases ha : s.cfg.alg? with
  | none => rw [withAlg_none ha, withAlg_none (by rw [hf.cfg, ha])]; exact of_raise hf _
  | some alg => rw [withAlg_some ha, withAlg_some (by rw [hf.cfg, ha])]; exact h alg

theorem of_ite (c : Prop) [Decidable c] {a a' b b' : StepResult} (ha : Carries f a a') (hb : Carries f b b') :
    Carries f (if c then a else b) (if c then a' else b') := by
  split
  · exact ha
  · exact hb

end Carries

/-! ### What a command does not read it does not write -/

/-- The command does not read what `f` changes. -/
def Ignores (f : State → State) (i : Instr) : Prop := ∀ s, Carries f (exec i s) (exec i (f s))

/-- Where `f` changes nothing, a command that ignores it leaves a state in which `f` changes nothing. -/
theorem Ignores.keeps {f : State → State} {i : Instr} {s t : State} (h : Ignores f i) (hs : f s = s)
    (ht : exec i s = .next t) : f t = t := by
  have hft : exec i s = .next (f t) := hs ▸ h s t ht
  exact Host.Outcome.next.inj (hft.symm.trans ht)

/-! ### The Poly1305 commands and the stream state -/

/-- MAC misuse reads and writes no stream state (R217). -/
theorem misused_withStream (o s : State) : (withStream o s).misused = withStream o s.misused := by
  unfold State.misused
  dsimp only [withStream]
  split <;> rfl

theorem carries_withActiveMac (o : State) {s : State} {k k' : StepResult} (h : Carries (withStream o) k k') :
    Carries (withStream o) (withActiveMac s k) (withActiveMac (withStream o s) k') := by
  have hpst : (withStream o s).pst = s.pst := rfl
  rw [withActiveMac, withActiveMac, hpst]
  cases s.pst with
  | idle => exact .of_raise (overlay_withStream o) _
  | active => exact h
  | finished =>
    rw [misused_withStream]
    exact .of_complete (overlay_withStream o) _ _

theorem ignores_withStream_of_isMac {i : Instr} (hi : isMac i) (o : State) : Ignores (withStream o) i := by
  have hf := overlay_withStream o
  intro s
  rcases hi with rfl | ⟨h, rfl⟩ | rfl | rfl
  · exact .of_checked hf _ (.of_succeed hf _)
  · exact carries_withActiveMac o (.of_checked hf _ (.of_succeed hf _))
  · exact carries_withActiveMac o (.of_checked hf _ (.of_succeed hf _))
  · exact carries_withActiveMac o (.of_checked hf _ (.of_succeed hf _))

/-! ### The stream commands and the Poly1305 state -/

theorem ksgen_carries_withMac (n : Nat) (o s : State) : Carries (withMac o) (ksgen n s) (ksgen n (withMac o s)) :=
  have hf := overlay_withMac o
  .of_checked hf _ (.of_withAlg hf fun _ => .of_checked hf _ (.of_succeed hf _))

theorem ignores_withMac_of_isStream {i : Instr} (hi : isStream i) (o : State) : Ignores (withMac o) i := by
  have hf := overlay_withMac o
  intro s
  simp only [isStream, List.mem_cons, List.not_mem_nil, or_false] at hi
  rcases hi with rfl | rfl | rfl | rfl | rfl | rfl | rfl | rfl | rfl
  · exact .of_checked hf _ (.of_succeed hf _)
  · exact .of_checked hf _ (.of_withAlg hf fun _ => .of_checked hf _ (.of_succeed hf _))
  · exact .of_checked hf _ (.of_withAlg hf fun _ => .of_succeed hf _)
  · exact .of_checked hf _ (.of_withAlg hf fun _ => .of_succeed hf _)
  · exact ksgen_carries_withMac 1 o s
  · exact ksgen_carries_withMac 2 o s
  · exact ksgen_carries_withMac 4 o s
  · exact ksgen_carries_withMac 8 o s
  · exact .of_checked hf _ (.of_withAlg hf fun _ => .of_checked hf _ (.of_succeed hf _))

/-! ### The AEAD commands -/

theorem ignores_withMac_withDriver_of_isAead {i : Instr} (hi : isAead i) (o : State) :
    Ignores (fun s => withMac o (withDriver o s)) i := by
  have hf := overlay_withMac_withDriver o
  intro s
  rcases hi with rfl | rfl
  · exact .of_checked hf _ (.of_withAlg hf fun _ => .of_checked hf _ (.of_succeed hf _))
  · exact .of_checked hf _ (.of_withAlg hf fun _ => .of_checked hf _ (.of_ite _ (.of_succeed hf _) (.of_complete hf _ _)))

/-- A state with the MAC state and the driver of `s` has each of the two. -/
theorem withMac_and_withDriver_eq_self {s t : State} (h : withMac s (withDriver s t) = t) :
    withMac s t = t ∧ withDriver s t = t :=
  ⟨(congrArg (withMac s) h).symm.trans h, (congrArg (withDriver s) h).symm.trans h⟩

/-! ### The obligation -/

/-- Settles O54: each family ignores the others' state, and what it ignores it keeps; ZEROIZE leaves the reset values. -/
theorem macAndStreamShareNoState : Obligations.MacAndStreamShareNoState := by
  intro i s o t h
  refine ⟨fun hi => ?_, fun hi => ?_, fun hi => ?_, fun hi => ?_⟩
  · exact ⟨(ignores_withStream_of_isMac hi s).keeps rfl h, ignores_withStream_of_isMac hi o s t h⟩
  · exact ⟨(ignores_withMac_of_isStream hi s).keeps rfl h, ignores_withMac_of_isStream hi o s t h⟩
  · subst hi
    cases h
    exact ⟨rfl, rfl⟩
  · have hboth : withMac s (withDriver s t) = t := (ignores_withMac_withDriver_of_isAead hi s).keeps rfl h
    obtain ⟨hmac, hdriver⟩ := withMac_and_withDriver_eq_self hboth
    exact ⟨hmac, hdriver, ignores_withMac_withDriver_of_isAead hi o s t h⟩

end Sys2Proof.Proofs
end

section
/-! What AEAD.ENC and AEAD.DEC change and what they do not read (44_aead.md R248, R241): the frame follows from the outcomes of
`exec_cases`; that CFG.ROUNDS and CFG.K16 do not matter follows the checks of `aeadChecked` one by one. -/

open Sys2Proof Sys2Proof.Machine Sys2Proof.Claims

namespace Sys2Proof.Proofs

/-! ### The frame -/

theorem read_writeBytes_outside (m : Memory) {a c n : Nat} {bs : List Byte} (hn : bs.length = n) (hc : ¬(a ≤ c ∧ c < a + n)) :
    (m.writeBytes a bs).read c = m.read c := by rw [Memory.read_writeBytes, hn, if_neg hc]

/-- Whatever its result, an AEAD command completes with another DMEM at most, and that differs only in its output ranges (R248). -/
theorem exec_aead_frame {i : Instr} {s t : State} (hi : isAead i) (h : exec i s = .next t) :
    ∃ m r, t = State.complete r { s with mem := m } ∧
      ∀ c, ¬(s.regs.dst.toNat ≤ c ∧ c < s.regs.dst.toNat + s.regs.len.toNat) →
        ¬(i = .aeadEnc ∧ s.regs.tag.toNat ≤ c ∧ c < s.regs.tag.toNat + 16) → m.read c = s.mem.read c := by
  have hxor : (s.aeadContext.xor s.srcBytes).length = s.regs.len.toNat := by simp [State.srcBytes]
  rcases exec_cases h with ⟨c, rfl⟩ | ⟨e, he⟩ | - | ⟨hmac, -⟩
  · exact ⟨s.mem, .invalidArgument c, rfl, fun _ _ _ => rfl⟩
  · rcases hi with rfl | rfl
    · obtain ⟨-, -, rfl⟩ := he
      refine ⟨_, .ok, rfl, fun c hdst htag => ?_⟩
      rw [State.memWrite_mem, read_writeBytes_outside _ (length_aeadTag ..) fun hc => htag ⟨rfl, hc⟩]
      exact read_writeBytes_outside _ hxor hdst
    · obtain ⟨-, -, rfl⟩ := he
      exact ⟨_, .ok, rfl, fun c hdst _ => read_writeBytes_outside _ hxor hdst⟩
  · exact ⟨s.mem, .authenticationFailure, rfl, fun _ _ _ => rfl⟩
  · rcases hi with rfl | rfl <;> cases hmac

/-! ### CFG.ROUNDS and CFG.K16 -/

/-- The same state with other CFG.ROUNDS and CFG.K16. It changes CFG, so it is no `Overlay`. -/
def withRoundsK16 (r : BitVec 8) (b : Bool) (s : State) : State := { s with cfg := { s.cfg with rounds := r, k16 := b } }

section
variable {r : BitVec 8} {b : Bool} {s : State}

theorem carries_checked_withRoundsK16 (cs : List Check) {k k' : StepResult} (h : Carries (withRoundsK16 r b) k k') :
    Carries (withRoundsK16 r b) (checked cs s k) (checked cs (withRoundsK16 r b s) k') := by
  cases hc : firstFailure cs with
  | none => rwa [checked_pass hc, checked_pass hc]
  | some c => rw [checked_fail hc, checked_fail hc]; exact .of_next _

/-- The checks of R240 read neither field. -/
theorem carries_aeadChecked_withRoundsK16 (outs : List Range) {k k' : StepResult} (h : Carries (withRoundsK16 r b) k k') :
    Carries (withRoundsK16 r b) (aeadChecked outs s k) (aeadChecked outs (withRoundsK16 r b s) k') := by
  refine carries_checked_withRoundsK16 _ ?_
  have hcfg : (withRoundsK16 r b s).cfg.alg? = s.cfg.alg? := rfl
  cases ha : s.cfg.alg? with
  | none => rw [withAlg_none ha, withAlg_none (hcfg.trans ha)]; exact .of_next _
  | some alg =>
    rw [withAlg_some ha, withAlg_some (hcfg.trans ha)]
    exact carries_checked_withRoundsK16 _ h

end

/-- Past the checks both commands run with 20 rounds and the loaded 32-byte key (R241). -/
theorem ignores_withRoundsK16_of_isAead {i : Instr} (hi : isAead i) (r : BitVec 8) (b : Bool) :
    Ignores (withRoundsK16 r b) i := by
  intro s
  rcases hi with rfl | rfl
  · exact carries_aeadChecked_withRoundsK16 _ (.of_next _)
  · exact carries_aeadChecked_withRoundsK16 _ (.of_ite _ (.of_next _) (.of_next _))

/-! ### The obligation -/

/-- Settles O55: the frame of every completion, and independence of the two fields of CFG. -/
theorem aeadKeepsAllButItsOutputs : Obligations.AeadKeepsAllButItsOutputs := by
  intro s t i hi h
  obtain ⟨m, x, rfl, hm⟩ := exec_aead_frame hi h
  exact ⟨rfl, hm, fun r b => ignores_withRoundsK16_of_isAead hi r b s _ h⟩

end Sys2Proof.Proofs
end

section
/-! How commands end (60_exceptions.md R270, R276, R279): what an error leaves as it was, and what `irq` is after a completion. Both
follow the outcomes of `exec_cases`; an engine's turn adds the illegal word. -/

open Sys2Proof Sys2Proof.Machine Sys2Proof.Claims

namespace Sys2Proof.Proofs

/-! ### What the engine's turn and a command's effect can be -/

/-- The turn of a busy engine completes an illegal word with IllegalCommand, or executes a command (R270, R271). -/
theorem step_engine_cases {s t : State} {rest : List Input} (hb : s.busy = true) (hr : s.rst = false)
    (hi : s.inputs = .engine :: rest) (h : step s = .next t) :
    t = State.complete .illegalCommand { s with inputs := rest } ∨ ∃ i, exec i { s with inputs := rest } = .next t := by
  rw [step_engine hi] at h
  cases hd : decode s.cmdl with
  | instr i => exact .inr ⟨i, (engineTurn_instr (s := { s with inputs := rest }) hb hr hd).symm.trans h⟩
  | illegal why =>
    rw [engineTurn_illegal (s := { s with inputs := rest }) hb hr hd] at h
    injection h with h
    exact .inl h.symm

/-- The state an effect can write: W, the key and the stream, the MAC state and DMEM. -/
theorem effect_frame {i : Instr} {s e : State} (h : Effect i s e) :
    e = { s with
      w := e.w, k := e.k, klen := e.klen, kv := e.kv, ks := e.ks, drv := e.drv, pr := e.pr, ps := e.ps, pacc := e.pacc,
      pbuf := e.pbuf, pst := e.pst, mem := e.mem } := by
  cases i with
  | nop | qrC | drC | qrS | drS | zeroize | pInit => cases h; rfl
  | permC | permS | ldkey | pBlock | pUpdate => obtain ⟨-, rfl⟩ := h; rfl
  | pFinal | aeadEnc | aeadDec => obtain ⟨-, -, rfl⟩ := h; rfl
  | setiv | setctr | reset => obtain ⟨alg, -, -, rfl⟩ := h; rfl
  | ksgen1 | ksgen2 | ksgen4 | ksgen8 | hnonce => obtain ⟨alg, -, -, -, rfl⟩ := h; rfl
  | update => obtain ⟨alg, -, -, -, -, rfl⟩ := h; rfl

/-! ### What an error leaves as it was (60_exceptions.md R279) -/

/-- `t` is `s` but for BUSY, DONE, ERR, ERR_INFO and the counter of free values. -/
def OnlyCompletes (s t : State) : Prop :=
  t = { s with busy := false, done := true, err := t.err, errInfo := t.errInfo, freeCount := t.freeCount }

theorem onlyCompletes_complete (r : Result) (s : State) : OnlyCompletes s (s.complete r) := rfl

/-- MAC misuse that ends with an error is the choice of R217 that raises, and that one keeps the MAC state and DMEM. -/
theorem onlyCompletes_misused {s : State} (h : (misuseResult s.freeCount).err ≠ .none) :
    OnlyCompletes s (s.misused.complete (misuseResult s.freeCount)) := by
  cases hc : Config.misuseRaises s.freeCount with
  | true =>
    have hm : s.misused = { s with freeCount := s.freeCount + 1 } := if_pos hc
    rw [hm]
    rfl
  | false =>
    have hok : misuseResult s.freeCount = .ok := if_neg (Bool.eq_false_iff.1 hc)
    exact absurd (congrArg Result.err hok) h

theorem exec_error {i : Instr} {s t : State} (h : exec i s = .next t) (he : t.err ≠ .none) : OnlyCompletes s t := by
  rcases exec_cases h with ⟨c, rfl⟩ | ⟨e, -⟩ | - | -
  · exact onlyCompletes_complete _ s
  · exact absurd (e.complete_err .ok) he
  · exact onlyCompletes_complete _ s
  · exact onlyCompletes_misused he

/-! ### The interrupt output (60_exceptions.md R276) -/

@[simp] theorem irq_complete (s : State) (r : Result) : (s.complete r).irq = s.ie := Bool.and_true s.ie

theorem exec_irq {i : Instr} {s t : State} (h : exec i s = .next t) : t.irq = s.ie := by
  rcases exec_cases h with ⟨c, rfl⟩ | ⟨e, he⟩ | - | -
  · exact irq_complete s _
  · rw [irq_complete, effect_frame he]
  · exact irq_complete s _
  · exact (irq_complete s.misused _).trans s.misused_ie

/-- After a register write that is performed `irq` is what the write alone leaves: the port's reply does not enter it. -/
theorem step_writeReg_irq {s t : State} {r : HostReg} {v : Word} {rest : List Input} (hr : s.rst = false)
    (hp : s.busy = false ∨ (Target.reg r).droppedWhileBusy = false)
    (hi : s.inputs = .access (.write (BitVec.ofNat 17 r.offset) .b32 v) :: rest) (h : step s = .next t) :
    t.irq = (r.write v { s with inputs := rest }).irq := by
  rw [step_writeReg_performed hr hp hi] at h
  cases h
  rfl

/-! ### The obligations -/

/-- Settles O13: of a command's outcomes only success and the completing MAC misuse change more, and neither is an error. -/
theorem errorsChangeNoOtherState : Obligations.ErrorsChangeNoOtherState := by
  intro s t
  refine ⟨fun i h he => exec_error h he, fun rest hb hr hi h he => ?_⟩
  rcases step_engine_cases hb hr hi h with rfl | ⟨i, hx⟩
  · exact onlyCompletes_complete _ _
  · exact exec_error hx he

/-- Settles O15: completion sets DONE and no command writes IE; issue and a 1 to STATUS.DONE clear DONE; CTRL holds IE. -/
theorem interruptFollowsCompletion : Obligations.InterruptFollowsCompletion := by
  intro s
  refine ⟨rfl, fun i t h => exec_irq h, fun t rest hb hr hi h => ?_, fun v t rest hr hb hi h => ?_,
    fun v t rest hr hi hv h => ?_, fun v t rest hr hi h => ?_⟩
  · rcases step_engine_cases hb hr hi h with rfl | ⟨i, hx⟩
    · exact irq_complete _ _
    · exact (exec_irq hx :)
  · rw [step_writeReg_irq (r := .cmd) hr (.inl hb) hi h]
    exact Bool.and_false s.ie
  · rw [step_writeReg_irq (r := .status) hr (.inr rfl) hi h]
    simp [HostReg.write, State.irq, hv]
  · exact step_writeReg_irq (r := .ctrl) hr (.inr rfl) hi h

end Sys2Proof.Proofs
end

section
/-! The host port while BUSY = 1 (70_reset_and_hazards.md R311, R312): which accesses are bus errors, which writes are dropped, what the
allowed accesses do, and that OVR stays until the host clears it. -/

open Sys2Proof Sys2Proof.Machine Sys2Proof.Claims

namespace Sys2Proof.Proofs

/-! ### The spec's reading of an access (20_memory.md R62, 70_reset_and_hazards.md R312) -/

theorem accessBytes_eq (a : Access) : accessBytes a = a.width.bytes := by
  cases a with
  | read _ width | write _ width _ => cases width <;> rfl

theorem accessOffset_eq (a : Access) : accessOffset a = a.offset := by
  cases a <;> rfl

theorem listedOffset_iff {off : Nat} : listedOffset off ↔ ∃ r : HostReg, off = r.offset := by
  rw [HostReg.exists_offset_iff]
  simp only [listedOffset, List.mem_cons, List.not_mem_nil, or_false]
  omega

/-- R62's list of bus errors, clause by clause, is what the window map answers nothing for. -/
theorem target_eq_none_iff_busErrorAccess {p : Params} {off : Nat} {width : Width} :
    target p off width = none ↔ busErrorAccess p off width.bytes := by
  have hlisted : (∀ r : HostReg, off ≠ r.offset) ↔ ¬listedOffset off := by rw [listedOffset_iff, not_exists]
  have haligned : listedOffset off → off % 4 = 0 := fun h => by
    obtain ⟨r, rfl⟩ := listedOffset_iff.1 h
    exact r.offset_lt.2
  rw [target_eq_none, busErrorAccess, hlisted, Ne, ← Width.bytes_eq_four]
  by_cases hwindow : off < 0x01000
  · grind
  · grind

theorem exists_target {p : Params} {off : Nat} {width : Width} (h : ¬busErrorAccess p off width.bytes) :
    ∃ t, target p off width = some t :=
  Option.ne_none_iff_exists'.1 (mt target_eq_none_iff_busErrorAccess.1 h)

/-- The targets whose writes the model drops are those at the offsets R312 lists. -/
theorem droppedWhileBusy_iff_droppedOffset {p : Params} {off : Nat} {width : Width} {t : Target}
    (ht : target p off width = some t) : t.droppedWhileBusy = true ↔ droppedOffset off := by
  unfold droppedOffset
  rcases target_some ht with ⟨r, rfl, rfl, -⟩ | ⟨a, rfl, rfl, -⟩
  · cases r with
    | operand o => cases o <;> decide
    | w i => simp only [Target.droppedWhileBusy, HostReg.offset, true_iff]; omega
    | _ => decide
  · simp [Target.droppedWhileBusy]

/-! ### What keeps OVR (R312) -/

theorem execOutcome_ovr {i : Instr} {s t : State} (h : ExecOutcome i s t) : t.ovr = s.ovr := by
  cases h with
  | effect e he => rw [effect_frame he]; rfl
  | forged => rfl
  | misused => exact s.misused_ovr

theorem turnOutcome_ovr {s t : State} (h : TurnOutcome s t) : t.ovr = s.ovr := by
  cases h with
  | ran _ _ i t h => exact execOutcome_ovr h
  | _ => rfl

theorem hostRead_ovr (t : Target) (width : Width) (s : State) : (hostRead t width s).ovr = s.ovr := by
  rw [hostRead_frame]

/-- Of all writes only a 1 to STATUS.OVR clears OVR. -/
theorem hostWrite_ovr {s : State} (h : s.ovr = true) (t : Target) (width : Width) (v : Word) :
    (hostWrite t width v s).ovr = true ∨ t = .reg .status ∧ v.getLsbD 2 = true := by
  unfold hostWrite
  split
  · exact .inl rfl
  · cases t with
    | dmem a => exact .inl h
    | reg r =>
      cases r with
      | status =>
        show (s.ovr && !v.getLsbD 2) = true ∨ _
        cases v.getLsbD 2 with
        | true => exact .inr ⟨rfl, rfl⟩
        | false => exact .inl (by rw [h]; rfl)
      | _ => exact .inl h

/-- An access that reaches a register is a 32-bit one at the register's offset. -/
theorem offset_width_of_target_reg {p : Params} {off : BitVec 17} {width : Width} {r : HostReg}
    (ht : target p off.toNat width = some (.reg r)) : off = BitVec.ofNat 17 r.offset ∧ width = .b32 := by
  rcases target_some ht with ⟨q, hq, hoff, hw⟩ | ⟨a, ha, -⟩
  · cases hq
    exact ⟨by rw [← hoff, BitVec.ofNat_toNat, BitVec.setWidth_eq], hw⟩
  · cases ha

/-- OVR stays 1 through every step but a 1 written to STATUS.OVR and the assertion of `rst`. -/
theorem step_ovr {s t : State} (ho : s.ovr = true) (hr : s.rst = false) (h : step s = .next t) : t.ovr = true ∨
    (∃ v rest, s.inputs = .access (.write 0x00C .b32 v) :: rest ∧ v.getLsbD 2 = true) ∨
    (∃ rest, s.inputs = .rst true :: rest) := by
  cases step_outcome h with
  | turn u t hu h =>
    left
    rw [turnOutcome_ovr h]
    rcases hu with rfl | ⟨rest, -, rfl⟩ <;> exact ho
  | underReset a rest _ hr' => exact Bool.noConfusion (hr.symm.trans hr')
  | access a rest t hi _ ht =>
    cases a with
    | read off width => exact .inl ((hostRead_ovr t width _).trans ho)
    | write off width v =>
      refine (hostWrite_ovr (s := { s with inputs := rest }) ho t width v).imp_right fun ⟨hstatus, hv⟩ => .inl ?_
      subst hstatus
      obtain ⟨rfl, rfl⟩ := offset_width_of_target_reg ht
      exact ⟨v, rest, hi, hv⟩
  | reset level rest hi =>
    cases level with
    | true => exact .inr (.inr ⟨rest, hi⟩)
    | false => exact .inl ho

/-! ### The accesses allowed while BUSY = 1 (R311) -/

/-- A read of any target returns some data, and changes nothing but the counter of free values. -/
theorem exists_hostRead_eq (t : Target) (width : Width) (s : State) :
    ∃ v n, hostRead t width s = { s with port := .data v, freeCount := n } := by
  unfold hostRead
  split
  · exact ⟨_, _, rfl⟩
  · exact ⟨_, _, rfl⟩

/-- The registers of `readableWhileBusy`, in its order. -/
def busyReadableRegs : List HostReg :=
  [.id, .cap, .ctrl, .status, .errInfo, .cfg, .operand .src, .operand .dst, .operand .len, .operand .aad, .operand .aadlen,
    .operand .tag, .operand .keya, .operand .noncea, .operand .ctrlo, .operand .ctrhi]

theorem busyReadableRegs_given : ∀ r ∈ busyReadableRegs, (Target.reg r).openWhileBusy = false := by decide

/-- R311's list is what the model reads at the registers' offsets; ERR_INFO reads 0 because it holds no sub-cause. -/
theorem readableWhileBusy_eq_map {s : State} (h : s.errInfo = none) :
    readableWhileBusy s = busyReadableRegs.map fun r => (r.offset, r.read s) := by
  have hinfo : s.errInfoWord = 0 := by rw [State.errInfoWord, h]
  simp only [busyReadableRegs, List.map_cons, HostReg.read, hinfo]
  rfl

/-! ### The obligations -/

/-- Settles O18: R62's list decides which accesses reach a target, R312's list which targets drop the write. -/
theorem writesWhileBusyAreDropped : Obligations.WritesWhileBusyAreDropped := by
  intro s hr
  refine ⟨fun off width v rest hb hi hd hok => ?_, fun t ho h => step_ovr ho hr h, fun a rest hi hbad => ?_⟩
  · obtain ⟨t, ht⟩ := exists_target hok
    rw [step_access_legal hi hr ht]
    exact congrArg _ (hostWrite_dropped (by exact hb) ((droppedWhileBusy_iff_droppedOffset ht).2 hd) width v)
  · rw [accessOffset_eq, accessBytes_eq] at hbad
    exact step_access_fault hi hr (target_eq_none_iff_busErrorAccess.2 hbad)

/-- Settles O19: the register-access rules; by the invariant DONE and ERR_INFO are 0 while BUSY = 1. -/
theorem allowedAccessesWhileBusy : Obligations.AllowedAccessesWhileBusy := by
  intro s rest hinv hr hb
  obtain ⟨hdone, -, hinfo⟩ := hinv.busyQuiet hb
  refine ⟨fun e he hi => ?_, fun v hi => ?_, fun v hi => ?_, fun off hoff v hi => ?_, fun off width hi _ hok => ?_⟩
  · rw [readableWhileBusy_eq_map hinfo] at he
    obtain ⟨r, hmem, rfl⟩ := List.mem_map.1 he
    exact step_readReg_given hr (.inr (busyReadableRegs_given r hmem)) hi
  · exact step_writeReg_performed (r := .ctrl) hr (.inr rfl) hi
  · rw [step_writeReg_performed (r := .status) hr (.inr rfl) hi]
    simp [HostReg.write, State.writeStatus, hdone]
  · simp only [List.mem_cons, List.not_mem_nil, or_false] at hoff
    rcases hoff with rfl | rfl | rfl
    · exact step_writeReg_performed (r := .id) hr (.inr rfl) hi
    · exact step_writeReg_performed (r := .cap) hr (.inr rfl) hi
    · exact step_writeReg_performed (r := .errInfo) hr (.inr rfl) hi
  · obtain ⟨t, ht⟩ := exists_target hok
    obtain ⟨v, n, hread⟩ := exists_hostRead_eq t width { s with inputs := rest }
    exact ⟨v, n, (step_access_legal hi hr ht).trans (congrArg _ hread)⟩

end Sys2Proof.Proofs
end

section
/-! NOP and ZEROIZE (41_keystream.md R150, R168, 70_reset_and_hazards.md R304): the commands without checks that leave the block as it
was, and with its internal state reset. -/

open Sys2Proof Sys2Proof.Machine Sys2Proof.Claims

namespace Sys2Proof.Proofs

theorem exec_nop (s : State) : exec .nop s = .next (doneOk s) := succeed_eq_next_doneOk s

/-- ZEROIZE leaves the stream state and the Poly1305 state of a reset block. -/
theorem exec_zeroize (s : State) :
    exec .zeroize s = .next (doneOk (withStream State.reset (withMac State.reset s))) := succeed_eq_next_doneOk _

/-- Settles O35: the two commands' equations; the words of W and K after reset are those of a replicated 0. -/
theorem nopAndZeroize : Obligations.NopAndZeroize := by
  intro s
  exact ⟨exec_nop s, _, exec_zeroize s, rfl, fun i => Vector.getElem_replicate i.isLt, fun i => Vector.getElem_replicate i.isLt⟩

end Sys2Proof.Proofs
end

section
/-! The encoder against the decoder and the assembler (30_encoding.md R91 to R99): each command has one word, which is the number that
the assembler's formulas give. -/

open Sys2Proof Sys2Proof.Machine Sys2Proof.Claims

namespace Sys2Proof.Proofs

/-! ### Decoding an encoded command -/

/-- A format Q word whose OPC the decoder hands to `decodeQ m` gives the mnemonic's command back, on every lane. -/
theorem decodeQ_encodeQ (m : QMnemonic) (opc : BitVec 8) (a b c d : Lane) :
    decodeQ m (encodeQ opc a b c d) = .instr (m.instr a b c d) := by
  obtain ⟨-, hzero, ha, hb, hc, hd⟩ := fields_encodeQ opc a b c d
  rw [decodeQ, if_pos hzero, ha, hb, hc, hd]

theorem decode_encodeQ (m : QMnemonic) (a b c d : Lane) :
    decode (encodeQ (BitVec.ofNat 8 m.opc) a b c d) = .instr (m.instr a b c d) := by
  obtain ⟨hopc, -⟩ := fields_encodeQ (BitVec.ofNat 8 m.opc) a b c d
  rw [decode, hopc]
  cases m <;> exact decodeQ_encodeQ ..

/-! ### The assembler's formulas (30_encoding.md R99) -/

/-- Fields put together one after the other, from the top, or each shifted to its place. -/
theorem shiftLeft_or_fields (o a b c d : Nat) :
    ((((0 <<< 4 ||| d) <<< 4 ||| c) <<< 4 ||| b) <<< 4 ||| a) <<< 8 ||| o =
      o ||| a <<< 8 ||| b <<< 12 ||| c <<< 16 ||| d <<< 20 := by
  apply Nat.eq_of_testBit_eq
  intro i
  simp only [Nat.testBit_or, Nat.testBit_shiftLeft, Nat.zero_testBit, Nat.sub_sub]
  grind

/-- A format Q word is the assembler's formula for it. -/
theorem toNat_encodeQ (opc : BitVec 8) (a b c d : Lane) :
    (encodeQ opc a b c d).toNat =
      opc.toNat ||| a.val <<< 8 ||| b.val <<< 12 ||| c.val <<< 16 ||| d.val <<< 20 := by
  rw [← shiftLeft_or_fields, encodeQ]
  repeat rw [BitVec.toNat_append]
  rfl

/-- The opcode map and the assembler give a mnemonic of format N the same word. -/
theorem toNat_encode_bare (m : NMnemonic) : (encode m.instr).toNat = m.opc := by
  cases m <;> rfl

theorem toNat_encode_lanes (m : QMnemonic) (a b c d : Lane) :
    (encode (m.instr a b c d)).toNat = (AsmLine.lanes m a b c d).word := by
  cases m <;> exact toNat_encodeQ ..

theorem toNat_encode_ksgen {n : Nat} {i : Instr} (h : ksgenInstr? n = some i) :
    (encode i).toNat = (AsmLine.ksgen n).word := by
  unfold ksgenInstr? at h
  split at h <;> cases h <;> decide

theorem toNat_encode_pBlock {h : Nat} (hh : h < 2) : (encode (.pBlock (h == 1))).toNat = (AsmLine.pBlock h).word := by
  interval_cases h <;> rfl

/-! ### The well-formed lines -/

theorem batchOk_iff_exists_instr (n : Nat) : batchOk n = true ↔ ∃ i, ksgenInstr? n = some i := by
  unfold ksgenInstr?
  split <;> simp_all [batchOk]

theorem lanes_wellFormed_iff_exists_instr (m : QMnemonic) (a b c d : Nat) :
    (AsmLine.lanes m a b c d).wellFormed = true ↔ ∃ i, (AsmLine.lanes m a b c d).instr? = some i := by
  simp only [AsmLine.wellFormed, laneOk, Bool.and_eq_true, decide_eq_true_eq, AsmLine.instr?, and_assoc]
  split <;> simp_all

/-! ### The obligations -/

/-- Settles O1: each word by the opcode map and the format of its row. -/
theorem wordsOfTheSpecDecode : Obligations.WordsOfTheSpecDecode := by
  unfold Obligations.WordsOfTheSpecDecode
  decide

/-- Settles O2: the lanes of format Q and the high bit of format P are read back; every other command has one fixed word. -/
theorem decodeOfEncodeIsTheCommand : Obligations.DecodeOfEncodeIsTheCommand := by
  intro i
  cases i with
  | qrC a b c d => exact decode_encodeQ .qrC a b c d
  | qrS a b c d => exact decode_encodeQ .qrS a b c d
  | pBlock h => cases h <;> decide
  | _ => decide

/-- Settles O3: the inversion of the decoder. -/
theorem encodeOfDecodeIsTheWord : Obligations.EncodeOfDecodeIsTheWord := fun _ _ h => encode_of_decode h

/-- Settles O6: format by format, the line's checks are what its command needs, and the formula is the format's word. -/
theorem wellFormedLinesAssemble : Obligations.WellFormedLinesAssemble := by
  intro l
  cases l with
  | bare m =>
    refine ⟨⟨fun _ => ⟨_, rfl⟩, fun _ => rfl⟩, ?_⟩
    rintro i ⟨⟩
    exact toNat_encode_bare m
  | lanes m a b c d =>
    refine ⟨lanes_wellFormed_iff_exists_instr m a b c d, fun i hi => ?_⟩
    simp only [AsmLine.instr?] at hi
    split at hi
    · cases hi
      exact toNat_encode_lanes m ..
    · cases hi
  | ksgen n => exact ⟨batchOk_iff_exists_instr n, fun i hi => toNat_encode_ksgen hi⟩
  | pBlock h =>
    by_cases hh : h < 2
    · refine ⟨by simp [AsmLine.wellFormed, highBitOk, AsmLine.instr?, hh], fun i hi => ?_⟩
      rw [AsmLine.instr?, if_pos hh] at hi
      cases hi
      exact toNat_encode_pBlock hh
    · exact ⟨by simp [AsmLine.wellFormed, highBitOk, AsmLine.instr?, hh], by simp [AsmLine.instr?, hh]⟩

end Sys2Proof.Proofs
end

section
/-! The invariant (`State.Inv`): it holds at reset, and every step keeps it. Each group of registers has one rule for what a new value
must satisfy; the outcomes of `step_outcome` and `Effect` are then instances of the rules. -/

open Sys2Proof Sys2Proof.Machine Sys2Proof.Claims

namespace Sys2Proof.Proofs

/-! ### What a new value of each part of the state must satisfy -/

theorem inv_resetOf (p : Params) : (State.resetOf p).Inv where
  memSorted := List.Pairwise.nil
  memWithin := fun _ hc => absurd hc List.not_mem_nil
  ksLength := Nat.zero_le _
  ksStreaming := fun h => absurd rfl h
  paccRange := polyPrime_pos
  pbufLength := Nat.zero_le _
  prClamped := BitVec.zero_and
  busyQuiet := fun h => absurd h Bool.false_ne_true
  infoOfInvalid := by simp [State.resetOf]
  driverKeyed := fun h => absurd rfl h
  unkeyed := fun _ => ⟨rfl, rfl⟩
  shortKey := fun h => by cases h
  resetQuiet := fun _ => ⟨rfl, rfl⟩

section Parts
variable {s : State}

/-- Registers that the invariant does not speak of. -/
theorem inv_of_free (h : s.Inv) (ie ovr : Bool) (cfg : Cfg) (regs : OperandRegs) (w : CipherState) (inputs : List Input)
    (port : PortReply) (n : Nat) :
    State.Inv { s with
      ie := ie, ovr := ovr, cfg := cfg, regs := regs, w := w, inputs := inputs, port := port, freeCount := n } :=
  { h with }

/-- The driver: W, KS and DRV (10_state.md R33, R34). -/
theorem inv_of_driver (h : s.Inv) {w : CipherState} {ks : List Byte} {drv : Drv} (hks : ks.length ≤ 512)
    (hdrv : drv = .streaming ∨ ks = []) (hkv : drv = .unkeyed ∨ s.kv = true) :
    State.Inv { s with w := w, ks := ks, drv := drv } :=
  { h with
    ksLength := hks
    ksStreaming := hdrv.resolve_right
    driverKeyed := hkv.resolve_left }

/-- The Poly1305 registers (R35). -/
theorem inv_of_mac (h : s.Inv) {pr ps : BitVec 128} {pacc : Nat} {pbuf : List Byte} {pst : Pst} (hpacc : pacc < polyPrime)
    (hpbuf : pbuf.length ≤ 15) (hpr : pr &&& ~~~clampMask = 0) :
    State.Inv { s with pr := pr, ps := ps, pacc := pacc, pbuf := pbuf, pst := pst } :=
  { h with
    paccRange := hpacc
    pbufLength := hpbuf
    prClamped := hpr }

/-- DMEM after a write to a range that exists (20_memory.md R60, R63). -/
theorem inv_of_writeBytes (h : s.Inv) {a : Nat} {bs : List Byte} (ha : a + bs.length ≤ s.params.dmemSize) :
    State.Inv { s with mem := s.mem.writeBytes a bs } :=
  { h with
    memSorted := Memory.writeBytes_wf h.memSorted a bs
    memWithin := Memory.writeBytes_within h.memWithin ha }

theorem inv_memWrite (h : s.Inv) {a : Word} {bs : List Byte} (ha : a.toNat + bs.length ≤ s.params.dmemSize) :
    (s.memWrite a bs).Inv := inv_of_writeBytes h ha

/-- ERR_INFO is a sub-cause exactly when ERR = 1, in every result (60_exceptions.md R270). -/
theorem result_info_iff (r : Result) : r.info ≠ none ↔ r.err = .invalidArgument := by
  cases r <;> simp [Result.info, Result.err]

theorem inv_complete (h : s.Inv) (hr : s.rst = false) (r : Result) : (s.complete r).Inv :=
  { h with
    busyQuiet := fun hb => absurd hb Bool.false_ne_true
    infoOfInvalid := result_info_iff r
    resetQuiet := fun hr' => absurd (hr.symm.trans hr') Bool.false_ne_true }

theorem inv_issue (h : s.Inv) (hr : s.rst = false) (v : Word) : (s.issue v).Inv :=
  { h with
    busyQuiet := fun _ => ⟨rfl, rfl, rfl⟩
    infoOfInvalid := by simp
    resetQuiet := fun hr' => absurd (hr.symm.trans hr') Bool.false_ne_true }

theorem inv_writeStatus (h : s.Inv) (v : Word) : (s.writeStatus v).Inv :=
  { h with
    busyQuiet := fun hb => by
      obtain ⟨hdone, hquiet⟩ := h.busyQuiet hb
      exact ⟨by simp [hdone], hquiet⟩
    resetQuiet := fun hr => by
      obtain ⟨hbusy, hdone⟩ := h.resetQuiet hr
      exact ⟨hbusy, by simp [hdone]⟩ }

/-! ### The effects of the commands -/

/-- A 16-byte key is held twice (41_keystream.md R157). -/
theorem loadKey_k16_twice (m : Memory) (a : Nat) :
    let k := loadKey .k16 (m.readBytes a 16)
    k[4] = k[0] ∧ k[5] = k[1] ∧ k[6] = k[2] ∧ k[7] = k[3] := by
  rw [loadKey, leWords_readBytes m a 4]
  exact ⟨rfl, rfl, rfl, rfl⟩

theorem inv_ldkey (h : s.Inv) (n : KeyLen) (a : Word) :
    State.Inv { s with k := loadKey n (s.memRead a n.bytes), klen := n, kv := true, ks := [], drv := .unkeyed } :=
  { h with
    ksLength := Nat.zero_le _
    ksStreaming := fun hks => absurd rfl hks
    driverKeyed := fun _ => rfl
    unkeyed := fun hkv => absurd hkv.symm Bool.false_ne_true
    shortKey := fun hn => by
      obtain rfl : n = .k16 := hn
      exact loadKey_k16_twice s.mem a.toNat }

theorem inv_zeroize (h : s.Inv) : State.Inv (withStream State.reset (withMac State.reset s)) :=
  have hreset := inv_resetOf Config.reference
  { h with
    ksLength := hreset.ksLength
    ksStreaming := hreset.ksStreaming
    paccRange := hreset.paccRange
    pbufLength := hreset.pbufLength
    prClamped := hreset.prClamped
    driverKeyed := hreset.driverKeyed
    unkeyed := hreset.unkeyed
    shortKey := hreset.shortKey }

theorem inv_ksgen (h : s.Inv) {n : Nat} {e : State} (hn : n ≤ 8) (he : Effect.KsgenEffect n s e) : e.Inv := by
  obtain ⟨alg, -, hdrv, -, rfl⟩ := he
  exact inv_of_driver h (by rw [length_genBlocks]; omega) (.inl rfl) (.inr (h.driverKeyed hdrv))

/-- The pending keystream never grows past what a KSGEN leaves (41_keystream.md R170). -/
theorem length_pending_le (h : s.Inv) (alg : Alg) (rounds : Nat) (bs : List Byte) :
    (xorStream alg rounds bs s.w s.ks).2.2.length ≤ 512 :=
  (length_xorStream_left ..).trans (max_le h.ksLength (by decide))

/-- The effect of every command keeps the invariant. -/
theorem inv_effect {i : Instr} {e : State} (h : s.Inv) (he : Effect i s e) : e.Inv := by
  cases i with
  | nop => exact he ▸ h
  | qrC | drC | qrS | drS => cases he; exact inv_of_free h ..
  | permC | permS => obtain ⟨-, rfl⟩ := he; exact inv_of_free h ..
  | ldkey => obtain ⟨-, rfl⟩ := he; exact inv_ldkey h _ _
  | setiv => obtain ⟨alg, -, hkv, rfl⟩ := he; exact inv_of_driver h (Nat.zero_le _) (.inr rfl) (.inr hkv)
  | setctr | reset =>
    obtain ⟨alg, -, hdrv, rfl⟩ := he
    exact inv_of_driver h (Nat.zero_le _) (.inr rfl) (.inr (h.driverKeyed hdrv))
  | ksgen1 => exact inv_ksgen h (by decide) he
  | ksgen2 => exact inv_ksgen h (by decide) he
  | ksgen4 => exact inv_ksgen h (by decide) he
  | ksgen8 => exact inv_ksgen h (by decide) he
  | update =>
    obtain ⟨alg, -, hdrv, -, hdst, rfl⟩ := he
    refine inv_memWrite (inv_of_driver h (length_pending_le h ..) (.inl rfl) (.inr (h.driverKeyed hdrv))) ?_
    simpa [State.srcBytes] using hdst
  | hnonce =>
    obtain ⟨alg, -, -, hdst, rfl⟩ := he
    exact inv_memWrite h (by simpa using hdst)
  | zeroize => cases he; exact inv_zeroize h
  | pInit => cases he; exact inv_of_mac h polyPrime_pos (Nat.zero_le _) (polyR_clamped _)
  | pBlock => obtain ⟨-, rfl⟩ := he; exact inv_of_mac h (fieldOp_lt ..) h.pbufLength h.prClamped
  | pUpdate =>
    obtain ⟨-, rfl⟩ := he
    exact inv_of_mac h (absorb_lt h.paccRange ..) (by rw [length_partialBlock]; omega) h.prClamped
  | pFinal =>
    obtain ⟨-, htag, rfl⟩ := he
    refine inv_memWrite (inv_of_mac h (absorbPartial_lt h.paccRange ..) (Nat.zero_le _) h.prClamped) ?_
    simpa using htag
  | aeadEnc =>
    obtain ⟨hdst, htag, rfl⟩ := he
    exact inv_memWrite (inv_memWrite h (by simpa [State.srcBytes] using hdst)) (by simpa using htag)
  | aeadDec =>
    obtain ⟨hdst, -, rfl⟩ := he
    exact inv_memWrite h (by simpa [State.srcBytes] using hdst)

/-- MAC misuse stays within the bounds of R35 and R60 (R217, U3). -/
theorem inv_misused (h : s.Inv) : s.misused.Inv := by
  have hmem : State.Inv { s with mem := s.misusedMem } := by
    rcases s.misusedMem_cases with hm | ⟨htag, hm⟩
    · rw [hm]; exact h
    · rw [hm]; exact inv_of_writeBytes h (by simpa using htag)
  unfold State.misused
  dsimp only
  split
  · exact inv_of_free h ..
  · have hbuf : ((Config.misusePbuf s.freeCount).take 15).length ≤ 15 := List.length_take_le ..
    exact inv_of_free (inv_of_mac hmem (Nat.mod_lt _ polyPrime_pos) hbuf h.prClamped) ..

/-! ### The steps -/

theorem inv_execOutcome {i : Instr} {t : State} (h : s.Inv) (hr : s.rst = false) (ht : ExecOutcome i s t) : t.Inv := by
  cases ht with
  | effect e he => exact inv_complete (inv_effect h he) (by rw [effect_frame he]; exact hr) _
  | forged => exact inv_complete h hr _
  | misused => exact inv_complete (inv_misused h) (s.misused_rst.trans hr) _

theorem inv_turnOutcome {t : State} (h : s.Inv) (ht : TurnOutcome s t) : t.Inv := by
  cases ht with
  | idle => exact h
  | illegal _ hr => exact inv_complete h hr _
  | invalid _ hr => exact inv_complete h hr _
  | ran _ hr i t hx => exact inv_execOutcome h hr hx

theorem inv_hostRead (h : s.Inv) (t : Target) (width : Width) : (hostRead t width s).Inv := by
  rw [hostRead_frame]
  exact inv_of_free h ..

theorem inv_writeReg (h : s.Inv) (hr : s.rst = false) (r : HostReg) (v : Word) : (r.write v s).Inv := by
  cases r with
  | id | cap | errInfo => exact h
  | ctrl | cfg | operand | w => exact inv_of_free h ..
  | status => exact inv_writeStatus h v
  | cmd => exact inv_issue h hr v

/-- P_DMEM_SIZE is a multiple of every access width (00_scope.md R9). -/
theorem dmemSize_mod_bytes (p : Params) (width : Width) : p.dmemSize % width.bytes = 0 := by
  have h4 : p.dmemSize = 4 * 2 ^ (6 + p.dmemIdx.val) := by rw [Params.dmemSize, Params.dmemLog2]; ring
  rcases width.bytes_cases with h | h | h <;> rw [h] <;> omega

/-- An aligned access of DMEM ends within DMEM. -/
theorem dmem_access_within {p : Params} {off a : Nat} {width : Width} (h : target p off width = some (.dmem a)) :
    a + width.bytes ≤ p.dmemSize := by
  have hmod := dmemSize_mod_bytes p width
  rcases target_some h with ⟨r, hr, -⟩ | ⟨b, hb, hoff, hlt, halign⟩
  · cases hr
  · cases hb
    rcases width.bytes_cases with hw | hw | hw <;> rw [hw] at hmod halign ⊢ <;> omega

theorem inv_target_write (h : s.Inv) (hr : s.rst = false) {off : Nat} {width : Width} {t : Target}
    (ht : target s.params off width = some t) (v : Word) : (t.write v s width).Inv := by
  cases t with
  | reg r => exact inv_writeReg h hr r v
  | dmem a =>
    refine inv_of_writeBytes h (le_trans ?_ (dmem_access_within ht))
    exact Nat.add_le_add_left (List.length_take_le ..) a

theorem inv_hostWrite (h : s.Inv) (hr : s.rst = false) {off : Nat} {width : Width} {t : Target}
    (ht : target s.params off width = some t) (v : Word) : (hostWrite t width v s).Inv := by
  unfold hostWrite
  split
  · exact inv_of_free h ..
  · exact { inv_target_write h hr ht v with }

theorem inv_accessUnderReset (h : s.Inv) (a : Access) : (accessUnderReset a s).Inv := by
  cases a <;> exact inv_of_free h ..

theorem inv_resetInput (h : s.Inv) (level : Bool) : (resetInput level s).Inv := by
  cases level with
  | true =>
    exact { inv_resetOf s.params with
      memSorted := List.Pairwise.nil
      memWithin := fun _ hc => absurd hc List.not_mem_nil
      resetQuiet := fun _ => ⟨rfl, rfl⟩ }
  | false => exact { h with resetQuiet := fun hr => absurd hr Bool.false_ne_true }

end Parts

/-! ### The obligations -/

/-- Settles O28: the reset values, field by field. -/
theorem invariantHoldsAtReset : Obligations.InvariantHoldsAtReset :=
  fun p => ⟨inv_resetOf p, inv_resetOf Config.reference⟩

/-- Settles O29: each outcome of a step is an update the rules above cover; taking an input off the list is free. -/
theorem everyStepKeepsTheInvariant : Obligations.EveryStepKeepsTheInvariant := by
  intro s t h hs
  have hinputs : ∀ rest, State.Inv { s with inputs := rest } := fun rest => inv_of_free h ..
  cases step_outcome hs with
  | turn u t hu ht =>
    rcases hu with rfl | ⟨rest, -, rfl⟩
    · exact inv_turnOutcome h ht
    · exact inv_turnOutcome (hinputs rest) ht
  | underReset a rest => exact inv_accessUnderReset (hinputs rest) a
  | access a rest t _ hr ht =>
    cases a with
    | read off width => exact inv_hostRead (hinputs rest) t width
    | write off width v => exact inv_hostWrite (hinputs rest) hr ht v
  | reset level rest => exact inv_resetInput (hinputs rest) level

end Sys2Proof.Proofs
end

section
/-! The host port while the block is idle, and reset (10_state.md R20 to R36, 20_memory.md R62, R67, R69, 70_reset_and_hazards.md R300 to
R302): which accesses stop, what reads and writes do, and the reset table. -/

open Sys2Proof Sys2Proof.Machine Sys2Proof.Claims

namespace Sys2Proof.Proofs

/-! ### Reads depend on little (20_memory.md R69 (c), 10_state.md R32, R35, R36) -/

/-- `s'` agrees with `s` in all that a host read can show: not in K, KLEN, the bytes of KS, the Poly1305 registers, CMDL or the model's
own fields. -/
structure SameToReads (s s' : State) : Prop where
  params : s'.params = s.params
  ctrl : s'.ie = s.ie
  status : s'.statusWord = s.statusWord
  errInfo : s'.errInfo = s.errInfo
  cfg : s'.cfg = s.cfg
  regs : s'.regs = s.regs
  w : s'.w = s.w
  mem : s'.mem = s.mem

theorem targetRead_congr {s s' : State} (h : SameToReads s s') (t : Target) (width : Width) :
    t.read s' width = t.read s width := by
  cases t with
  | dmem a => simp only [Target.read, h.mem]
  | reg r => cases r <;> simp only [Target.read, HostReg.read, State.ctrlWord, State.errInfoWord, h.params, h.ctrl, h.status,
      h.errInfo, h.cfg, h.regs, h.w]

theorem sameToReads_ownFields (s : State) (inputs : List Input) (port : PortReply) (n : Nat) :
    SameToReads s { s with inputs := inputs, port := port, freeCount := n } := ⟨rfl, rfl, rfl, rfl, rfl, rfl, rfl, rfl⟩

/-- A read that completes: under `rst` its data is a free value; else the access reaches a target. -/
theorem step_read_cases {s t : State} {off : BitVec 17} {width : Width} {rest : List Input}
    (hi : s.inputs = .access (.read off width) :: rest) (h : step s = .next t) :
    (s.rst = true ∧ t = State.readOpen { s with inputs := rest } width) ∨
      (s.rst = false ∧ ∃ g, target s.params off.toNat width = some g ∧ t = hostRead g width { s with inputs := rest }) := by
  rcases Bool.eq_false_or_eq_true s.rst with hr | hr
  · rw [step_access hi, hostAccess_rst (by exact hr)] at h
    cases h
    exact .inl ⟨hr, rfl⟩
  · cases hg : target s.params off.toNat width with
    | none =>
      rw [step_access_fault hi hr hg] at h
      cases h
    | some g =>
      rw [step_access_legal hi hr hg] at h
      cases h
      exact .inr ⟨hr, g, rfl, rfl⟩

/-- The reply to a read depends only on what reads show, BUSY and the counter of free values. -/
theorem hostRead_port_congr {s s' : State} (h : SameToReads s s') (hb : s'.busy = s.busy) (hn : s'.freeCount = s.freeCount)
    (t : Target) (width : Width) : (hostRead t width s').port = (hostRead t width s).port := by
  unfold hostRead
  rw [hb]
  split
  · rw [State.readOpen_port, State.readOpen_port, hn]
  · rw [targetRead_congr h]

/-! ### The registers a program writes and reads back (10_state.md R23, R26, R29, R31) -/

theorem ctrlWord_writeCtrl (v : Word) (s : State) : (s.writeCtrl v).ctrlWord = v &&& 1#32 := by
  apply BitVec.eq_of_getLsbD_eq
  intro i hi
  simp only [State.ctrlWord, State.writeCtrl_ie, BitVec.getLsbD_append, BitVec.getLsbD_and]
  interval_cases i <;> simp

theorem word_ofWord (v : Word) : (Cfg.ofWord v).word = v &&& 0x0000FF0F#32 := by
  apply BitVec.eq_of_getLsbD_eq
  intro i hi
  simp only [Cfg.word, Cfg.ofWord, BitVec.getLsbD_append, BitVec.getLsbD_and, BitVec.getLsbD_extractLsb']
  interval_cases i <;> simp

/-- The registers of `registerWrites`, in its order. -/
def readBackRegs : List HostReg :=
  [.ctrl, .cfg, .operand .src, .operand .dst, .operand .len, .operand .aad, .operand .aadlen, .operand .tag, .operand .keya,
    .operand .noncea, .operand .ctrlo, .operand .ctrhi]

/-- R23, R26 and R29 list what the model writes to each register and what it then reads. -/
theorem registerWrites_eq_map (s : State) (v : Word) :
    registerWrites s v = readBackRegs.map fun r => (r.offset, r.write v s, r.read (r.write v s)) := by
  have hctrl : HostReg.read (HostReg.write v s .ctrl) .ctrl = v &&& 1#32 := ctrlWord_writeCtrl v s
  have hcfg : HostReg.read (HostReg.write v s .cfg) .cfg = v &&& 0x0000FF0F#32 := word_ofWord v
  simp only [readBackRegs, List.map_cons, hctrl, hcfg]
  rfl

/-- A register other than CMD can be written without a change of BUSY. -/
theorem writeReg_busy {r : HostReg} (hr : r ≠ .cmd) (v : Word) (s : State) : (r.write v s).busy = s.busy := by
  cases r with
  | cmd => exact absurd rfl hr
  | _ => rfl

theorem writeReg_rst (r : HostReg) (v : Word) (s : State) : (r.write v s).rst = s.rst := by
  cases r <;> rfl

theorem writeReg_inputs (r : HostReg) (v : Word) (s : State) (inputs : List Input) :
    r.write v { s with inputs := inputs } = { r.write v s with inputs := inputs } := by
  cases r <;> rfl

/-- Writing a register other than CMD and then reading it, while BUSY = 0. -/
theorem step_write_then_read {s : State} {r : HostReg} {v : Word} {rest : List Input} (hcmd : r ≠ .cmd) (hr : s.rst = false)
    (hb : s.busy = false) {read : Input} (hread : read = .access (.read (BitVec.ofNat 17 r.offset) .b32))
    (hi : s.inputs = .access (.write (BitVec.ofNat 17 r.offset) .b32 v) :: read :: rest) :
    step s = .next { r.write v s with inputs := read :: rest, port := .written } ∧
      step { r.write v s with inputs := read :: rest, port := .written } =
        .next { r.write v s with inputs := rest, port := .data (r.read (r.write v s)) } := by
  constructor
  · rw [step_writeReg_performed hr (.inl hb) hi, writeReg_inputs]
  · refine Eq.trans (step_readReg_given (r := r) ((writeReg_rst r v s).trans hr)
      (.inl ((writeReg_busy hcmd v s).trans hb)) (congrArg (· :: rest) hread)) ?_
    exact congrArg (fun d => Host.Outcome.next { r.write v s with inputs := rest, port := PortReply.data d })
      (targetRead_congr (sameToReads_ownFields (r.write v s) _ _ _) (.reg r) .b32)

/-! ### STATUS and ERR_INFO (10_state.md R24, R25) -/

theorem toNat_append_add {m n : Nat} (x : BitVec m) (y : BitVec n) : (x ++ y).toNat = x.toNat * 2 ^ n + y.toNat := by
  rw [BitVec.toNat_append, ← Nat.shiftLeft_add_eq_or_of_lt y.isLt, Nat.shiftLeft_eq]

/-- STATUS as a number: each field at its place in R24's table. -/
theorem toNat_statusWord (s : State) : s.statusWord.toNat =
    s.ksAvail.toNat * 2 ^ 16 + s.pst.code.toNat * 2 ^ 11 + s.kv.toNat * 2 ^ 10 + s.drv.code.toNat * 2 ^ 8 +
      s.err.code.toNat * 2 ^ 4 + s.ovr.toNat * 2 ^ 2 + s.done.toNat * 2 + s.busy.toNat := by
  simp only [State.statusWord, toNat_append_add, BitVec.toNat_ofBool, BitVec.toNat_ofNat]
  omega

theorem statusWord_fields (s : State) :
    s.statusWord.getLsbD 0 = s.busy ∧ s.statusWord.getLsbD 1 = s.done ∧ s.statusWord.getLsbD 2 = s.ovr ∧
    s.statusWord.getLsbD 3 = false ∧ s.statusWord.toNat / 2 ^ 4 % 2 ^ 4 = s.err.code.toNat ∧
    s.statusWord.toNat / 2 ^ 8 % 2 ^ 2 = s.drv.code.toNat ∧ s.statusWord.getLsbD 10 = s.kv ∧
    s.statusWord.toNat / 2 ^ 11 % 2 ^ 2 = s.pst.code.toNat ∧ s.statusWord.toNat / 2 ^ 13 % 2 ^ 3 = 0 ∧
    s.statusWord.toNat / 2 ^ 16 % 2 ^ 10 = s.ksAvail.toNat ∧ s.statusWord.toNat / 2 ^ 26 = 0 := by
  have hw := toNat_statusWord s
  have hks := s.ksAvail.isLt
  have hpst := s.pst.code.isLt
  have hdrv := s.drv.code.isLt
  have herr := s.err.code.isLt
  have hkv := s.kv.toNat_lt
  have hovr := s.ovr.toNat_lt
  have hdone := s.done.toNat_lt
  have hbusy := s.busy.toNat_lt
  refine ⟨getLsbD_of_toNat ?_, getLsbD_of_toNat ?_, getLsbD_of_toNat ?_, getLsbD_of_toNat (b := false) (show _ = 0 from ?_),
    ?_, ?_, getLsbD_of_toNat ?_, ?_, ?_, ?_, ?_⟩ <;> omega

/-- KS_AVAIL has room for the whole KS (10_state.md R33). -/
theorem toNat_ksAvail {s : State} (h : s.Inv) : s.ksAvail.toNat = s.ks.length := by
  have hks := h.ksLength
  rw [State.ksAvail, BitVec.toNat_ofNat, Nat.mod_eq_of_lt (by omega)]

theorem errInfoWord_eq_infoValue (s : State) : s.errInfoWord = infoValue s.errInfo := by
  unfold State.errInfoWord
  cases s.errInfo with
  | none => rfl
  | some c => cases c <;> decide

/-! ### The DMEM window (20_memory.md R61, R62, R67) -/

theorem bytes_widthOf {n : Nat} (hn : n ∈ [1, 2, 4]) : (widthOf n).bytes = n := by
  fin_cases hn <;> rfl

/-- Every DMEM address has its own offset in the 17-bit window. -/
theorem toNat_dmemOffset {p : Params} {a : Nat} (h : a < p.dmemSize) :
    (BitVec.ofNat 17 (0x10000 + a)).toNat = 0x10000 + a := by
  have hsize := p.dmemSize_le
  rw [BitVec.toNat_ofNat, Nat.mod_eq_of_lt (by omega)]

theorem dmemOffset_mod {n : Nat} (hn : n ∈ [1, 2, 4]) (a : Nat) : (0x10000 + a) % n = a % n := by
  fin_cases hn <;> omega

/-- An aligned access at a DMEM address reaches the byte there. -/
theorem target_dmemOffset {p : Params} {a n : Nat} (h : a < p.dmemSize) (hn : n ∈ [1, 2, 4]) (hm : a % n = 0) :
    target p (BitVec.ofNat 17 (0x10000 + a)).toNat (widthOf n) = some (.dmem a) := by
  rw [toNat_dmemOffset h]
  exact target_dmem p h (by rw [bytes_widthOf hn, dmemOffset_mod hn, hm])

theorem target_dmemOffset_misaligned {p : Params} {a n : Nat} (h : a < p.dmemSize) (hn : n ∈ [1, 2, 4]) (hm : a % n ≠ 0) :
    target p (BitVec.ofNat 17 (0x10000 + a)).toNat (widthOf n) = none := by
  rw [toNat_dmemOffset h, target_eq_none, bytes_widthOf hn, dmemOffset_mod hn]
  exact .inr ⟨by omega, .inr (.inr hm)⟩

/-- The bytes of a word, least significant first (00_scope.md R13). -/
theorem toNat_getD_wordBytes (v : Word) {j : Nat} (hj : j < 4) :
    ((wordBytes v).getD j 0).toNat = v.toNat / 2 ^ (8 * j) % 256 := by
  have h : (wordBytes v).getD j 0 = v.extractLsb' (8 * j) 8 := by interval_cases j <;> rfl
  rw [h, BitVec.extractLsb'_toNat, Nat.shiftRight_eq_div_pow]

/-- Writing the low bytes of a word: each byte of the range, and no other. -/
theorem writeBytes_wordBytes (m : Memory) (a : Nat) (v : Word) {n : Nat} (hn : n ≤ 4) :
    (∀ j < n, ((m.writeBytes a ((wordBytes v).take n)).read (a + j)).toNat = v.toNat / 2 ^ (8 * j) % 256) ∧
      sameOutside m (m.writeBytes a ((wordBytes v).take n)) a n := by
  have hlen : ((wordBytes v).take n).length = n := by simpa using hn
  refine ⟨fun j hj => ?_, fun c hc => read_writeBytes_outside m hlen hc⟩
  rw [Memory.read_writeBytes, hlen, if_pos (by omega), Nat.add_sub_cancel_left, ← toNat_getD_wordBytes v (by omega)]
  simp [List.getD_eq_getElem?_getD, hj]

/-! ### Reset (70_reset_and_hazards.md R301) -/

/-- The registers of R20, in its order. -/
def listedRegs : List HostReg :=
  [.id, .cap, .ctrl, .status, .errInfo, .cfg, .cmd, .operand .src, .operand .dst, .operand .len, .operand .aad,
    .operand .aadlen, .operand .tag, .operand .keya, .operand .noncea, .operand .ctrlo, .operand .ctrhi] ++
  (List.finRange 16).map .w

/-- R301's table is what the registers read after reset. -/
theorem resetTable_eq_map :
    ([ (0x000, 0x43423230), (0x004, 0x0000100B), (0x008, 0), (0x00C, 0), (0x010, 0), (0x014, 0x00001400), (0x018, 0),
      (0x020, 0), (0x024, 0), (0x028, 0), (0x02C, 0), (0x030, 0), (0x034, 0), (0x038, 0), (0x03C, 0), (0x040, 0),
      (0x044, 0) ] ++ (List.range 16).map fun i => (0x080 + 4 * i, 0) : List (Nat × Nat)) =
    listedRegs.map fun r => (r.offset, (r.read State.reset).toNat) := by
  decide

theorem statusWord_resetOf (p : Params) : (State.resetOf p).statusWord = 0 := by
  simp only [State.statusWord, State.ksAvail, State.resetOf]
  decide

theorem word_reset : Cfg.reset.word = 0x00001400 := by decide

/-- A read under `rst` or a write there leaves all but the port's reply and the counter of free values. -/
theorem accessUnderReset_frame (a : Access) (s : State) : accessUnderReset a s =
    { s with port := (accessUnderReset a s).port, freeCount := (accessUnderReset a s).freeCount } := by
  cases a <;> rfl

/-! ### The obligations -/

/-- Settles O17: the inversion of the step; an access faults exactly when it reaches no target, and R62 lists those. -/
theorem stopsAreExactlyTheBusErrors : Obligations.StopsAreExactlyTheBusErrors := by
  intro s
  refine ⟨fun r h => ?_, fun a rest hr hi => ?_, fun f h => ?_⟩
  · rcases step_cases s with ⟨t, ht, -⟩ | ⟨a, rest, -, -, -, hf⟩
    · cases h.symm.trans ht
    · cases h.symm.trans hf
  · rw [accessOffset_eq, accessBytes_eq, ← target_eq_none_iff_busErrorAccess]
    cases hg : target s.params a.offset a.width with
    | none => exact ⟨fun _ => rfl, fun _ => step_access_fault hi hr hg⟩
    | some g => simp [step_access_legal hi hr hg]
  · rcases step_cases s with ⟨t, ht, -⟩ | ⟨a, rest, hi, hr, -, hf⟩
    · cases h.symm.trans ht
    · cases h.symm.trans hf
      exact ⟨a, rest, hr, hi, rfl⟩

/-- Settles O20: a read records its reply only; while BUSY = 0 the data is what the spec gives, which no read changes. -/
theorem readsHaveNoSideEffect : Obligations.ReadsHaveNoSideEffect := by
  intro s t off width rest hi h
  rcases step_read_cases hi h with ⟨hr, rfl⟩ | ⟨hr, g, hg, rfl⟩
  · exact ⟨rfl, fun hr' => absurd (hr.symm.trans hr') (by decide)⟩
  · refine ⟨hostRead_frame g width _, fun _ hb more => ?_⟩
    rw [hostRead_given (by exact .inl hb), targetRead_congr (sameToReads_ownFields s rest s.port s.freeCount)]
    refine Eq.trans (step_access_legal (a := .read off width) rfl hr hg) ?_
    rw [Access.perform, hostRead_given (by exact .inl hb), targetRead_congr (sameToReads_ownFields s more _ s.freeCount)]

/-- Settles O21: a write and a read of one register; the register's width decides which bits come back. -/
theorem registerWritesReadBack : Obligations.RegisterWritesReadBack := by
  intro s v rest hr hb
  refine ⟨fun e he read hread hi => ?_, fun i read hread hi => ?_⟩
  · rw [registerWrites_eq_map] at he
    obtain ⟨r, hmem, rfl⟩ := List.mem_map.1 he
    have hcmd : r ≠ .cmd := by rintro rfl; exact absurd hmem (by decide)
    exact step_write_then_read hcmd hr hb hread hi
  · obtain ⟨hwrite, hthen⟩ := step_write_then_read (r := .w i) (by simp) hr hb hread hi
    refine ⟨_, hwrite, rfl, fun j => ?_, ?_⟩
    · have hset : (s.w.set i v)[j] = if i.val = j.val then v else s.w[j] := Vector.getElem_set ..
      exact hset.trans (by simp only [Fin.ext_iff, eq_comm])
    · have hself : HostReg.read (HostReg.write v s (.w i)) (.w i) = v := Vector.getElem_set_self ..
      rw [hself] at hthen
      exact hthen

/-- Settles O22: the fields of STATUS as a number, its write rule, and ERR_INFO's table. -/
theorem statusFields : Obligations.StatusFields := by
  intro s hinv
  refine ⟨?_, fun v rest hr hi => ?_, fun rest hr hb hi => ?_⟩
  · obtain ⟨hbusy, hdone, hovr, h3, herr, hdrv, hkv, hpst, h13, hks, h26⟩ := statusWord_fields s
    refine ⟨hbusy, hdone, hovr, h3, herr.trans ?_, hdrv.trans ?_, hkv, hpst.trans ?_, h13,
      hks.trans (toNat_ksAvail hinv), h26⟩
    · cases s.err <;> rfl
    · cases s.drv <;> rfl
    · cases s.pst <;> rfl
  · exact step_writeReg_performed (r := .status) hr (.inr rfl) hi
  · rw [step_readReg_given (r := .errInfo) hr (.inl hb) hi, HostReg.read, errInfoWord_eq_infoValue]

/-- Settles O24: alignment decides whether the access reaches DMEM; the bytes go least significant first both ways. -/
theorem dmemWindowIsLittleEndian : Obligations.DmemWindowIsLittleEndian := by
  intro s a n v rest hr hb hn ha
  refine ⟨fun hm b hbad hi => ?_, fun hm => ⟨fun hi => ?_, fun hi => ?_⟩⟩
  · have hnone := target_dmemOffset_misaligned ha hn hm
    rcases hbad with rfl | rfl
    · exact step_access_fault hi hr hnone
    · exact step_access_fault hi hr hnone
  · rw [step_access_legal hi hr (target_dmemOffset ha hn hm), Access.perform, hostRead_given (by exact .inl hb), Target.read,
      bytes_widthOf hn, leInt_readBytes]
    rfl
  · rw [step_access_legal hi hr (target_dmemOffset ha hn hm), Access.perform, hostWrite_performed (by exact .inl hb),
      Target.write, bytes_widthOf hn]
    exact ⟨_, rfl, writeBytes_wordBytes s.mem a v (by fin_cases hn <;> decide)⟩

/-- Settles O25: of KS a read shows the length alone, in STATUS; of the other secrets it shows nothing. -/
theorem secretsAreNotHostReadable : Obligations.SecretsAreNotHostReadable := by
  intro s o off width rest hlen hi s'
  have hi' : s'.inputs = .access (.read off width) :: rest := hi
  have hstatus : s'.statusWord = s.statusWord := by
    simp only [s', State.statusWord, State.ksAvail, hlen]
  have hsame : SameToReads { s with inputs := rest } { s' with inputs := rest } :=
    ⟨rfl, rfl, hstatus, rfl, rfl, rfl, rfl, rfl⟩
  refine ⟨fun f hf => ?_, fun t ht => ?_⟩
  · rcases step_cases s with ⟨t, ht, -⟩ | ⟨a, rest', hi₀, hr, hg, ha⟩
    · cases hf.symm.trans ht
    · cases hf.symm.trans ha
      exact step_access_fault (s := s') hi₀ hr hg
  · rcases step_read_cases hi ht with ⟨hr, rfl⟩ | ⟨hr, g, hg, rfl⟩
    · exact ⟨_, (step_access hi').trans (hostAccess_rst (by exact hr) _), rfl⟩
    · exact ⟨_, step_access_legal hi' hr hg, hostRead_port_congr hsame rfl rfl g width⟩

/-- Settles O26: the reset table, and what the other inputs do while `rst` is asserted. -/
theorem resetGivesTheTable : Obligations.ResetGivesTheTable := by
  intro s rest
  refine ⟨fun hi => ⟨_, step_rst hi, ?_⟩, fun hr => ⟨fun a hi => ?_, fun hi => ?_, fun hi => ?_⟩⟩
  · refine ⟨rfl, rfl, rfl, rfl, rfl, rfl, rfl, rfl, rfl, rfl, statusWord_resetOf s.params, word_reset, rfl, fun i => ?_,
      fun i => ?_, rfl, rfl, rfl, rfl, rfl, rfl, rfl, rfl, rfl, rfl, Nat.succ_ne_self _⟩
    · exact Vector.getElem_replicate i.isLt
    · exact Vector.getElem_replicate i.isLt
  · exact ⟨_, _, (step_access hi).trans ((hostAccess_rst (by exact hr) a).trans (congrArg _ (accessUnderReset_frame a _)))⟩
  · exact (step_engine hi).trans (engineTurn_idle (.inr hr))
  · exact step_rst hi

/-- Settles O27: a read of each listed register in the reset state. -/
theorem resetStateReadsAsTheTable : Obligations.ResetStateReadsAsTheTable := by
  unfold Obligations.ResetStateReadsAsTheTable
  rw [resetTable_eq_map]
  intro e he
  obtain ⟨r, -, rfl⟩ := List.mem_map.1 he
  refine ⟨_, step_readReg_given (r := r) rfl (.inl rfl) rfl, ?_⟩
  rw [BitVec.ofNat_toNat, BitVec.setWidth_eq]
  exact congrArg PortReply.data (targetRead_congr (sameToReads_ownFields State.reset _ .idle 0) (.reg r) .b32)

end Sys2Proof.Proofs
end

section
/-! How a command runs and ends (60_exceptions.md R270, R272, R275, 70_reset_and_hazards.md R287, 41_keystream.md R163): the engine's turn,
completion, the first failing check, and what no command writes or reads. -/

open Sys2Proof Sys2Proof.Machine Sys2Proof.Claims

namespace Sys2Proof.Proofs

/-! ### Completion (60_exceptions.md R270) -/

/-- A decoded command ends with any result but IllegalCommand. -/
theorem exec_eq_complete (i : Instr) (s : State) : ∃ e r, exec i s = .next (State.complete r e) ∧ r ≠ .illegalCommand := by
  obtain ⟨t, ht, ⟨c, rfl⟩ | ⟨e, -⟩ | - | -⟩ := exec_ends i s
  · exact ⟨s, _, ht, by simp⟩
  · exact ⟨e, _, ht, by simp⟩
  · exact ⟨s, _, ht, by simp⟩
  · refine ⟨s.misused, _, ht, ?_⟩
    unfold misuseResult
    split <;> simp

theorem result_err_eq_illegalCommand {r : Result} : r.err = .illegalCommand ↔ r = .illegalCommand := by
  cases r <;> simp [Result.err]

/-- A busy engine's turn ends the command. -/
theorem engineTurn_ends_busy {s t : State} (hr : s.rst = false) (hb : s.busy = true) (h : engineTurn s = .next t) :
    t.busy = false := by
  cases hd : decode s.cmdl with
  | illegal why => rw [engineTurn_illegal hb hr hd] at h; cases h; rfl
  | instr i =>
    obtain ⟨e, r, he, -⟩ := exec_eq_complete i s
    rw [engineTurn_instr hb hr hd, he] at h
    cases h
    rfl

/-! ### What no command writes (10_state.md R27, R29, R39) -/

theorem effect_epoch {i : Instr} {s e : State} (h : Effect i s e) : e.mem.epoch = s.mem.epoch := by
  cases i with
  | nop | qrC | drC | qrS | drS | zeroize | pInit => cases h; rfl
  | permC | permS | ldkey | pBlock | pUpdate => obtain ⟨-, rfl⟩ := h; rfl
  | setiv | setctr | reset => obtain ⟨alg, -, -, rfl⟩ := h; rfl
  | ksgen1 | ksgen2 | ksgen4 | ksgen8 => obtain ⟨alg, -, -, -, rfl⟩ := h; rfl
  | pFinal | aeadEnc | aeadDec => obtain ⟨-, -, rfl⟩ := h; simp
  | hnonce => obtain ⟨alg, -, -, -, rfl⟩ := h; simp
  | update => obtain ⟨alg, -, -, -, -, rfl⟩ := h; simp

theorem misused_epoch (s : State) : s.misused.mem.epoch = s.mem.epoch := by
  rcases s.misused_mem_cases with h | ⟨-, h⟩ <;> rw [h]
  exact Memory.writeBytes_epoch ..

/-- The registers, the parameters and the model's own fields that every command keeps. -/
def KeepsRegisters (s t : State) : Prop :=
  t.regs = s.regs ∧ t.cfg = s.cfg ∧ t.ie = s.ie ∧ t.cmdl = s.cmdl ∧ t.ovr = s.ovr ∧ t.params = s.params ∧
    t.rst = s.rst ∧ t.port = s.port ∧ t.inputs = s.inputs ∧ t.mem.epoch = s.mem.epoch

theorem keepsRegisters_complete (s : State) (r : Result) : KeepsRegisters s (s.complete r) :=
  ⟨rfl, rfl, rfl, rfl, rfl, rfl, rfl, rfl, rfl, rfl⟩

theorem effect_keepsRegisters {i : Instr} {s e : State} (h : Effect i s e) : KeepsRegisters s (e.complete .ok) := by
  have hepoch := effect_epoch h
  rw [effect_frame h] at hepoch ⊢
  exact ⟨rfl, rfl, rfl, rfl, rfl, rfl, rfl, rfl, rfl, hepoch⟩

theorem exec_keepsRegisters {i : Instr} {s t : State} (h : exec i s = .next t) : KeepsRegisters s t := by
  rcases exec_cases h with ⟨c, rfl⟩ | ⟨e, he⟩ | - | -
  · exact keepsRegisters_complete s _
  · exact effect_keepsRegisters he
  · exact keepsRegisters_complete s _
  · simp [KeepsRegisters, misused_epoch]

/-! ### The first failing check (60_exceptions.md R272, R275) -/

/-- The outcome `r` of a rule on `s` with the conditions `ps`: the first that holds is raised; with none the outcome is in `Q`. -/
def Follows (s : State) (Q : State → Prop) (ps : List (Prop × SubCause)) (r : StepResult) : Prop :=
  (∀ c, firstOf ps = some c → r = .next (doneInvalid s c)) ∧ (firstOf ps = none → ∃ t, r = .next t ∧ Q t)

/-- ALG = 3 is the only reserved value (10_state.md R26). -/
theorem exists_algIs {s : State} (h : s.cfg.alg ≠ 3#2) : ∃ alg, algIs s alg := by
  have hcases : ∀ a : BitVec 2, a = 0#2 ∨ a = 1#2 ∨ a = 2#2 ∨ a = 3#2 := by decide
  rcases hcases s.cfg.alg with ha | ha | ha | ha
  exacts [⟨.ietf, ha⟩, ⟨.original, ha⟩, ⟨.salsa, ha⟩, absurd ha h]

theorem alg?_eq_none_iff {s : State} : s.cfg.alg? = none ↔ s.cfg.alg = 3#2 := by
  rw [Cfg.alg?]
  generalize s.cfg.alg = a
  revert a
  decide

namespace Follows
variable {s : State} {Q : State → Prop} {ps : List (Prop × SubCause)} {k : StepResult}

theorem nil {t : State} (h : Q t) : Follows s Q [] (.next t) := ⟨fun c hc => (by cases hc), fun _ => ⟨t, rfl, h⟩⟩

/-- The condition holds and its sub-cause is raised. -/
theorem raised {p : Prop} {c : SubCause} (hp : p) : Follows s Q ((p, c) :: ps) (raise c s) := by
  have hfirst : firstOf ((p, c) :: ps) = some c := if_pos hp
  refine ⟨fun d hd => ?_, fun hd => absurd (hd.symm.trans hfirst) (by simp)⟩
  cases hfirst.symm.trans hd
  rfl

/-- The condition does not hold, and the rule goes on. -/
theorem passed {p : Prop} {c : SubCause} (hp : ¬p) (h : Follows s Q ps k) : Follows s Q ((p, c) :: ps) k := by
  have hfirst : firstOf ((p, c) :: ps) = firstOf ps := if_neg hp
  rw [Follows, hfirst]
  exact h

/-- One check of the model against one condition of the rule. -/
theorem check {p : Prop} {failed : Bool} {c : SubCause} {cs : List Check} (hp : failed = true ↔ p)
    (h : Follows s Q ps (checked cs s k)) : Follows s Q ((p, c) :: ps) (checked (⟨failed, c⟩ :: cs) s k) := by
  cases failed with
  | true => exact raised (hp.1 rfl)
  | false => exact passed (fun h => Bool.false_ne_true (hp.2 h)) h

/-- The last check has passed. -/
theorem checks_nil (h : Follows s Q ps k) : Follows s Q ps (checked [] s k) := by
  rw [checked_pass firstFailure_nil]
  exact h

theorem withAlg {k : Alg → StepResult} (h : ∀ alg, algIs s alg → Follows s Q ps (k alg)) :
    Follows s Q ((s.cfg.alg = 3#2, .algReserved) :: ps) (withAlg s k) := by
  by_cases h3 : s.cfg.alg = 3#2
  · rw [withAlg_none (alg?_eq_none_iff.2 h3)]
    exact raised h3
  · obtain ⟨alg, ha⟩ := exists_algIs h3
    rw [withAlg_some (alg?_of_algIs ha)]
    exact passed h3 (h alg ha)

theorem withActiveMac (hf : s.pst ≠ .finished) (h : Follows s Q ps k) :
    Follows s Q ((s.pst = .idle, .polyNotActive) :: ps) (withActiveMac s k) := by
  cases hp : s.pst with
  | idle =>
    simp only [Machine.withActiveMac, hp]
    exact raised trivial
  | active =>
    rw [withActiveMac_active hp]
    exact passed (by simp) h
  | finished => exact absurd hp hf

end Follows

/-! ### Each check is the condition of its rule -/

section Conditions
variable {s : State}

theorem roundsCheck_iff : (roundsCheck s).failed = true ↔ ¬roundsLegal s := by
  rw [← validRounds_iff_roundsLegal]
  simp [roundsCheck]

theorem keyLoadedCheck_iff : (keyLoadedCheck s).failed = true ↔ s.kv = false := by
  simp [keyLoadedCheck]

theorem initialisedCheck_iff : (initialisedCheck s).failed = true ↔ s.drv = .unkeyed := by
  simp [initialisedCheck]

theorem inRange_fails_iff (a : Word) (n : Nat) : (!s.inRange a n) = true ↔ beyond s a n := by
  rw [Bool.not_eq_true', ← Bool.not_eq_true, State.inRange_iff, Nat.not_le]
  rfl

theorem klen_fails_iff : (s.klen != .k32) = true ↔ s.klen = .k16 := by
  cases s.klen <;> decide

theorem intersects_iff {x y : Range} : x.intersects y = true ↔ meets x.addr x.len y.addr y.len := decide_eq_true_iff

/-- Two ranges of a command conflict when they are named by different operands and meet, the exact in-place pair apart (R65). -/
theorem conflicts_iff {o r : Range} : o.conflicts r = true ↔
    o.name ≠ r.name ∧ meets o.addr o.len r.addr r.len ∧
      ¬(o.name = .dst ∧ r.name = .src ∧ o.addr = r.addr ∧ o.len = r.len) := by
  simp only [Range.conflicts, Range.inPlace, Bool.and_eq_true, Bool.not_eq_true', Bool.eq_false_iff, bne_iff_ne, beq_iff_eq,
    intersects_iff, and_assoc, Ne]

theorem overlap_iff {outs all : List Range} :
    overlap outs all = true ↔ ∃ o ∈ outs, ∃ r ∈ all, o.conflicts r = true := by
  simp [overlap]

theorem update_overlap_iff : overlap [s.dstRange] [s.srcRange, s.dstRange] = true ↔
    meets s.regs.dst.toNat s.regs.len.toNat s.regs.src.toNat s.regs.len.toNat ∧ s.regs.dst ≠ s.regs.src := by
  simp [overlap_iff, conflicts_iff, State.dstRange, State.srcRange, BitVec.toNat_inj]

theorem hnonce_overlap_iff : overlap [s.hnonceDstRange] [s.hnonceDstRange, s.nonceRange 16] = true ↔
    meets s.regs.dst.toNat 32 s.regs.noncea.toNat 16 := by
  simp [overlap_iff, conflicts_iff, State.hnonceDstRange, State.nonceRange]

theorem aeadEnc_overlap_iff : overlap [s.dstRange, s.tagRange] s.aeadRanges = true ↔ aeadOverlap s false := by
  simp [overlap_iff, conflicts_iff, State.aeadRanges, State.dstRange, State.srcRange, State.tagRange, State.aadRange,
    State.nonceRange, State.aeadNonceLen, aeadOverlap, BitVec.toNat_inj, or_assoc, or_left_comm]

theorem aeadDec_overlap_iff : overlap [s.dstRange] s.aeadRanges = true ↔ aeadOverlap s true := by
  simp [overlap_iff, conflicts_iff, State.aeadRanges, State.dstRange, State.srcRange, State.tagRange, State.aadRange,
    State.nonceRange, State.aeadNonceLen, aeadOverlap, BitVec.toNat_inj]

/-- `NonceLen` of R154 by the fields of CFG. -/
theorem nonceLen_eq_nonceBytes {alg : Alg} (ha : algIs s alg) : nonceLen alg s.cfg.xn = nonceBytes s := by
  unfold nonceLen nonceBytes
  cases alg <;> simp only [algIs] at ha <;> simp [ha]

theorem alg_eq_original_iff {alg : Alg} (ha : algIs s alg) : alg = .original ↔ s.cfg.alg = 1#2 := by
  cases alg <;> simp only [algIs] at ha <;> simp [ha]

theorem alg_ne_ietf_iff {alg : Alg} (ha : algIs s alg) : (alg != .ietf) = true ↔ s.cfg.alg ≠ 0#2 := by
  cases alg <;> simp only [algIs] at ha <;> simp [ha]

theorem keyLen_bytes : s.cfg.keyLen.bytes = if s.cfg.k16 = true then 16 else 32 := by
  unfold Cfg.keyLen
  split <;> rfl

end Conditions

/-! ### Each command follows its rule's checks -/

section Commands
variable {s : State} {Q : State → Prop}

theorem ksgen_follows (n : Nat) (hQ : ∀ e, Q (State.complete .ok e)) : Follows s Q (ksgenChecks s) (ksgen n s) :=
  .check initialisedCheck_iff <| .checks_nil <| .withAlg fun _ _ => .check roundsCheck_iff <| .checks_nil (.nil (hQ _))

theorem aeadChecked_follows {outs : List Range} {isdec : Bool} {k : StepResult}
    (ho : overlap outs s.aeadRanges = true ↔ aeadOverlap s isdec) (hk : Follows s Q [] k) :
    Follows s Q (aeadChecks s isdec) (aeadChecked outs s k) :=
  .check keyLoadedCheck_iff <| .checks_nil <| .withAlg fun _ ha =>
    .check (alg_ne_ietf_iff ha) <| .check klen_fails_iff <| .check (inRange_fails_iff ..) <| .check (inRange_fails_iff ..) <|
    .check (inRange_fails_iff ..) <| .check (inRange_fails_iff ..) <| .check (inRange_fails_iff ..) <| .check ho <|
    .checks_nil hk

/-- What a command whose checks all pass ends with: ERR = 0, or for AEAD.DEC a wrong tag. -/
def EndsWell (i : Instr) (t : State) : Prop :=
  t.errInfo = none ∧ (t.err = .none ∨ (i = .aeadDec ∧ t.err = .authenticationFailure))

theorem exec_follows (i : Instr) (hmac : guardedByMac i → s.pst ≠ .finished) :
    Follows s (EndsWell i) (checksOf s i) (exec i s) := by
  have hok : ∀ e, EndsWell i (State.complete .ok e) := fun e => ⟨rfl, .inl rfl⟩
  cases i with
  | nop | qrC | drC | qrS | drS | zeroize => exact .nil (hok _)
  | permC | permS => exact .check roundsCheck_iff <| .checks_nil (.nil (hok _))
  | ldkey =>
    refine .check ?_ <| .checks_nil (.nil (hok _))
    rw [inRange_fails_iff, keyLen_bytes]
  | setiv =>
    refine .check keyLoadedCheck_iff <| .checks_nil <| .withAlg fun alg ha => ?_
    refine .check ?_ <| .check ?_ <| .check ?_ <| .check ?_ <| .checks_nil (.nil (hok _))
    · simp [alg_eq_original_iff ha]
    · simp only [Bool.and_eq_true, klen_fails_iff]
    · exact (Bool.and_eq_true ..).to_iff.trans (and_congr_right fun _ => roundsCheck_iff)
    · rw [inRange_fails_iff, nonceLen_eq_nonceBytes ha]
  | setctr | reset => exact .check initialisedCheck_iff <| .checks_nil <| .withAlg fun _ _ => .nil (hok _)
  | ksgen1 => exact ksgen_follows 1 hok
  | ksgen2 => exact ksgen_follows 2 hok
  | ksgen4 => exact ksgen_follows 4 hok
  | ksgen8 => exact ksgen_follows 8 hok
  | update =>
    exact .check initialisedCheck_iff <| .checks_nil <| .withAlg fun _ _ => .check roundsCheck_iff <|
      .check (inRange_fails_iff ..) <| .check (inRange_fails_iff ..) <| .check update_overlap_iff <| .checks_nil (.nil (hok _))
  | hnonce =>
    exact .check keyLoadedCheck_iff <| .checks_nil <| .withAlg fun _ _ => .check klen_fails_iff <| .check roundsCheck_iff <|
      .check (inRange_fails_iff ..) <| .check (inRange_fails_iff ..) <| .check hnonce_overlap_iff <| .checks_nil (.nil (hok _))
  | pInit => exact .check (inRange_fails_iff ..) <| .checks_nil (.nil (hok _))
  | pBlock h =>
    refine .withActiveMac (hmac (.inl ⟨h, rfl⟩)) <| .check ?_ <| .check (inRange_fails_iff ..) <| .checks_nil (.nil (hok _))
    simp
  | pUpdate => exact .withActiveMac (hmac (.inr (.inl rfl))) <| .check (inRange_fails_iff ..) <| .checks_nil (.nil (hok _))
  | pFinal => exact .withActiveMac (hmac (.inr (.inr rfl))) <| .check (inRange_fails_iff ..) <| .checks_nil (.nil (hok _))
  | aeadEnc => exact aeadChecked_follows aeadEnc_overlap_iff (.nil (hok _))
  | aeadDec =>
    refine aeadChecked_follows aeadDec_overlap_iff ?_
    dsimp only
    split
    · exact .nil (hok _)
    · exact .nil ⟨rfl, .inr ⟨rfl, rfl⟩⟩

end Commands

/-! ### The tier parameters (41_keystream.md R163) -/

theorem overlay_withTiers (v128 v256 : Bool) : Overlay (withTiers v128 v256) := ⟨fun _ _ => rfl, fun _ => rfl⟩

theorem misused_withTiers (v128 v256 : Bool) (s : State) :
    (withTiers v128 v256 s).misused = withTiers v128 v256 s.misused := by
  unfold State.misused
  dsimp only [withTiers]
  split <;> rfl

/-- A change of the state that MAC misuse does not read is carried by the guard of the MAC commands. -/
theorem Carries.of_withActiveMac {f : State → State} (hf : Overlay f) {s : State} (hpst : (f s).pst = s.pst)
    (hcount : (f s).freeCount = s.freeCount) (hmisused : (f s).misused = f s.misused) {k k' : StepResult}
    (h : Carries f k k') : Carries f (withActiveMac s k) (withActiveMac (f s) k') := by
  rw [withActiveMac, withActiveMac, hpst, hcount, hmisused]
  cases s.pst with
  | idle => exact of_raise hf _
  | active => exact h
  | finished => exact of_complete hf _ _

/-- No command reads P_HAS_V128 or P_HAS_V256. -/
theorem ignores_withTiers (v128 v256 : Bool) (i : Instr) : Ignores (withTiers v128 v256) i := by
  have hf := overlay_withTiers v128 v256
  have hksgen : ∀ n s, Carries (withTiers v128 v256) (ksgen n s) (ksgen n (withTiers v128 v256 s)) := fun n s =>
    .of_checked hf _ (.of_withAlg hf fun _ => .of_checked hf _ (.of_succeed hf _))
  intro s
  cases i with
  | nop | qrC | drC | qrS | drS | zeroize => exact .of_succeed hf _
  | permC | permS | ldkey | pInit => exact .of_checked hf _ (.of_succeed hf _)
  | setiv | update | hnonce | aeadEnc =>
    exact .of_checked hf _ (.of_withAlg hf fun _ => .of_checked hf _ (.of_succeed hf _))
  | setctr | reset => exact .of_checked hf _ (.of_withAlg hf fun _ => .of_succeed hf _)
  | ksgen1 => exact hksgen 1 s
  | ksgen2 => exact hksgen 2 s
  | ksgen4 => exact hksgen 4 s
  | ksgen8 => exact hksgen 8 s
  | pBlock | pUpdate | pFinal =>
    exact .of_withActiveMac hf rfl rfl (misused_withTiers v128 v256 s) (.of_checked hf _ (.of_succeed hf _))
  | aeadDec =>
    exact .of_checked hf _ (.of_withAlg hf fun _ => .of_checked hf _ (.of_ite _ (.of_succeed hf _) (.of_complete hf _ _)))

/-! ### The obligations -/

/-- Settles O7: the engine's turn with its input taken off the list, or with none left. -/
theorem engineTurnRunsTheDecodedCommand : Obligations.EngineTurnRunsTheDecodedCommand := by
  intro s i hb hr hd
  exact ⟨fun rest hi => (step_engine hi).trans (engineTurn_instr hb hr hd),
    fun hi => (step_nil hi).trans (engineTurn_instr hb hr hd)⟩

/-- Settles O8: an idle turn changes nothing; a busy one clears BUSY. -/
theorem idleExactlyWhenNotBusy : Obligations.IdleExactlyWhenNotBusy := by
  intro s hr hi
  rw [step_nil hi]
  refine ⟨fun h => ?_, fun hb => engineTurn_idle (.inl hb)⟩
  rcases Bool.eq_false_or_eq_true s.busy with hb | hb
  · exact engineTurn_ends_busy hr hb h
  · exact hb

/-- Settles O11: every outcome of a command is a completion. -/
theorem everyCommandCompletes : Obligations.EveryCommandCompletes := by
  intro i s
  obtain ⟨e, r, h, hr⟩ := exec_eq_complete i s
  exact ⟨_, h, rfl, rfl, result_info_iff r, fun he => hr (result_err_eq_illegalCommand.1 he)⟩

/-- Settles O14: the frame of every outcome. -/
theorem commandsKeepRegistersAndInputs : Obligations.CommandsKeepRegistersAndInputs :=
  fun _ _ _ h => exec_keepsRegisters h

/-- Settles O10: the issue, the engine's turn on the issued word, and a read of STATUS in a completed state. -/
theorem runIssuesExecutesAndReports : Obligations.RunIssuesExecutesAndReports := by
  intro s i rest hb hr hi
  have hissue := step_writeReg_performed (r := .cmd) hr (.inl hb) hi
  obtain ⟨b, hexec, hbusy, hdone, -⟩ := everyCommandCompletes i
    { s.issue (encode i) with inputs := readStatusInput :: rest, port := .written }
  obtain ⟨-, -, -, -, -, -, hrst, -, hinputs, -⟩ := exec_keepsRegisters hexec
  have hread : step b = .next { b with inputs := rest, port := .data b.statusWord } :=
    step_readReg_given (r := .status) (hrst.trans hr) (.inl hbusy) hinputs
  obtain ⟨h0, h1, -⟩ := statusWord_fields b
  refine ⟨_, b, hissue, rfl, rfl, hexec, ?_, hread, h0.trans hbusy, h1.trans hdone⟩
  refine Eq.trans (step_engine rfl) (Eq.trans (engineTurn_instr rfl ?_ ?_) hexec)
  · exact hr
  · exact decodeOfEncodeIsTheCommand i

/-- Settles O12: the model's checks are the rule's conditions, one by one and in order. -/
theorem firstFailingCheckIsRaised : Obligations.FirstFailingCheckIsRaised := fun i _ hmac => exec_follows i hmac

/-- Settles O16: no check and no effect reads the tiers. -/
theorem tiersChangeNoResult : Obligations.TiersChangeNoResult :=
  fun i s t v128 v256 h => ignores_withTiers v128 v256 i s t h

end Sys2Proof.Proofs
end

section
/-! The permutation commands (40_permutation.md R121 to R135): the quarter rounds on distinct lanes in closed form, the rounds as
sequences of quarter-round and double-round commands, and that every one is a bijection on W. -/

open Sys2Proof Sys2Proof.Machine Sys2Proof.Claims

namespace Sys2Proof.Proofs

/-! ### Commands that change W alone -/

/-- The command completes with W changed by `f`, whatever the state. -/
def ActsOnW (i : Instr) (f : CipherState → CipherState) : Prop :=
  ∀ s : State, exec i s = .next (doneOk { s with w := f s.w })

theorem drC_actsOnW : ActsOnW .drC doubleC := fun _ => succeed_eq_next_doneOk _

theorem drS_actsOnW : ActsOnW .drS doubleS := fun _ => succeed_eq_next_doneOk _

theorem exec_permC_of_roundsLegal {s : State} (h : roundsLegal s) (x : CipherState) :
    exec .permC { s with w := x } = .next (doneOk { s with w := doubleC^[s.cfg.rounds.toNat / 2] x }) :=
  exec_permC (s := { s with w := x }) ((validRounds_iff_roundsLegal s).2 h)

theorem exec_permS_of_roundsLegal {s : State} (h : roundsLegal s) (x : CipherState) :
    exec .permS { s with w := x } = .next (doneOk { s with w := doubleS^[s.cfg.rounds.toNat / 2] x }) :=
  exec_permS (s := { s with w := x }) ((validRounds_iff_roundsLegal s).2 h)

/-- Such commands run one after the other: their changes of W, and one completion. -/
theorem runAll_actsOnW {α : Type} (instr : α → Instr) (f : α → CipherState → CipherState)
    (hf : ∀ a, ActsOnW (instr a) (f a)) (as : List α) (hne : as ≠ []) (s : State) :
    runAll (as.map instr) s = .next (doneOk { s with w := as.foldl (fun x a => f a x) s.w }) := by
  induction as generalizing s with
  | nil => exact absurd rfl hne
  | cons a as ih =>
    rw [List.map_cons, runAll_cons_of_exec (hf a s)]
    by_cases h : as = []
    · subst h; rfl
    · exact ih h _

theorem foldl_replicate_eq_iterate (f : CipherState → CipherState) (n : Nat) (x : CipherState) :
    (List.replicate n ()).foldl (fun y _ => f y) x = f^[n] x := by
  induction n generalizing x with
  | zero => rfl
  | succ n ih => exact ih (f x)

theorem runAll_replicate {i : Instr} {f : CipherState → CipherState} (hf : ActsOnW i f) {n : Nat} (hn : n ≠ 0) (s : State) :
    runAll (List.replicate n i) s = .next (doneOk { s with w := f^[n] s.w }) := by
  have h := runAll_actsOnW (fun _ => i) (fun _ => f) (fun _ => hf) (List.replicate n ()) (by simpa using hn) s
  rwa [List.map_replicate, foldl_replicate_eq_iterate] at h

/-- A legal ROUNDS is at least two double rounds. -/
theorem half_rounds_ne_zero {s : State} (h : roundsLegal s) : s.cfg.rounds.toNat / 2 ≠ 0 := by
  obtain ⟨h0, h4⟩ := h
  omega

/-! ### Quarter rounds on distinct lanes -/

theorem getElem_set_lane (x : CipherState) (p q : Lane) (v : Word) : (x.set p v)[q] = if p = q then v else x[q] :=
  (Vector.getElem_set ..).trans (by simp only [Fin.ext_iff]; rfl)

/-- One line of R121 on two distinct lanes: the sum, and the rotation that reads it. -/
theorem getElem_addXorRotate {p r : Lane} (h : p ≠ r) {n : Nat} (hn : n < 32) (x : CipherState) (q i : Lane) :
    (addXorRotate x p q r n)[i] =
      if r = i then rot (x[r] ^^^ (x[p] + x[q])) n else if p = i then x[p] + x[q] else x[i] := by
  rw [addXorRotate_eq_rot hn]
  simp only [getElem_set_lane, h, if_true, if_false]

/-- One line of R127. -/
theorem getElem_addRotateXor {n : Nat} (hn : n < 32) (x : CipherState) (t p q i : Lane) :
    (addRotateXor x t p q n)[i] = if t = i then x[t] ^^^ rot (x[p] + x[q]) n else x[i] := by
  rw [addRotateXor_eq_rot hn, getElem_set_lane]

section DistinctLanes
variable {a b c d : Lane}

/-- Each two of the four lanes are different. -/
theorem ne_of_nodup (h : [a, b, c, d].Nodup) : a ≠ b ∧ a ≠ c ∧ a ≠ d ∧ b ≠ c ∧ b ≠ d ∧ c ≠ d := by
  simp only [List.nodup_cons, List.mem_cons, List.not_mem_nil, or_false, not_or] at h
  tauto

theorem quarterC_lanes (h : [a, b, c, d].Nodup) (x : CipherState) :
    (∀ i : Lane, i ∉ [a, b, c, d] → (quarterC x a b c d)[i] = x[i]) ∧
    (let a1 := x[a] + x[b]; let d1 := rot (x[d] ^^^ a1) 16; let c1 := x[c] + d1; let b1 := rot (x[b] ^^^ c1) 12
     let a2 := a1 + b1; let d2 := rot (d1 ^^^ a2) 8; let c2 := c1 + d2; let b2 := rot (b1 ^^^ c2) 7
     (quarterC x a b c d)[a] = a2 ∧ (quarterC x a b c d)[b] = b2 ∧ (quarterC x a b c d)[c] = c2 ∧
       (quarterC x a b c d)[d] = d2) := by
  obtain ⟨hab, hac, had, hbc, hbd, hcd⟩ := ne_of_nodup h
  have line16 (y : CipherState) (i : Lane) := getElem_addXorRotate had (n := 16) (by decide) y b i
  have line12 (y : CipherState) (i : Lane) := getElem_addXorRotate hbc.symm (n := 12) (by decide) y d i
  have line8 (y : CipherState) (i : Lane) := getElem_addXorRotate had (n := 8) (by decide) y b i
  have line7 (y : CipherState) (i : Lane) := getElem_addXorRotate hbc.symm (n := 7) (by decide) y d i
  constructor
  · intro i hi
    simp only [List.mem_cons, List.not_mem_nil, or_false, not_or, @eq_comm _ i] at hi
    obtain ⟨hai, hbi, hci, hdi⟩ := hi
    simp only [quarterC, line16, line12, line8, line7, hai, hbi, hci, hdi, if_false]
  · simp only [quarterC, line16, line12, line8, line7, hab, hac, had, hbc, hbd, hcd, hab.symm, hac.symm, had.symm, hbc.symm,
      hbd.symm, hcd.symm, if_true, if_false, and_self]

theorem quarterS_lanes (h : [a, b, c, d].Nodup) (x : CipherState) :
    (∀ i : Lane, i ∉ [a, b, c, d] → (quarterS x a b c d)[i] = x[i]) ∧
    (let b1 := x[b] ^^^ rot (x[a] + x[d]) 7; let c1 := x[c] ^^^ rot (b1 + x[a]) 9
     let d1 := x[d] ^^^ rot (c1 + b1) 13; let a1 := x[a] ^^^ rot (d1 + c1) 18
     (quarterS x a b c d)[a] = a1 ∧ (quarterS x a b c d)[b] = b1 ∧ (quarterS x a b c d)[c] = c1 ∧
       (quarterS x a b c d)[d] = d1) := by
  obtain ⟨hab, hac, had, hbc, hbd, hcd⟩ := ne_of_nodup h
  have line7 (y : CipherState) (i : Lane) := getElem_addRotateXor (n := 7) (by decide) y b a d i
  have line9 (y : CipherState) (i : Lane) := getElem_addRotateXor (n := 9) (by decide) y c b a i
  have line13 (y : CipherState) (i : Lane) := getElem_addRotateXor (n := 13) (by decide) y d c b i
  have line18 (y : CipherState) (i : Lane) := getElem_addRotateXor (n := 18) (by decide) y a d c i
  constructor
  · intro i hi
    simp only [List.mem_cons, List.not_mem_nil, or_false, not_or, @eq_comm _ i] at hi
    obtain ⟨hai, hbi, hci, hdi⟩ := hi
    simp only [quarterS, line7, line9, line13, line18, hai, hbi, hci, hdi, if_false]
  · simp only [quarterS, line7, line9, line13, line18, hab, hac, had, hbc, hbd, hcd, hab.symm, hac.symm, had.symm, hbc.symm,
      hbd.symm, hcd.symm, if_true, if_false, and_self]

end DistinctLanes

/-! ### Bijections on W (40_permutation.md R135) -/

theorem set_getElem_self (x : CipherState) (p : Lane) : x.set p x[p] = x := by
  refine Vector.ext fun i hi => ?_
  rw [Vector.getElem_set]
  split
  case isTrue h => subst h; rfl
  case isFalse => rfl

/-- A lane replaced by a bijection of itself, chosen by the other lanes alone. -/
theorem bijective_set_lane (p : Lane) (u : CipherState → Word → Word) (hu : ∀ x, (u x).Bijective)
    (hother : ∀ x v, u (x.set p v) = u x) : Function.Bijective fun x : CipherState => x.set p (u x x[p]) := by
  constructor
  · intro x y hxy
    have hlanes : y = x.set p y[p] := by
      have h := congrArg (fun z => Vector.set z p y[p]) hxy
      simpa only [Vector.set_set, set_getElem_self] using h.symm
    have hlane : u x x[p] = u y y[p] := by
      have h := congrArg (fun z : CipherState => z[p]) hxy
      simpa only [getElem_set_lane, if_true] using h
    have hsame : u y = u x := by rw [hlanes, hother]
    rw [hsame] at hlane
    rw [hlanes, ← (hu x).1 hlane, set_getElem_self]
  · intro y
    obtain ⟨v, hv⟩ := (hu y).2 y[p]
    refine ⟨y.set p v, ?_⟩
    simp only [hother, getElem_set_lane, if_true, Vector.set_set, hv, set_getElem_self]

theorem rot_injective {n : Nat} (hn : n < 32) : Function.Injective fun x : Word => rot x n := by
  intro x y h
  apply BitVec.eq_of_getLsbD_eq
  intro i hi
  have hbit (j : Nat) : (x.rotateLeft n).getLsbD j = (y.rotateLeft n).getLsbD j := congrArg (BitVec.getLsbD · j) h
  simp only [BitVec.getLsbD_rotateLeft, Nat.mod_eq_of_lt hn] at hbit
  by_cases hwrap : i + n < 32
  · simpa [hwrap, show ¬i + n < n by omega] using hbit (i + n)
  · have hj := hbit (i + n - 32)
    simpa [show i + n - 32 < n by omega, show 32 - n + (i + n - 32) = i by omega] using hj

theorem xor_bijective (k : Word) : Function.Bijective fun x : Word => x ^^^ k :=
  Function.Involutive.bijective fun x => by simp

theorem add_bijective (k : Word) : Function.Bijective fun x : Word => x + k :=
  ⟨fun x y h => by simpa using h, fun y => ⟨y - k, BitVec.sub_add_cancel y k⟩⟩

theorem rot_bijective {n : Nat} (hn : n < 32) : Function.Bijective fun x : Word => rot x n :=
  Finite.injective_iff_bijective.1 (rot_injective hn)

/-- A line of R121 on three distinct lanes. -/
theorem addXorRotate_bijective {p q r : Lane} (hpq : p ≠ q) (hpr : p ≠ r) {n : Nat} (hn : n < 32) :
    Function.Bijective fun x => addXorRotate x p q r n := by
  have hsum := bijective_set_lane p (fun x v => v + x[q]) (fun x => add_bijective x[q])
    (fun x v => by simp only [getElem_set_lane, hpq, if_false])
  have hrot := bijective_set_lane r (fun x v => rot (v ^^^ x[p]) n) (fun x => (rot_bijective hn).comp (xor_bijective x[p]))
    (fun x v => by simp only [getElem_set_lane, hpr.symm, if_false])
  have heq : (fun x => addXorRotate x p q r n) =
      (fun x : CipherState => x.set r (rot (x[r] ^^^ x[p]) n)) ∘ fun x : CipherState => x.set p (x[p] + x[q]) :=
    funext fun x => addXorRotate_eq_rot hn x p q r
  rw [heq]
  exact hrot.comp hsum

/-- A line of R127 that reads two other lanes. -/
theorem addRotateXor_bijective {t p q : Lane} (htp : t ≠ p) (htq : t ≠ q) {n : Nat} (hn : n < 32) :
    Function.Bijective fun x => addRotateXor x t p q n := by
  have hxor := bijective_set_lane t (fun x v => v ^^^ rot (x[p] + x[q]) n) (fun x => xor_bijective _)
    (fun x v => by simp only [getElem_set_lane, htp, htq, if_false])
  have heq : (fun x => addRotateXor x t p q n) = fun x : CipherState => x.set t (x[t] ^^^ rot (x[p] + x[q]) n) :=
    funext fun x => addRotateXor_eq_rot hn x t p q
  rw [heq]
  exact hxor

theorem quarterC_bijective {a b c d : Lane} (h : [a, b, c, d].Nodup) : Function.Bijective fun x => quarterC x a b c d := by
  obtain ⟨hab, hac, had, hbc, hbd, hcd⟩ := ne_of_nodup h
  exact (addXorRotate_bijective hcd hbc.symm (n := 7) (by decide)).comp <|
    (addXorRotate_bijective hab had (n := 8) (by decide)).comp <|
    (addXorRotate_bijective hcd hbc.symm (n := 12) (by decide)).comp (addXorRotate_bijective hab had (n := 16) (by decide))

theorem quarterS_bijective {a b c d : Lane} (h : [a, b, c, d].Nodup) : Function.Bijective fun x => quarterS x a b c d := by
  obtain ⟨hab, hac, had, hbc, hbd, hcd⟩ := ne_of_nodup h
  exact (addRotateXor_bijective had hac (n := 18) (by decide)).comp <|
    (addRotateXor_bijective hcd.symm hbd.symm (n := 13) (by decide)).comp <|
    (addRotateXor_bijective hbc.symm hac.symm (n := 9) (by decide)).comp
      (addRotateXor_bijective hab.symm hbd (n := 7) (by decide))

/-- A round whose quarter rounds are on distinct lanes. -/
theorem roundOf_bijective {quarter : CipherState → Lane → Lane → Lane → Lane → CipherState} {quads : List Quad}
    (h : ∀ q ∈ quads, Function.Bijective fun x => quarter x q.1 q.2.1 q.2.2.1 q.2.2.2) :
    Function.Bijective (roundOf quarter quads) := by
  induction quads with
  | nil => exact Function.bijective_id
  | cons q quads ih =>
    exact (ih fun p hp => h p (List.mem_cons_of_mem q hp)).comp (h q List.mem_cons_self)

/-- The groupings of the four rounds are of distinct lanes (R123, R129). -/
theorem groupings_nodup : (∀ q ∈ columnsC, [q.1, q.2.1, q.2.2.1, q.2.2.2].Nodup) ∧
    (∀ q ∈ diagonalsC, [q.1, q.2.1, q.2.2.1, q.2.2.2].Nodup) ∧ (∀ q ∈ columnsS, [q.1, q.2.1, q.2.2.1, q.2.2.2].Nodup) ∧
    (∀ q ∈ rowsS, [q.1, q.2.1, q.2.2.1, q.2.2.2].Nodup) := by
  simp [columnsC, diagonalsC, columnsS, rowsS]

/-- A round of QR.C on the groupings `quads`, and one of QR.S. -/
theorem roundOf_quarterC_bijective {quads : List Quad} (h : ∀ q ∈ quads, [q.1, q.2.1, q.2.2.1, q.2.2.2].Nodup) :
    Function.Bijective (roundOf quarterC quads) :=
  roundOf_bijective fun q hq => quarterC_bijective (h q hq)

theorem roundOf_quarterS_bijective {quads : List Quad} (h : ∀ q ∈ quads, [q.1, q.2.1, q.2.2.1, q.2.2.2].Nodup) :
    Function.Bijective (roundOf quarterS quads) :=
  roundOf_bijective fun q hq => quarterS_bijective (h q hq)

theorem doubleC_eq_comp : doubleC = roundOf quarterC diagonalsC ∘ roundOf quarterC columnsC := by
  funext x
  rw [doubleC, Function.comp]

theorem doubleS_eq_comp : doubleS = roundOf quarterS rowsS ∘ roundOf quarterS columnsS := by
  funext x
  rw [doubleS, Function.comp]

theorem doubleC_bijective : Function.Bijective doubleC := by
  obtain ⟨hcolumns, hdiagonals, -, -⟩ := groupings_nodup
  rw [doubleC_eq_comp]
  exact (roundOf_quarterC_bijective hdiagonals).comp (roundOf_quarterC_bijective hcolumns)

theorem doubleS_bijective : Function.Bijective doubleS := by
  obtain ⟨-, -, hcolumns, hrows⟩ := groupings_nodup
  rw [doubleS_eq_comp]
  exact (roundOf_quarterS_bijective hrows).comp (roundOf_quarterS_bijective hcolumns)

/-- A command that changes W by a bijection leaves each W from exactly one. -/
theorem existsUnique_w {i : Instr} {s : State} {f : CipherState → CipherState} (hf : f.Bijective)
    (h : ∀ x, exec i { s with w := x } = .next (doneOk { s with w := f x })) (y : CipherState) :
    ∃! x : CipherState, exec i { s with w := x } = .next (doneOk { s with w := y }) := by
  obtain ⟨x, rfl⟩ := hf.2 y
  refine ⟨x, h x, fun z hz => hf.1 ?_⟩
  have heq := Host.Outcome.next.inj ((h z).symm.trans hz)
  exact congrArg State.w heq

/-! ### The obligations -/

/-- Settles O31: the four lines of each quarter round, lane by lane. -/
theorem quarterRoundsOnDistinctLanes : Obligations.QuarterRoundsOnDistinctLanes := by
  intro s a b c d h
  obtain ⟨hotherC, hlanesC⟩ := quarterC_lanes h s.w
  obtain ⟨hotherS, hlanesS⟩ := quarterS_lanes h s.w
  exact ⟨⟨_, exec_qrC a b c d s, rfl, hotherC, hlanesC⟩, ⟨_, exec_qrS a b c d s, rfl, hotherS, hlanesS⟩⟩

/-- Settles O32: the eight quarter-round commands change W one after the other as the two rounds do. -/
theorem doubleRoundsAreEightQuarterRounds : Obligations.DoubleRoundsAreEightQuarterRounds := by
  intro s
  have hC := runAll_actsOnW (fun q : Quad => .qrC q.1 q.2.1 q.2.2.1 q.2.2.2) (fun q x => quarterC x q.1 q.2.1 q.2.2.1 q.2.2.2)
    (fun q => exec_qrC _ _ _ _) (columnsC ++ diagonalsC) (by decide) s
  have hS := runAll_actsOnW (fun q : Quad => .qrS q.1 q.2.1 q.2.2.1 q.2.2.2) (fun q x => quarterS x q.1 q.2.1 q.2.2.1 q.2.2.2)
    (fun q => exec_qrS _ _ _ _) (columnsS ++ rowsS) (by decide) s
  rw [List.foldl_append] at hC hS
  exact ⟨⟨_, drC_actsOnW s, rfl, hC, hC⟩, ⟨_, drS_actsOnW s, rfl, hS, hS⟩⟩

/-- Settles O33: both are the double round iterated ROUNDS/2 times. -/
theorem permutationsAreRepeatedDoubleRounds : Obligations.PermutationsAreRepeatedDoubleRounds := by
  intro s h
  have hn := half_rounds_ne_zero h
  exact ⟨⟨_, exec_permC_of_roundsLegal h s.w, rfl, runAll_replicate drC_actsOnW hn s⟩,
    ⟨_, exec_permS_of_roundsLegal h s.w, rfl, runAll_replicate drS_actsOnW hn s⟩⟩

/-- Settles O34: each line is a bijection on distinct lanes, and the commands compose lines. -/
theorem permutationCommandsAreBijections : Obligations.PermutationCommandsAreBijections := by
  rintro s y i (rfl | rfl | ⟨h, rfl | rfl⟩ | ⟨a, b, c, d, h, rfl | rfl⟩)
  · exact existsUnique_w doubleC_bijective (fun x => drC_actsOnW { s with w := x }) y
  · exact existsUnique_w doubleS_bijective (fun x => drS_actsOnW { s with w := x }) y
  · exact existsUnique_w (doubleC_bijective.iterate _) (exec_permC_of_roundsLegal h) y
  · exact existsUnique_w (doubleS_bijective.iterate _) (exec_permS_of_roundsLegal h) y
  · exact existsUnique_w (quarterC_bijective h) (fun x => exec_qrC a b c d { s with w := x }) y
  · exact existsUnique_w (quarterS_bijective h) (fun x => exec_qrS a b c d { s with w := x }) y

end Sys2Proof.Proofs
end

section
/-! Keys, layouts and subkeys (41_keystream.md R151 to R159, 42_nonce_expansion.md R190 to R193): what LDKEY, SETIV, SETCTR, RESET and
HNONCE leave, in the words of DMEM that they read. -/

open Sys2Proof Sys2Proof.Machine Sys2Proof.Claims

namespace Sys2Proof.Proofs

/-! ### Words read from DMEM (00_scope.md R13) -/

theorem leWords_readBytes_eq (m : Memory) (a n : Nat) :
    leWords (m.readBytes a (4 * n)) = (List.range n).map fun j => memWord m (a + 4 * j) := by
  rw [leWords_readBytes]
  exact List.map_congr_left fun j _ => (memWord_eq_word ..).symm

theorem toList_eq_getElems (k : KeyWords) : k.toList = [k[0], k[1], k[2], k[3], k[4], k[5], k[6], k[7]] := by
  refine List.ext_getElem (by simp) fun i h _ => ?_
  have hi : i < 8 := by simpa using h
  interval_cases i <;> simp

/-- The words of a key register file read from DMEM. -/
theorem toList_keyOfWords_readBytes (m : Memory) (a : Nat) : (keyOfWords (leWords (m.readBytes a 32))).toList =
    [memWord m a, memWord m (a + 4), memWord m (a + 8), memWord m (a + 12), memWord m (a + 16), memWord m (a + 20),
      memWord m (a + 24), memWord m (a + 28)] := by
  rw [leWords_readBytes_eq m a 8]
  rfl

/-- A 16-byte key is its four words twice (41_keystream.md R157). -/
theorem getElem_loadKey_k16 (m : Memory) (a : Nat) (i : Fin 8) :
    (loadKey .k16 (m.readBytes a 16))[i] = memWord m (a + 4 * (i.val % 4)) := by
  rw [loadKey, leWords_readBytes_eq m a 4, getElem_keyOfWords]
  fin_cases i <;> rfl

theorem exec_ldkey_k16 {s : State} (hk : s.cfg.k16 = true) (hr : s.regs.keya.toNat + 16 ≤ s.params.dmemSize) :
    exec .ldkey s = .next (doneOk { s with
      k := loadKey .k16 (s.mem.readBytes s.regs.keya.toNat 16), klen := .k16, kv := true, ks := [], drv := .unkeyed }) := by
  have hlen : s.cfg.keyLen = .k16 := by simp [Cfg.keyLen, hk]
  rw [exec_ldkey (hlen ▸ hr), hlen, succeed_eq_next_doneOk]
  rfl

/-! ### The layouts (41_keystream.md R151, R152) -/

/-- The number of nonce words in the layout of an algorithm. -/
def nonceWordCount : Alg → Nat
  | .ietf => 3
  | .original => 2
  | .salsa => 2

/-- The model's initial state is R151's layout of the constants, the key, the counter and the nonce words. -/
theorem toList_initState (alg : Alg) (k : KeyWords) (klen : KeyLen) (ctr : Nat) (nonce : List Byte) :
    (initState alg k klen ctr nonce).toList = layout alg (constOf klen) k.toList (BitVec.ofNat 32 ctr)
      (BitVec.ofNat 32 (ctr / 2 ^ 32)) ((List.range (nonceWordCount alg)).map (wordAt (leWords nonce))) := by
  rw [toList_eq_getElems]
  cases alg <;> cases klen <;> rfl

theorem wordAt_leWords_readBytes (alg : Alg) (m : Memory) (a : Nat) :
    (List.range (nonceWordCount alg)).map (wordAt (leWords (m.readBytes a (nonceLen alg false)))) = nonceWords alg m a := by
  cases alg
  · rw [show nonceLen .ietf false = 4 * 3 from rfl, leWords_readBytes_eq]; rfl
  · rw [show nonceLen .original false = 4 * 2 from rfl, leWords_readBytes_eq]; rfl
  · rw [show nonceLen .salsa false = 4 * 2 from rfl, leWords_readBytes_eq]; rfl

/-- The words of a child nonce: a zero word first for the IETF layout (42_nonce_expansion.md R192). -/
theorem wordAt_leWords_childNonce {alg : Alg} (hne : alg ≠ .original) (m : Memory) (a : Nat) :
    (List.range (nonceWordCount alg)).map (wordAt (leWords (childNonce alg (m.readBytes a 8)))) =
      (if alg = .ietf then [0#32] else []) ++ [memWord m a, memWord m (a + 4)] := by
  have h8 : leWords (m.readBytes a 8) = [memWord m a, memWord m (a + 4)] := leWords_readBytes_eq m a 2
  cases alg with
  | ietf =>
    have h12 : leWords (childNonce .ietf (m.readBytes a 8)) = 0#32 :: leWords (m.readBytes a 8) := rfl
    rw [h12, h8]
    rfl
  | original => exact absurd rfl hne
  | salsa =>
    rw [childNonce, h8]
    rfl

/-- The child cipher's state, from the subkey that DMEM holds at `d` (R192). -/
theorem toList_childState {alg : Alg} (hne : alg ≠ .original) {s : State} {m : Memory} {d : Nat}
    (hsub : m.readBytes d 32 = subkeyBytes alg s) :
    (childState alg s).toList = layout alg (constOf .k32) (keyOfWords (leWords (m.readBytes d 32))).toList 0 0
      ((if alg = .ietf then [0#32] else []) ++
        [memWord s.mem (s.regs.noncea.toNat + 16), memWord s.mem (s.regs.noncea.toNat + 16 + 4)]) := by
  rw [childState, ← hsub, toList_initState, wordAt_leWords_childNonce hne]
  rfl

/-! ### HNONCE (42_nonce_expansion.md R190, R191, R193) -/

/-- The lanes that HNONCE stores, in their order. -/
def outputLanes (alg : Alg) : List Lane := if alg = .salsa then [0, 5, 10, 15, 6, 7, 8, 9] else [0, 1, 2, 3, 12, 13, 14, 15]

@[simp] theorem length_outputLanes (alg : Alg) : (outputLanes alg).length = 8 := by cases alg <;> rfl

theorem exec_permOf {s : State} (h : roundsLegal s) (alg : Alg) (x : CipherState) :
    exec (permOf alg) { s with w := x } = .next (doneOk { s with w := perm alg x s.cfg.rounds.toNat }) := by
  cases alg with
  | ietf => exact exec_permC_of_roundsLegal h x
  | original => exact exec_permC_of_roundsLegal h x
  | salsa => exact exec_permS_of_roundsLegal h x

/-- HNONCE's state as a layout: the nonce words stand where counter and nonce of the cipher do. -/
def subkeyLayout (alg : Alg) (k : List Word) (n : Nat → Word) : List Word :=
  layout (if alg = .salsa then .salsa else .ietf) (constOf .k32) k (if alg = .salsa then n 2 else n 0) (n 3)
    (if alg = .salsa then [n 0, n 1] else [n 1, n 2, n 3])

/-- The H functions store lanes of the permuted state, with no feed-forward. -/
theorem hFunction_eq_lanes {alg : Alg} {k : KeyWords} {nonce : List Byte} {x : CipherState} (rounds : Nat)
    (hx : x.toList = subkeyLayout alg k.toList (wordAt (leWords nonce))) :
    hFunction alg k nonce rounds = bytesLE ((outputLanes alg).map fun (l : Lane) => (perm alg x rounds)[l]) := by
  have same (v : CipherState) (hv : v.toList = subkeyLayout alg k.toList (wordAt (leWords nonce))) : v = x :=
    Vector.toList_inj.1 (hv.trans hx.symm)
  rw [toList_eq_getElems] at same
  cases alg with
  | ietf =>
    exact congrArg (fun v => bytesLE ((outputLanes .ietf).map fun (l : Lane) => (permC v rounds)[l])) (same _ rfl)
  | original =>
    exact congrArg (fun v => bytesLE ((outputLanes .original).map fun (l : Lane) => (permC v rounds)[l])) (same _ rfl)
  | salsa =>
    exact congrArg (fun v => bytesLE ((outputLanes .salsa).map fun (l : Lane) => (permS v rounds)[l])) (same _ rfl)

theorem exec_hnonce_of_passes {s : State} {alg : Alg} (ha : algIs s alg) (hp : passes .hnonce s) :
    exec .hnonce s = .next (doneOk (s.memWrite s.regs.dst
      (hFunction alg s.k (s.mem.readBytes s.regs.noncea.toNat 16) s.cfg.rounds.toNat))) := by
  simp only [passes, checksOf, firstOf_cons_eq_none, beyond, Nat.not_lt, not_not] at hp
  obtain ⟨hkv, -, hklen, hrounds, hdst, hnonce, hapart, -⟩ := hp
  have hk32 : s.klen = .k32 := by
    cases h : s.klen with
    | k16 => exact absurd h hklen
    | k32 => rfl
  exact exec_hnonce (alg?_of_algIs ha) (by simpa using hkv) hk32 ((validRounds_iff_roundsLegal s).2 hrounds) hdst hnonce
    (hnonce_overlap_eq_false hapart)

/-! ### The obligations -/

/-- Settles O36: the key words are the words of the range, a 16-byte range read twice. -/
theorem ldkeyLoadsTheKey : Obligations.LdkeyLoadsTheKey := by
  intro s
  exact ⟨fun hk hr => ⟨_, exec_ldkey_k32 hk hr, getElem_keyOfWords_readBytes s.mem s.regs.keya.toNat⟩,
    fun hk hr => ⟨_, exec_ldkey_k16 hk hr, getElem_loadKey_k16 s.mem s.regs.keya.toNat⟩⟩

/-- Settles O37: the layout of K and the nonce words, with a zero counter. -/
theorem setivBuildsTheLayout : Obligations.SetivBuildsTheLayout := by
  intro s alg ha hkv hx hn
  have hlen : nonceBytes s = nonceLen alg false := by
    unfold nonceBytes nonceLen
    cases alg <;> simp only [algIs] at ha <;> simp [ha, hx]
  refine ⟨_, exec_setiv_plain ha hkv hx (hlen ▸ hn), ?_⟩
  rw [toList_initState, wordAt_leWords_readBytes]
  rfl

/-- Settles O38: the subkey HNONCE leaves in DMEM is the one SETIV computes, and the child's layout holds its words. -/
theorem setivExtendedBuildsTheChild : Obligations.SetivExtendedBuildsTheChild := by
  intro s alg d ha hne hp hx hd
  have hsub : (s.mem.writeBytes d.toNat (subkeyBytes alg s)).readBytes d.toNat 32 = subkeyBytes alg s := by
    simpa using Memory.readBytes_writeBytes_self s.mem d.toNat (subkeyBytes alg s)
  refine ⟨_, _, exec_hnonce_withDst ha hx hp hd, rfl, exec_setiv_extended ha hne hx hp, ?_⟩
  rw [toList_childState hne hsub, toList_keyOfWords_readBytes]
  rfl

/-- Settles O39: both commands set the counter and restart the driver. -/
theorem counterCommandsSetTheCounter : Obligations.CounterCommandsSetTheCounter := by
  intro s alg ha hd
  exact ⟨⟨_, exec_setctr (alg?_of_algIs ha) hd, counterSet_ctrSet alg s.ctrOperand s.w⟩,
    ⟨_, exec_reset (alg?_of_algIs ha) hd, counterSet_ctrSet alg 0 s.w⟩⟩

/-- Settles O46: HNONCE's state is the given layout, so its output is lanes of what the permutation command leaves. -/
theorem hnonceWritesTheSubkey : Obligations.HnonceWritesTheSubkey := by
  intro s alg x ha hp hx
  have hrounds : roundsLegal s := by
    simp only [passes, checksOf, firstOf_cons_eq_none, not_not] at hp
    obtain ⟨-, -, -, hrounds, -⟩ := hp
    exact hrounds
  have hwords : leWords (s.mem.readBytes s.regs.noncea.toNat 16) =
      (List.range 4).map fun j => memWord s.mem (s.regs.noncea.toNat + 4 * j) := leWords_readBytes_eq _ _ 4
  have hlanes := hFunction_eq_lanes (nonce := s.mem.readBytes s.regs.noncea.toNat 16) s.cfg.rounds.toNat
    (hx.trans (by rw [hwords]; rfl))
  refine ⟨_, _, exec_permOf hrounds alg x, exec_hnonce_of_passes ha hp, ?_, ?_⟩
  · exact fun c hc => read_writeBytes_outside _ (length_hFunction ..) hc
  · intro lanes j hj
    rw [hlanes, memWord_eq_word, word_writeBytes_bytesLE _ _ _ j (by simpa using hj)]
    cases alg <;> interval_cases j <;> rfl

end Sys2Proof.Proofs
end

section
/-! The keystream commands (41_keystream.md R160 to R170): KSGEN.1 block by block, the batches, and UPDATE, whose loop over the source
bytes splits anywhere and undoes itself. -/

open Sys2Proof Sys2Proof.Machine Sys2Proof.Claims

namespace Sys2Proof.Proofs

/-! ### One block (41_keystream.md R160, R161) -/

/-- Byte j of word i of a serialised list of words (00_scope.md R13). -/
theorem getD_bytesLE (ws : List Word) (i : Nat) {j : Nat} (hj : j < 4) :
    (bytesLE ws).getD (4 * i + j) 0 = (wordBytes (ws.getD i 0)).getD j 0 := by
  induction ws generalizing i with
  | nil => interval_cases j <;> simp [bytesLE, wordBytes]
  | cons w ws ih =>
    have hcons : bytesLE (w :: ws) = wordBytes w ++ bytesLE ws := rfl
    rw [hcons]
    cases i with
    | zero =>
      rw [Nat.mul_zero, Nat.zero_add]
      exact List.getD_append _ _ _ _ (by simpa using hj)
    | succ i =>
      rw [List.getD_append_right _ _ _ _ (by rw [length_wordBytes]; omega), length_wordBytes,
        show 4 * (i + 1) + j - 4 = 4 * i + j by omega, ih]
      rfl

/-- The block's words: the permuted state plus the state (R133). -/
theorem getD_block (alg : Alg) (x : CipherState) (rounds : Nat) (i : Fin 16) (j : Fin 4) :
    ((block alg x rounds).getD (4 * i.val + j.val) 0).toNat =
      ((perm alg x rounds)[i] + x[i]).toNat / 2 ^ (8 * j.val) % 256 := by
  have hword : (List.zipWith (· + ·) (perm alg x rounds).toList x.toList).getD i.val 0 = (perm alg x rounds)[i] + x[i] := by
    rw [List.getD_eq_getElem _ _ (by simp)]
    simp
  rw [block, getD_bytesLE _ _ j.isLt, hword, toNat_getD_wordBytes _ j.isLt]

@[simp] theorem genBlocks_one (alg : Alg) (rounds : Nat) (x : CipherState) :
    genBlocks alg rounds 1 x = genBlock alg rounds x := by
  simp only [genBlocks, List.append_nil]

theorem exec_ksgen1 {s : State} {alg : Alg} (ha : s.cfg.alg? = some alg) (hd : s.drv ≠ .unkeyed)
    (hr : validRounds s.rounds = true) :
    exec .ksgen1 s = .next (doneOk { s with
      w := (genBlock alg s.rounds s.w).2, ks := (genBlock alg s.rounds s.w).1, drv := .streaming }) := by
  rw [← genBlocks_one]
  exact ksgen_pass ha hd hr 1

/-! ### Batches (R162, R164, R167) -/

/-- The state after `j` KSGEN.1 commands. -/
def afterBlocks (alg : Alg) (s : State) : Nat → State
  | 0 => s
  | j + 1 =>
    let x := (genBlocks alg s.rounds j s.w).2
    doneOk { s with
      w := (genBlock alg s.rounds x).2, ks := (genBlock alg s.rounds x).1, drv := .streaming }

theorem genBlocks_succ (alg : Alg) (rounds j : Nat) (x : CipherState) :
    genBlocks alg rounds (j + 1) x =
      ((genBlocks alg rounds j x).1 ++ (genBlock alg rounds (genBlocks alg rounds j x).2).1,
        (genBlock alg rounds (genBlocks alg rounds j x).2).2) := by
  rw [genBlocks_add, genBlocks_one]

theorem afterBlocks_w (alg : Alg) (s : State) (j : Nat) : (afterBlocks alg s j).w = (genBlocks alg s.rounds j s.w).2 := by
  cases j with
  | zero => rfl
  | succ j => rw [genBlocks_succ]; rfl

/-- One more KSGEN.1. -/
theorem exec_ksgen1_afterBlocks {s : State} {alg : Alg} (ha : s.cfg.alg? = some alg) (hd : s.drv ≠ .unkeyed)
    (hr : validRounds s.rounds = true) (j : Nat) :
    exec .ksgen1 (afterBlocks alg s j) = .next (afterBlocks alg s (j + 1)) := by
  cases j with
  | zero => exact exec_ksgen1 ha hd hr
  | succ j =>
    refine (exec_ksgen1 (s := afterBlocks alg s (j + 1)) ha (by simp [afterBlocks, doneOk]) hr).trans ?_
    rw [afterBlocks_w]
    rfl

/-- The blocks of the single commands, one after the other. -/
theorem flatMap_afterBlocks (alg : Alg) (s : State) (n : Nat) :
    ((List.range n).flatMap fun j => (afterBlocks alg s (j + 1)).ks) = (genBlocks alg s.rounds n s.w).1 := by
  induction n with
  | zero => rfl
  | succ n ih =>
    rw [List.range_succ, List.flatMap_append, ih, genBlocks_succ]
    simp [afterBlocks, doneOk]

/-- KSGEN.N, for N > 0, against N KSGEN.1. -/
theorem ksgen_eq_afterBlocks {s : State} {alg : Alg} (ha : s.cfg.alg? = some alg) (hd : s.drv ≠ .unkeyed)
    (hr : validRounds s.rounds = true) (n : Nat) :
    ksgen (n + 1) s = .next { afterBlocks alg s (n + 1) with
      ks := (List.range (n + 1)).flatMap fun j => (afterBlocks alg s (j + 1)).ks } := by
  rw [flatMap_afterBlocks, ksgen_pass ha hd hr, genBlocks_succ]
  rfl

/-! ### UPDATE (R166, R169) -/

/-- What UPDATE's checks test. -/
structure UpdateReady (alg : Alg) (s : State) : Prop where
  alg : s.cfg.alg? = some alg
  initialised : s.drv ≠ .unkeyed
  rounds : validRounds s.rounds = true
  src : s.regs.src.toNat + s.regs.len.toNat ≤ s.params.dmemSize
  dst : s.regs.dst.toNat + s.regs.len.toNat ≤ s.params.dmemSize
  apart : ¬(meets s.regs.dst.toNat s.regs.len.toNat s.regs.src.toNat s.regs.len.toNat ∧ s.regs.dst ≠ s.regs.src)

theorem updateReady_of_passes {s : State} (hp : passes .update s) : ∃ alg, UpdateReady alg s := by
  simp only [passes, checksOf, firstOf_cons_eq_none, beyond, Nat.not_lt, not_not] at hp
  obtain ⟨hdrv, halg, hrounds, hsrc, hdst, hapart, -⟩ := hp
  obtain ⟨alg, ha⟩ := exists_algIs halg
  exact ⟨alg, alg?_of_algIs ha, hdrv, (validRounds_iff_roundsLegal s).2 hrounds, hsrc, hdst, hapart⟩

/-- What UPDATE leaves when `r` is the outcome of its loop. -/
def afterUpdate (s : State) (r : List Byte × CipherState × List Byte) : State :=
  doneOk (State.memWrite { s with w := r.2.1, ks := r.2.2, drv := .streaming } s.regs.dst r.1)

theorem UpdateReady.exec {alg : Alg} {s : State} (h : UpdateReady alg s) :
    exec .update s = .next (afterUpdate s (xorStream alg s.rounds s.srcBytes s.w s.ks)) :=
  exec_update h.alg h.initialised h.rounds h.src h.dst (update_overlap_eq_false h.apart)

@[simp] theorem length_srcBytes (s : State) : s.srcBytes.length = s.regs.len.toNat := Memory.length_readBytes ..

/-- The keystream is as long as the source (R170). -/
theorem le_length_keystream (alg : Alg) (rounds n : Nat) (x : CipherState) (ks : List Byte) :
    n ≤ (ks ++ (genBlocks alg rounds (blocksFor ks.length n) x).1).length := by
  rw [List.length_append, length_genBlocks, blocksFor]
  split <;> omega

/-- Byte i of the output of UPDATE. -/
theorem getD_xorBytes {xs ys : List Byte} {i : Nat} (hx : i < xs.length) (hy : i < ys.length) :
    (xorBytes xs ys).getD i 0 = xs.getD i 0 ^^^ ys.getD i 0 := by
  rw [List.getD_eq_getElem _ _ hx, List.getD_eq_getElem _ _ hy, List.getD_eq_getElem _ _ (by simp [hx, hy])]
  simp [xorBytes]

theorem getD_readBytes (m : Memory) (a : Nat) {n i : Nat} (h : i < n) : (m.readBytes a n).getD i 0 = m.read (a + i) := by
  rw [List.getD_eq_getElem _ _ (by simpa using h), Memory.getElem_readBytes]

/-- Byte i of a string that has just been written. -/
theorem read_writeBytes_inside (m : Memory) (a : Nat) {bs : List Byte} {i : Nat} (h : i < bs.length) :
    (m.writeBytes a bs).read (a + i) = bs.getD i 0 := by
  rw [Memory.read_writeBytes, if_pos (by omega), Nat.add_sub_cancel_left]

/-! ### Splitting an UPDATE (R169 (b)) -/

section Split
variable {alg : Alg} {s : State} {l1 l2 : Word}

/-- No address of a range in DMEM wraps at 2^32. -/
theorem toNat_add_of_inRange {p : Params} {a l : Word} {n : Nat} (ha : a.toNat + n ≤ p.dmemSize) (hl : l.toNat ≤ n) :
    (a + l).toNat = a.toNat + l.toNat := by
  have hsize := p.dmemSize_le
  rw [BitVec.toNat_add, Nat.mod_eq_of_lt (by omega)]

/-- The state of the first half. -/
def firstHalf (l1 : Word) (s : State) : State := { s with regs := { s.regs with len := l1 } }

/-- The state of the second half, from the state `t` that the first half has left. -/
def secondHalf (l1 l2 : Word) (s t : State) : State :=
  { t with regs := { s.regs with src := s.regs.src + l1, dst := s.regs.dst + l1, len := l2 } }

theorem UpdateReady.firstHalf (h : UpdateReady alg s) (hl : l1.toNat + l2.toNat = s.regs.len.toNat) :
    UpdateReady alg (firstHalf l1 s) where
  alg := h.alg
  initialised := h.initialised
  rounds := h.rounds
  src := by have := h.src; simp only [Proofs.firstHalf]; omega
  dst := by have := h.dst; simp only [Proofs.firstHalf]; omega
  apart := by
    rintro ⟨hmeets, hne⟩
    refine h.apart ⟨?_, hne⟩
    simp only [meets, Proofs.firstHalf] at hmeets ⊢
    omega

theorem UpdateReady.secondHalf (h : UpdateReady alg s) (hl : l1.toNat + l2.toNat = s.regs.len.toNat)
    (r : List Byte × CipherState × List Byte) :
    UpdateReady alg (secondHalf l1 l2 s (afterUpdate (Proofs.firstHalf l1 s) r)) := by
  have hsrc : (s.regs.src + l1).toNat = s.regs.src.toNat + l1.toNat := toNat_add_of_inRange h.src (by omega)
  have hdst : (s.regs.dst + l1).toNat = s.regs.dst.toNat + l1.toNat := toNat_add_of_inRange h.dst (by omega)
  refine ⟨h.alg, by simp [Proofs.secondHalf, afterUpdate, doneOk], h.rounds, ?_, ?_, ?_⟩
  · show (s.regs.src + l1).toNat + l2.toNat ≤ s.params.dmemSize
    have := h.src
    omega
  · show (s.regs.dst + l1).toNat + l2.toNat ≤ s.params.dmemSize
    have := h.dst
    omega
  · rintro ⟨hmeets, hne⟩
    refine h.apart ⟨?_, fun heq => hne (congrArg (· + l1) heq)⟩
    change meets (s.regs.dst + l1).toNat l2.toNat (s.regs.src + l1).toNat l2.toNat at hmeets
    simp only [meets, hsrc, hdst] at hmeets ⊢
    omega

/-- What the first half writes does not meet the source of the second. -/
theorem srcBytes_secondHalf (h : UpdateReady alg s) (hl : l1.toNat + l2.toNat = s.regs.len.toNat)
    {r : List Byte × CipherState × List Byte} (hr : r.1.length = l1.toNat) :
    (secondHalf l1 l2 s (afterUpdate (firstHalf l1 s) r)).srcBytes =
      s.mem.readBytes (s.regs.src.toNat + l1.toNat) l2.toNat := by
  have hsrc : (s.regs.src + l1).toNat = s.regs.src.toNat + l1.toNat := toNat_add_of_inRange h.src (by omega)
  have hapart := h.apart
  rw [Ne, ← BitVec.toNat_inj, meets] at hapart
  show (s.mem.writeBytes s.regs.dst.toNat r.1).readBytes (s.regs.src + l1).toNat l2.toNat = _
  rw [hsrc]
  exact Memory.readBytes_writeBytes_disjoint _ (by omega)

/-- The source is the source of the first half and then that of the second. -/
theorem srcBytes_eq_append (hl : l1.toNat + l2.toNat = s.regs.len.toNat) :
    s.srcBytes = (firstHalf l1 s).srcBytes ++ s.mem.readBytes (s.regs.src.toNat + l1.toNat) l2.toNat := by
  rw [State.srcBytes, State.memRead, ← hl, Memory.readBytes_add]
  rfl

/-- Two updates one after the other write what one update of both halves writes. -/
theorem afterUpdate_append (hdst : (s.regs.dst + l1).toNat = s.regs.dst.toNat + l1.toNat) {xs ys : List Byte}
    (hxs : xs.length = l1.toNat) (x y : CipherState) (ks ks' : List Byte) :
    afterUpdate s (xs ++ ys, y, ks') =
      { afterUpdate (secondHalf l1 l2 s (afterUpdate (firstHalf l1 s) (xs, x, ks))) (ys, y, ks') with regs := s.regs } := by
  simp only [afterUpdate, State.memWrite, secondHalf, firstHalf, doneOk, hdst, Memory.writeBytes_append, hxs]

end Split

/-! ### UPDATE twice (R169 (a)) -/

section Twice
variable {alg : Alg} {s : State}

/-- The state about to run UPDATE again in place on its output, from the stream state it started with. -/
def rewound (s : State) (r : List Byte × CipherState × List Byte) : State :=
  { afterUpdate s r with w := s.w, ks := s.ks, drv := s.drv, regs := { s.regs with src := s.regs.dst } }

theorem UpdateReady.rewound (h : UpdateReady alg s) (r : List Byte × CipherState × List Byte) :
    UpdateReady alg (rewound s r) :=
  ⟨h.alg, h.initialised, h.rounds, h.dst, h.dst, fun hbad => hbad.2 rfl⟩

theorem srcBytes_rewound {r : List Byte × CipherState × List Byte} (hr : r.1.length = s.regs.len.toNat) :
    (rewound s r).srcBytes = r.1 := by
  show (s.mem.writeBytes s.regs.dst.toNat r.1).readBytes s.regs.dst.toNat s.regs.len.toNat = r.1
  rw [← hr, Memory.readBytes_writeBytes_self]

/-- The second UPDATE outputs the first one's source and ends in the same stream state. -/
theorem UpdateReady.exec_rewound (h : UpdateReady alg s) :
    Machine.exec .update (Proofs.rewound s (xorStream alg s.rounds s.srcBytes s.w s.ks)) =
      .next (afterUpdate (Proofs.rewound s (xorStream alg s.rounds s.srcBytes s.w s.ks))
        (s.srcBytes, (xorStream alg s.rounds s.srcBytes s.w s.ks).2)) := by
  rw [(h.rewound _).exec, srcBytes_rewound (by simp), ← xorStream_involutive]
  rfl

end Twice

/-! ### The obligations -/

/-- Settles O40: one block, byte by byte, and the counter advanced by one. -/
theorem ksgenOneIsTheBlock : Obligations.KsgenOneIsTheBlock := by
  intro s alg ha hd hr
  refine ⟨_, _, _, exec_permOf hr alg s.w, exec_ksgen1 (alg?_of_algIs ha) hd ((validRounds_iff_roundsLegal s).2 hr), ?_,
    length_genBlock .., getD_block alg s.w s.rounds⟩
  rw [← genBlocks_one]
  exact genBlocks_counterAdvanced alg s.rounds 1 s.w

/-- Settles O41: the states between the single commands are `afterBlocks`. -/
theorem ksgenBatchesAreSingleBlocks : Obligations.KsgenBatchesAreSingleBlocks := by
  intro s n i hi hp
  have hready : ∃ alg, s.cfg.alg? = some alg ∧ s.drv ≠ .unkeyed ∧ validRounds s.rounds = true := by
    have hchecks : firstOf (ksgenChecks s) = none := by
      simp only [List.mem_cons, Prod.mk.injEq, List.not_mem_nil, or_false] at hi
      rcases hi with ⟨rfl, rfl⟩ | ⟨rfl, rfl⟩ | ⟨rfl, rfl⟩ | ⟨rfl, rfl⟩ <;> exact hp
    simp only [ksgenChecks, firstOf_cons_eq_none, not_not] at hchecks
    obtain ⟨hdrv, halg, hrounds, -⟩ := hchecks
    obtain ⟨alg, ha⟩ := exists_algIs halg
    exact ⟨alg, alg?_of_algIs ha, hdrv, (validRounds_iff_roundsLegal s).2 hrounds⟩
  obtain ⟨alg, ha, hd, hr⟩ := hready
  refine ⟨afterBlocks alg s, rfl, fun j _ => exec_ksgen1_afterBlocks ha hd hr j, ?_⟩
  simp only [List.mem_cons, Prod.mk.injEq, List.not_mem_nil, or_false] at hi
  rcases hi with ⟨rfl, rfl⟩ | ⟨rfl, rfl⟩ | ⟨rfl, rfl⟩ | ⟨rfl, rfl⟩
  · exact ksgen_eq_afterBlocks ha hd hr 0
  · exact ksgen_eq_afterBlocks ha hd hr 1
  · exact ksgen_eq_afterBlocks ha hd hr 3
  · exact ksgen_eq_afterBlocks ha hd hr 7

/-- Settles O43: the equation of UPDATE, read byte by byte. -/
theorem updateXorsTheKeystream : Obligations.UpdateXorsTheKeystream := by
  intro s alg ha hp
  have hks := le_length_keystream alg s.rounds s.regs.len.toNat s.w s.ks
  have hlen : (xorBytes s.srcBytes (s.ks ++ (genBlocks alg s.rounds (blocksFor s.ks.length s.regs.len.toNat) s.w).1)).length =
      s.regs.len.toNat := by
    rw [length_xorBytes, length_srcBytes, min_eq_left hks]
  refine ⟨_, exec_update_of_passes ha hp, fun i hi => ?_, fun c hc => read_writeBytes_outside _ hlen hc⟩
  rw [read_writeBytes_inside _ _ (hi.trans_eq hlen.symm), getD_xorBytes (by simpa using hi) (hi.trans_le hks)]
  exact congrArg (· ^^^ _) (getD_readBytes _ _ hi)

/-- Settles O44: the loop splits, the second half's source is not touched by the first half, and the writes join. -/
theorem updateSplitsAnywhere : Obligations.UpdateSplitsAnywhere := by
  intro s t l1 l2 hp hl ht
  obtain ⟨alg, h⟩ := updateReady_of_passes hp
  have hfirst := (h.firstHalf hl).exec
  have hout : (xorStream alg s.rounds (firstHalf l1 s).srcBytes s.w s.ks).1.length = l1.toNat := by
    rw [length_xorStream, length_srcBytes]; rfl
  have hsecond := (h.secondHalf hl (xorStream alg s.rounds (firstHalf l1 s).srcBytes s.w s.ks)).exec
  rw [srcBytes_secondHalf h hl hout] at hsecond
  refine ⟨_, _, hfirst, hsecond, ?_⟩
  rw [h.exec, srcBytes_eq_append hl, xorStream_append] at ht
  cases ht
  exact afterUpdate_append (toNat_add_of_inRange h.dst (by omega)) hout _ _ _ _

/-- Settles O45: the loop from the same stream state undoes itself. -/
theorem updateIsAnInvolution : Obligations.UpdateIsAnInvolution := by
  intro s t hp ht
  obtain ⟨alg, h⟩ := updateReady_of_passes hp
  rw [h.exec] at ht
  cases ht
  refine ⟨_, h.exec_rewound, rfl, rfl, rfl, fun i hi => ?_⟩
  exact (read_writeBytes_inside _ _ (by simpa using hi)).trans (getD_readBytes _ _ hi)

end Sys2Proof.Proofs
end

section
/-! The Poly1305 commands (43_poly1305.md R210 to R217): each on its own, how P.UPDATE splits, and what misuse may change. -/

open Sys2Proof Sys2Proof.Machine Sys2Proof.Claims

namespace Sys2Proof.Proofs

/-! ### Numbers in DMEM (00_scope.md R13) -/

theorem leInt_readBytes_eq_memLE (m : Memory) (a n : Nat) : leInt (m.readBytes a n) = memLE m a n := leInt_readBytes m a n

theorem strLE_readBytes (m : Memory) (a n : Nat) : strLE (m.readBytes a n) = memLE m a n := by
  rw [← leInt_eq_strLE, leInt_readBytes_eq_memLE]

/-- The two halves of a one-time key. -/
theorem take_drop_readBytes_key (m : Memory) (a : Nat) :
    (m.readBytes a 32).take 16 = m.readBytes a 16 ∧ (m.readBytes a 32).drop 16 = m.readBytes (a + 16) 16 := by
  rw [show 32 = 16 + 16 from rfl, Memory.readBytes_add]
  exact ⟨List.take_left' (by simp), List.drop_left' (by simp)⟩

/-! ### Full blocks and the partial block (R214) -/

/-- The full blocks of a string. -/
def fullBlocks (buf : List Byte) : List Byte := buf.take (16 * (buf.length / 16))

theorem fullBlocks_append_partialBlock (buf : List Byte) : fullBlocks buf ++ partialBlock buf = buf := List.take_append_drop ..

theorem length_fullBlocks (buf : List Byte) : (fullBlocks buf).length = 16 * (buf.length / 16) := by
  rw [fullBlocks, List.length_take]
  omega

theorem partialBlock_eq_self {buf : List Byte} (h : buf.length < 16) : partialBlock buf = buf := by
  rw [partialBlock, Nat.div_eq_of_lt h]
  rfl

theorem partialBlock_eq_nil {buf : List Byte} (h : buf.length % 16 = 0) : partialBlock buf = [] :=
  List.eq_nil_of_length_eq_zero ((length_partialBlock buf).trans h)

/-- Absorbing the full blocks of a string is FieldOp over them, in order. -/
theorem absorb_eq_polyFold_fullBlocks (r : BitVec 128) (acc : Nat) (buf : List Byte) :
    absorb r (buf.length / 16) acc buf = polyFold r.toNat acc (fullBlocks buf) := by
  have hlen := length_fullBlocks buf
  have hpartial : partialBlock (fullBlocks buf) = [] := partialBlock_eq_nil (by omega)
  have hcount : (fullBlocks buf).length / 16 = buf.length / 16 := by omega
  rw [polyFold_eq_absorbAll, absorbAll, hpartial, hcount, absorbPartial, if_pos rfl]
  conv_lhs => arg 4; rw [← fullBlocks_append_partialBlock buf]
  exact absorb_append _ _ _ _ _ hlen.ge

/-- Absorbing two strings one after the other absorbs the same blocks as absorbing them together. -/
theorem absorb_split (r : BitVec 128) (acc : Nat) (xs ys : List Byte) :
    absorb r ((xs ++ ys).length / 16) acc (xs ++ ys) =
      absorb r ((partialBlock xs ++ ys).length / 16) (absorb r (xs.length / 16) acc xs) (partialBlock xs ++ ys) := by
  have hcount : (xs ++ ys).length / 16 = xs.length / 16 + (partialBlock xs ++ ys).length / 16 := by
    simp only [List.length_append, length_partialBlock]
    omega
  rw [hcount, absorb_add, absorb_append _ _ _ _ _ (by omega), List.drop_append_of_le_length (by omega), partialBlock]

theorem partialBlock_split (xs ys : List Byte) : partialBlock (xs ++ ys) = partialBlock (partialBlock xs ++ ys) := by
  have hcount : (xs ++ ys).length / 16 = xs.length / 16 + (partialBlock xs ++ ys).length / 16 := by
    simp only [List.length_append, length_partialBlock]
    omega
  rw [partialBlock, hcount, Nat.mul_add, ← List.drop_drop, List.drop_append_of_le_length (by omega)]
  rfl

/-! ### P.UPDATE (R214) -/

/-- What P.UPDATE leaves when `bs` is its input. -/
def afterPUpdate (s : State) (bs : List Byte) : State :=
  doneOk { s with
    pacc := absorb s.pr ((s.pbuf ++ bs).length / 16) s.pacc (s.pbuf ++ bs), pbuf := partialBlock (s.pbuf ++ bs) }

theorem exec_pUpdate_eq {s : State} (hp : s.pst = .active) (h : s.regs.src.toNat + s.regs.len.toNat ≤ s.params.dmemSize) :
    exec .pUpdate s = .next (afterPUpdate s (s.mem.readBytes s.regs.src.toNat s.regs.len.toNat)) := exec_pUpdate hp h

theorem afterPUpdate_nil {s : State} (hb : s.pbuf.length < 16) : afterPUpdate s [] = doneOk s := by
  simp only [afterPUpdate, List.append_nil, Nat.div_eq_of_lt hb, partialBlock_eq_self hb, absorb]

theorem afterPUpdate_append (s : State) (regs regs' : OperandRegs) (xs ys : List Byte) :
    afterPUpdate s (xs ++ ys) =
      { afterPUpdate { afterPUpdate { s with regs := regs } xs with regs := regs' } ys with regs := s.regs } := by
  simp only [afterPUpdate, doneOk, ← List.append_assoc, absorb_split s.pr s.pacc (s.pbuf ++ xs) ys,
    partialBlock_split (s.pbuf ++ xs) ys]

/-- On a block boundary a 16-byte P.UPDATE is P.BLOCK 1. -/
theorem exec_pBlock_eq_afterPUpdate {s : State} (hp : s.pst = .active) (hb : s.pbuf = [])
    (h : s.regs.src.toNat + 16 ≤ s.params.dmemSize) :
    exec (.pBlock true) s = .next (afterPUpdate s (s.mem.readBytes s.regs.src.toNat 16)) := by
  have hlen : (s.mem.readBytes s.regs.src.toNat 16).length = 16 := Memory.length_readBytes ..
  have hpartial : partialBlock (s.mem.readBytes s.regs.src.toNat 16) = [] := partialBlock_eq_nil (by rw [hlen])
  rw [exec_pBlock hp hb h, afterPUpdate, hb, List.nil_append, hlen, hpartial, ← hb, absorb, absorb,
    List.take_of_length_le hlen.le, blockInt, hlen]
  rfl

/-! ### Misuse (R217, U3) -/

theorem exec_misused {s : State} {i : Instr} (hi : guardedByMac i) (hp : s.pst = .finished) :
    exec i s = .next (s.misused.complete (misuseResult s.freeCount)) := by
  have hguard (k : StepResult) : withActiveMac s k = .next (s.misused.complete (misuseResult s.freeCount)) := by
    simp only [withActiveMac, hp]
  rcases hi with ⟨h, rfl⟩ | rfl | rfl
  · exact hguard _
  · exact hguard _
  · exact hguard _

/-- Misuse raises POLY_NOT_ACTIVE and changes nothing, or completes with free values in the MAC state and the TAG range. -/
theorem misused_complete_cases (s : State) :
    let t := s.misused.complete (misuseResult s.freeCount)
    t = { doneInvalid s .polyNotActive with freeCount := t.freeCount } ∨
      t = doneOk { s with
        pacc := t.pacc, pbuf := t.pbuf, ps := t.ps, pst := t.pst, mem := t.mem, freeCount := t.freeCount } := by
  unfold State.misused misuseResult
  dsimp only
  split
  · exact .inl rfl
  · exact .inr rfl

/-! ### The obligations -/

/-- Settles O48: the halves of the key at KEYA as numbers. -/
theorem pInitStartsTheMac : Obligations.PInitStartsTheMac := by
  intro s h
  obtain ⟨htake, hdrop⟩ := take_drop_readBytes_key s.mem s.regs.keya.toNat
  refine ⟨_, _, exec_pInit h, ?_, ?_⟩
  · rw [toNat_polyR, State.memRead, htake, strLE_readBytes]
  · rw [toNat_polyS (State.length_memRead ..), State.memRead, hdrop, strLE_readBytes]

/-- Settles O49: P.BLOCK's equation, with the block read as a number. -/
theorem pBlockIsOneFieldOperation : Obligations.PBlockIsOneFieldOperation := by
  intro s h hp hb hsrc
  rw [exec_pBlock hp hb hsrc, State.memRead, leInt_readBytes_eq_memLE]
  cases h <;> rfl

/-- Settles O50: the full blocks of PBUF and the input go into PACC, the rest stays, and two inputs join. -/
theorem pUpdateAbsorbsBlocks : Obligations.PUpdateAbsorbsBlocks := by
  intro s hinv hp hsrc
  have hbuf := hinv.pbufLength
  refine ⟨_, exec_pUpdate_eq hp hsrc, rfl, ⟨fullBlocks _, (fullBlocks_append_partialBlock _).symm, ?_,
    absorb_eq_polyFold_fullBlocks ..⟩, ?_, fun hlen => ?_, fun hb hlen => ?_, fun l1 l2 hl => ?_⟩
  · rw [length_fullBlocks]
    omega
  · show (partialBlock _).length < 16
    rw [length_partialBlock]
    omega
  · rw [hlen]
    exact afterPUpdate_nil (by omega)
  · rw [hlen]
    exact exec_pBlock_eq_afterPUpdate hp hb (hlen ▸ hsrc)
  · have hsize := s.params.dmemSize_le
    have hadd : (s.regs.src + l1).toNat = s.regs.src.toNat + l1.toNat := by
      rw [BitVec.toNat_add, Nat.mod_eq_of_lt (by omega)]
    refine ⟨_, _, exec_pUpdate_eq (by exact hp) ?_, exec_pUpdate_eq (by exact hp) ?_, ?_⟩
    · show s.regs.src.toNat + l1.toNat ≤ s.params.dmemSize
      omega
    · show (s.regs.src + l1).toNat + l2.toNat ≤ s.params.dmemSize
      omega
    · rw [← hl, Memory.readBytes_add, ← hadd]
      exact afterPUpdate_append ..

/-- Settles O51: P.FINAL's equation, with the tag it writes as a number. -/
theorem pFinalWritesTheTag : Obligations.PFinalWritesTheTag := by
  intro s hp htag
  have hacc : absorbPartial s.pr s.pacc s.pbuf = if s.pbuf = [] then s.pacc
      else ((s.pacc + (strLE s.pbuf + 2 ^ (8 * s.pbuf.length))) * s.pr.toNat) % (2 ^ 130 - 5) := by
    rw [absorbPartial, fieldOp_blockInt, Nat.add_assoc]
  have hread (acc : Nat) : (s.mem.writeBytes s.regs.tag.toNat (polyTag acc s.ps)).readBytes s.regs.tag.toNat 16 =
      polyTag acc s.ps := by
    simpa only [length_polyTag] using Memory.readBytes_writeBytes_self s.mem s.regs.tag.toNat (polyTag acc s.ps)
  rw [← hacc]
  refine ⟨_, exec_pFinal hp htag, holdsLE_of_leInt ?_, fun c hc => read_writeBytes_outside _ (length_polyTag ..) hc⟩
  exact (congrArg leInt (hread _)).trans (leInt_toLE _ 16)

/-- Settles O53: the two choices of the model, and the bytes its free tag may reach. -/
theorem macMisuseStaysInItsBounds : Obligations.MacMisuseStaysInItsBounds := by
  intro s i hi hp
  refine ⟨_, exec_misused hi hp, rfl, rfl, (misused_complete_cases s).imp_right fun ht => ⟨ht, fun c hc => ?_⟩⟩
  exact s.misused_read hc

end Sys2Proof.Proofs
end

section
/-! The AEAD commands (44_aead.md R240 to R249): the ciphertext is the stream from counter 1, the tag the MAC under the block at
counter 0, and AEAD.DEC writes only what it has verified. -/

open Sys2Proof Sys2Proof.Machine Sys2Proof.Claims

namespace Sys2Proof.Proofs

/-! ### What passing checks give (R240) -/

/-- An output range of a command and another range of it, which R65 keeps apart. -/
theorem disjoint_of_not_meets {a n b m : Nat} (h : ¬meets a n b m) : m = 0 ∨ n = 0 ∨ b + m ≤ a ∨ a + n ≤ b := by
  simp only [meets] at h
  omega

section Ready
variable {s : State}

theorem aeadReady_of_checks {outs : List Range} {isdec : Bool} (ho : overlap outs s.aeadRanges = true ↔ aeadOverlap s isdec)
    (hp : firstOf (aeadChecks s isdec) = none) : AeadReady outs s := by
  simp only [aeadChecks, firstOf_cons_eq_none, beyond, Nat.not_lt, not_not] at hp
  obtain ⟨hkv, -, halg, hklen, hsrc, hdst, haad, htag, hnonce, hapart, -⟩ := hp
  refine ⟨by simpa using hkv, alg?_of_algIs (alg := .ietf) halg, ?_, hsrc, hdst, haad, htag, hnonce, ?_⟩
  · cases h : s.klen with
    | k16 => exact absurd h hklen
    | k32 => rfl
  · rwa [Bool.eq_false_iff, Ne, ho]

theorem aeadReady_of_passes_enc (hp : passes .aeadEnc s) : AeadReady [s.dstRange, s.tagRange] s :=
  aeadReady_of_checks aeadEnc_overlap_iff hp

theorem aeadReady_of_passes_dec (hp : passes .aeadDec s) : AeadReady [s.dstRange] s :=
  aeadReady_of_checks aeadDec_overlap_iff hp

theorem not_aeadOverlap_of_passes_enc (hp : passes .aeadEnc s) : ¬aeadOverlap s false := by
  simp only [passes, checksOf, aeadChecks, firstOf_cons_eq_none] at hp
  obtain ⟨-, -, -, -, -, -, -, -, -, hapart, -⟩ := hp
  exact hapart

end Ready

/-! ### What AEAD.ENC writes -/

/-- The ciphertext of the AEAD command that `s` is about to run (R243). -/
def ciphertext (s : State) : List Byte := s.aeadContext.xor s.srcBytes

/-- The tag of its ciphertext (R244). -/
def cipherTag (s : State) : List Byte := s.aeadContext.tag s.aadBytes (ciphertext s)

/-- DMEM after AEAD.ENC (R245). -/
def sealedMem (s : State) : Memory :=
  (s.mem.writeBytes s.regs.dst.toNat (ciphertext s)).writeBytes s.regs.tag.toNat (cipherTag s)

@[simp] theorem length_ciphertext (s : State) : (ciphertext s).length = s.regs.len.toNat := by simp [ciphertext]

@[simp] theorem length_cipherTag (s : State) : (cipherTag s).length = 16 := length_aeadTag ..

theorem exec_aeadEnc_of_passes {s : State} (hp : passes .aeadEnc s) :
    exec .aeadEnc s = .next (doneOk { s with mem := sealedMem s }) := exec_aeadEnc (aeadReady_of_passes_enc hp)

section Sealed
variable {s : State}

theorem readBytes_sealedMem_tag (s : State) : (sealedMem s).readBytes s.regs.tag.toNat 16 = cipherTag s := by
  rw [sealedMem, ← length_cipherTag s, Memory.readBytes_writeBytes_self]

/-- The tag does not meet the ciphertext, which is thus still there (R65). -/
theorem readBytes_sealedMem_dst (hp : passes .aeadEnc s) :
    (sealedMem s).readBytes s.regs.dst.toNat s.regs.len.toNat = ciphertext s := by
  have hapart := not_aeadOverlap_of_passes_enc hp
  have htag : ¬meets s.regs.tag.toNat 16 s.regs.dst.toNat s.regs.len.toNat := fun h => hapart (by simp [aeadOverlap, h])
  have hdst := Memory.readBytes_writeBytes_self s.mem s.regs.dst.toNat (ciphertext s)
  rw [length_ciphertext] at hdst
  rw [sealedMem, Memory.readBytes_writeBytes_disjoint _ (by rw [length_cipherTag]; exact disjoint_of_not_meets htag), hdst]

/-- A range that neither output meets is as it was. -/
theorem readBytes_sealedMem_apart {a n : Nat} (hdst : ¬meets s.regs.dst.toNat s.regs.len.toNat a n)
    (htag : ¬meets s.regs.tag.toNat 16 a n) : (sealedMem s).readBytes a n = s.mem.readBytes a n := by
  rw [sealedMem, Memory.readBytes_writeBytes_disjoint _ (by rw [length_cipherTag]; exact disjoint_of_not_meets htag),
    Memory.readBytes_writeBytes_disjoint _ (by rw [length_ciphertext]; exact disjoint_of_not_meets hdst)]

theorem readBytes_sealedMem_aad (hp : passes .aeadEnc s) :
    (sealedMem s).readBytes s.regs.aad.toNat s.regs.aadlen.toNat = s.aadBytes := by
  have hapart := not_aeadOverlap_of_passes_enc hp
  exact readBytes_sealedMem_apart (fun h => hapart (by simp [aeadOverlap, h])) fun h => hapart (by simp [aeadOverlap, h])

theorem readBytes_sealedMem_nonce (hp : passes .aeadEnc s) :
    (sealedMem s).readBytes s.regs.noncea.toNat s.aeadNonceLen = s.mem.readBytes s.regs.noncea.toNat s.aeadNonceLen := by
  have hapart := not_aeadOverlap_of_passes_enc hp
  unfold State.aeadNonceLen
  exact readBytes_sealedMem_apart (fun h => hapart (by simp [aeadOverlap, h])) fun h => hapart (by simp [aeadOverlap, h])

theorem read_sealedMem_dst (hp : passes .aeadEnc s) {i : Nat} (hi : i < s.regs.len.toNat) :
    (sealedMem s).read (s.regs.dst.toNat + i) = (ciphertext s).getD i 0 := by
  rw [← readBytes_sealedMem_dst hp, getD_readBytes _ _ hi]

end Sealed

/-! ### The keystream of the AEAD context (R241 to R243) -/

/-- The IETF state holds its counter modulo 2^32. -/
theorem state_congr (x : AeadContext) {c v : Nat} (h : BitVec.ofNat 32 c = BitVec.ofNat 32 v) : x.state c = x.state v := by
  simp only [AeadContext.state, initState, h]

theorem ctrSet_state (x : AeadContext) (c v : Nat) : ctrSet .ietf v (x.state c) = x.state v := rfl

theorem ctrInc_state (x : AeadContext) (c : Nat) : ctrInc .ietf (x.state c) = x.state (c + 1) := by
  have hget : ctrGet .ietf (x.state c) = (BitVec.ofNat 32 c).toNat := rfl
  rw [ctrInc, ctrSet_state, hget]
  refine state_congr x (BitVec.eq_of_toNat_eq ?_)
  simp only [BitVec.toNat_ofNat, Nat.mod_add_mod]

theorem genBlock_aead (x : AeadContext) (c : Nat) : genBlock .ietf 20 (x.state c) = (x.block c, x.state (c + 1)) := by
  rw [genBlock, ctrInc_state, AeadContext.block]

/-- N blocks from counter c are the blocks of the counters from c on. -/
theorem genBlocks_aead (x : AeadContext) (n c : Nat) :
    genBlocks .ietf 20 n (x.state c) = ((List.range n).flatMap fun j => x.block (c + j), x.state (c + n)) := by
  induction n with
  | zero => rfl
  | succ n ih =>
    rw [genBlocks_succ, ih, genBlock_aead, List.range_succ, List.flatMap_append, List.flatMap_singleton, Nat.add_assoc]

/-- UPDATE's loop from an empty KS and the state at counter 1 is `AXor` (R243). -/
theorem xorStream_aead (x : AeadContext) (bs : List Byte) : (xorStream .ietf 20 bs (x.state 1) []).1 = x.xor bs := by
  have hcount : (if bs.length ≤ ([] : List Byte).length then 0 else (bs.length - ([] : List Byte).length + 63) / 64) =
      (bs.length + 63) / 64 := by
    rw [List.length_nil]
    split <;> omega
  rw [xorStream_eq, hcount, genBlocks_aead]
  rfl

/-! ### The stream commands with the AEAD operands (R249 (b)) -/

theorem algIs_of_alg? {s : State} {alg : Alg} (h : s.cfg.alg? = some alg) : algIs s alg := by
  have hne : s.cfg.alg ≠ 3#2 := fun h3 => by simp [alg?_eq_none_iff.2 h3] at h
  obtain ⟨alg', ha⟩ := exists_algIs hne
  cases (alg?_of_algIs ha).symm.trans h
  exact ha

theorem aeadContext_plain {s : State} (hx : s.cfg.xn = false) :
    s.aeadContext = ⟨s.k, s.mem.readBytes s.regs.noncea.toNat 12⟩ := by
  have hlen : s.aeadNonceLen = 12 := by simp [State.aeadNonceLen, hx]
  rw [State.aeadContext, aeadContext, hx, hlen]
  rfl

section Stream
variable {s : State} {outs : List Range}

/-- The state with ROUNDS = 20 and the counter operand `ctrlo`. -/
def streamStart (ctrlo : Word) (s : State) : State :=
  { s with cfg := { s.cfg with rounds := 20#8 }, regs := { s.regs with ctrlo := ctrlo } }

/-- That state with the AEAD state at counter `c` in W. -/
def streamAt (ctrlo : Word) (c : Nat) (s : State) : State :=
  doneOk { streamStart ctrlo s with w := s.aeadContext.state c, ks := [], drv := .fresh }

theorem streamAt_rounds (ctrlo : Word) (c : Nat) : (streamAt ctrlo c s).rounds = 20 := rfl

theorem streamAt_w (ctrlo : Word) (c : Nat) : (streamAt ctrlo c s).w = s.aeadContext.state c := rfl

theorem streamAt_ks (ctrlo : Word) (c : Nat) : (streamAt ctrlo c s).ks = [] := rfl

theorem streamAt_srcBytes (ctrlo : Word) (c : Nat) : (streamAt ctrlo c s).srcBytes = s.srcBytes := rfl

/-- SETIV builds the AEAD state at counter 0 (R241). -/
theorem exec_setiv_streamStart (hx : s.cfg.xn = false) (h : AeadReady outs s) (ctrlo : Word) :
    exec .setiv (streamStart ctrlo s) = .next (streamAt ctrlo 0 s) := by
  have hnonce : s.regs.noncea.toNat + nonceLen .ietf false ≤ s.params.dmemSize := by
    have := h.nonce
    rwa [State.aeadNonceLen, hx] at this
  have halg : algIs (streamStart ctrlo s) .ietf := algIs_of_alg? (s := s) h.alg
  refine (exec_setiv_plain halg h.key hx hnonce).trans ?_
  rw [streamAt, AeadContext.state, aeadContext_plain hx, ← h.length]
  rfl

/-- SETCTR moves it to counter 1: CTRHI is not read (41_keystream.md R158). -/
theorem exec_setctr_streamAt (h : AeadReady outs s) : exec .setctr (streamAt 1 0 s) = .next (streamAt 1 1 s) := by
  have hctr : BitVec.ofNat 32 (streamAt 1 0 s).ctrOperand = BitVec.ofNat 32 1 := by
    apply BitVec.eq_of_toNat_eq
    rw [State.ctrOperand, BitVec.toNat_ofNat]
    show (s.regs.ctrhi.toNat * 2 ^ 32 + 1) % 2 ^ 32 = 1
    omega
  refine (exec_setctr (s := streamAt 1 0 s) h.alg (by simp [streamAt, doneOk])).trans ?_
  rw [restartAt, streamAt_w, ctrSet_state, state_congr _ hctr]
  rfl

theorem twentyRounds_legal : validRounds (20#8 : BitVec 8).toNat = true := by decide

/-- UPDATE writes the ciphertext (R243). -/
theorem exec_update_streamAt (h : AeadReady outs s)
    (hapart : ¬(meets s.regs.dst.toNat s.regs.len.toNat s.regs.src.toNat s.regs.len.toNat ∧ s.regs.dst ≠ s.regs.src)) :
    ∃ r, exec .update (streamAt 1 1 s) = .next (afterUpdate (streamAt 1 1 s) (ciphertext s, r)) := by
  have hready : UpdateReady .ietf (streamAt 1 1 s) :=
    ⟨h.alg, by simp [streamAt, doneOk], twentyRounds_legal, h.src, h.dst, hapart⟩
  have hupdate := hready.exec
  have hloop : xorStream .ietf 20 s.srcBytes (s.aeadContext.state 1) [] =
      (ciphertext s, (xorStream .ietf 20 s.srcBytes (s.aeadContext.state 1) []).2) := Prod.ext (xorStream_aead ..) rfl
  rw [streamAt_rounds, streamAt_w, streamAt_ks, streamAt_srcBytes, hloop] at hupdate
  exact ⟨_, hupdate⟩

/-- KSGEN.1 at counter 0 leaves the block of the one-time key (R242). -/
theorem exec_ksgen1_streamAt (h : AeadReady outs s) (ctrlo : Word) :
    ∃ u, exec .ksgen1 (streamAt ctrlo 0 s) = .next u ∧ u.err = .none ∧ u.ks = s.aeadContext.block 0 := by
  have hksgen := exec_ksgen1 (s := streamAt ctrlo 0 s) h.alg (by simp [streamAt, doneOk]) twentyRounds_legal
  rw [streamAt_rounds, streamAt_w, genBlock_aead] at hksgen
  exact ⟨_, hksgen, rfl, by dsimp only [doneOk]⟩

end Stream

/-! ### The extended nonce (R249 (c)) -/

/-- A key register file is given by its words. -/
theorem keyWords_ext {k k' : KeyWords} (h : ∀ i : Fin 8, k[i] = k'[i]) : k = k' :=
  Vector.ext fun i hi => h ⟨i, hi⟩

/-- The state about to derive the subkey: DST = d and ROUNDS = 20. -/
def subkeyStart (d : Word) (s : State) : State := withDst d { s with cfg := { s.cfg with rounds := 20#8 } }

/-- The subkey of an AEAD command with XN = 1 (R241). -/
def aeadSubkey (s : State) : List Byte := hFunction .ietf s.k (s.mem.readBytes s.regs.noncea.toNat 16) 20

@[simp] theorem length_aeadSubkey (s : State) : (aeadSubkey s).length = 32 := length_hFunction ..

theorem subkeyStart_rounds (d : Word) (s : State) : (subkeyStart d s).rounds = 20 := rfl

/-- HNONCE with 20 rounds, in a state whose AEAD.ENC with XN = 1 passes its checks. -/
theorem exec_hnonce_subkeyStart {s : State} {d : Word} {outs : List Range} (hx : s.cfg.xn = true) (h : AeadReady outs s)
    (hd : subkeyFits s d) :
    exec .hnonce (subkeyStart d s) = .next (doneOk (State.memWrite (subkeyStart d s) d (aeadSubkey s))) := by
  have hnonce := h.nonce
  rw [State.aeadNonceLen, if_pos hx] at hnonce
  obtain ⟨hdst, hapart⟩ := hd
  have hexec := exec_hnonce (s := subkeyStart d s) h.alg h.key h.length twentyRounds_legal hdst
    (Nat.le_trans (Nat.add_le_add_left (by decide) _) hnonce) (hnonce_overlap_eq_false hapart)
  rw [subkeyStart_rounds] at hexec
  exact hexec

/-- The working context of XN = 1: the subkey and the child nonce (R241). -/
theorem aeadContext_extended {s : State} (hx : s.cfg.xn = true) :
    s.aeadContext = ⟨keyOfWords (leWords (aeadSubkey s)),
      [0, 0, 0, 0] ++ s.mem.readBytes (s.regs.noncea.toNat + 16) 8⟩ := by
  have hlen : s.aeadNonceLen = 24 := by simp [State.aeadNonceLen, hx]
  have hsplit : s.memRead s.regs.noncea 24 = s.mem.readBytes s.regs.noncea.toNat 16 ++
      s.mem.readBytes (s.regs.noncea.toNat + 16) 8 := Memory.readBytes_add _ _ 16 8
  rw [State.aeadContext, aeadContext, hx, hlen, hsplit, if_pos rfl, List.take_left' (Memory.length_readBytes ..),
    List.drop_left' (Memory.length_readBytes ..), aeadSubkey, hFunction]

/-- AEAD.ENC writes DMEM by its context and its operands alone. -/
theorem sealedMem_congr {s v : State} (hc : v.aeadContext = s.aeadContext) (hm : v.mem = s.mem)
    (hsrc : v.regs.src = s.regs.src) (hdst : v.regs.dst = s.regs.dst) (hlen : v.regs.len = s.regs.len)
    (haad : v.regs.aad = s.regs.aad) (haadlen : v.regs.aadlen = s.regs.aadlen) (htag : v.regs.tag = s.regs.tag) :
    sealedMem v = sealedMem s := by
  simp only [sealedMem, cipherTag, ciphertext, State.srcBytes, State.aadBytes, State.memRead, hc, hm, hsrc, hdst, hlen, haad,
    haadlen, htag]

/-! ### Verification (R246, R247) -/

theorem foldl_or_eq_zero_iff (bs : List Byte) (acc : Byte) :
    bs.foldl (· ||| ·) acc = 0 ↔ acc = 0 ∧ ∀ b ∈ bs, b = 0 := by
  induction bs generalizing acc with
  | nil => simp
  | cons b bs ih =>
    rw [List.foldl_cons, ih, List.forall_mem_cons, ← and_assoc]
    exact and_congr_left fun _ => BitVec.or_eq_zero_iff

/-- `CtEqual` is equality on strings of one length (R247). -/
theorem ctEqual_iff {x y : List Byte} (h : x.length = y.length) : ctEqual x y = true ↔ x = y := by
  rw [ctEqual, beq_iff_eq, foldl_or_eq_zero_iff, xorBytes]
  induction x generalizing y with
  | nil =>
    obtain rfl := List.eq_nil_of_length_eq_zero h.symm
    simp
  | cons a x ih =>
    cases y with
    | nil => cases h
    | cons b y =>
      have htail := ih (Nat.succ.inj h)
      simp only [true_and] at htail ⊢
      rw [List.zipWith_cons_cons, List.forall_mem_cons, htail, List.cons.injEq]
      exact and_congr_left fun _ => BitVec.xor_eq_zero_iff

theorem exec_aeadDec_verified {s : State} (hp : passes .aeadDec s)
    (htag : s.mem.readBytes s.regs.tag.toNat 16 = s.aeadContext.tag s.aadBytes s.srcBytes) :
    exec .aeadDec s = .next (doneOk { s with mem := s.mem.writeBytes s.regs.dst.toNat (ciphertext s) }) := by
  rw [exec_aeadDec (aeadReady_of_passes_dec hp), if_pos]
  · rfl
  · exact (ctEqual_iff (by simp)).2 htag.symm

theorem exec_aeadDec_forged {s : State} (hp : passes .aeadDec s)
    (htag : s.mem.readBytes s.regs.tag.toNat 16 ≠ s.aeadContext.tag s.aadBytes s.srcBytes) :
    exec .aeadDec s = .next (s.complete .authenticationFailure) := by
  rw [exec_aeadDec (aeadReady_of_passes_dec hp), if_neg]
  exact fun h => htag ((ctEqual_iff (by simp)).1 h).symm

/-- The state about to decrypt what AEAD.ENC wrote, to `d`. -/
def opening (d : Word) (s : State) : State :=
  { doneOk { s with mem := sealedMem s } with regs := { s.regs with src := s.regs.dst, dst := d } }

section Opening
variable {s : State} {d : Word}

theorem srcBytes_opening (hp : passes .aeadEnc s) : (opening d s).srcBytes = ciphertext s := readBytes_sealedMem_dst hp

theorem aadBytes_opening (hp : passes .aeadEnc s) : (opening d s).aadBytes = s.aadBytes := readBytes_sealedMem_aad hp

/-- The nonce is still there, and with it the context. -/
theorem aeadContext_opening (hp : passes .aeadEnc s) : (opening d s).aeadContext = s.aeadContext :=
  congrArg (aeadContext s.cfg.xn s.k) (readBytes_sealedMem_nonce hp)

theorem tag_opening (hp : passes .aeadEnc s) : (opening d s).mem.readBytes (opening d s).regs.tag.toNat 16 =
    (opening d s).aeadContext.tag (opening d s).aadBytes (opening d s).srcBytes := by
  rw [srcBytes_opening hp, aadBytes_opening hp, aeadContext_opening hp]
  exact readBytes_sealedMem_tag s

/-- Decrypting the ciphertext gives the source bytes. -/
theorem ciphertext_opening (hp : passes .aeadEnc s) : ciphertext (opening d s) = s.srcBytes := by
  rw [ciphertext, srcBytes_opening hp, aeadContext_opening hp]
  exact aeadXor_involutive s.aeadContext s.srcBytes

end Opening

/-! ### The obligations -/

/-- Settles O56: SETIV and SETCTR put the AEAD state at counter 1 in W, and UPDATE outputs the ciphertext. -/
theorem aeadCiphertextIsTheStream : Obligations.AeadCiphertextIsTheStream := by
  intro s hp hx
  have h := aeadReady_of_passes_enc hp
  have hapart := not_aeadOverlap_of_passes_enc hp
  obtain ⟨r, hupdate⟩ := exec_update_streamAt h fun hbad => hapart (.inl (by simpa [BitVec.toNat_inj] using hbad))
  refine ⟨_, afterUpdate (streamAt 1 1 s) (ciphertext s, r), exec_aeadEnc_of_passes hp, rfl, ?_, rfl, fun i hi => ?_⟩
  · exact (runAll_cons_of_exec (exec_setiv_streamStart hx h 1) _).trans <|
      (runAll_cons_of_exec (exec_setctr_streamAt h) _).trans (runAll_cons_of_exec hupdate [])
  · exact (read_sealedMem_dst hp hi).trans (read_writeBytes_inside _ _ (by simpa using hi)).symm

/-- Settles O57: the KSGEN.1 block at counter 0 starts with the one-time key of the tag. -/
theorem aeadTagIsTheMac : Obligations.AeadTagIsTheMac := by
  intro s hp hx
  have h := aeadReady_of_passes_enc hp
  obtain ⟨u, hu, herr, hks⟩ := exec_ksgen1_streamAt h s.regs.ctrlo
  refine ⟨_, u, exec_aeadEnc_of_passes hp, rfl, ?_, herr, ?_⟩
  · exact (runAll_cons_of_exec (exec_setiv_streamStart hx h s.regs.ctrlo) _).trans (runAll_cons_of_exec hu [])
  · intro a c zeros
    have hc : c = ciphertext s := readBytes_sealedMem_dst hp
    rw [hks, hc]
    exact readBytes_sealedMem_tag s

/-- Settles O58: both commands have one context, the subkey that HNONCE stores and the child nonce. -/
theorem aeadExtendedNonce : Obligations.AeadExtendedNonce := by
  intro s a d hx hp hd
  have h := aeadReady_of_passes_enc hp
  refine ⟨_, _, exec_aeadEnc_of_passes hp, rfl, exec_hnonce_subkeyStart hx h hd, rfl, fun hzero hn2 v k hk hv hpv => ?_⟩
  refine ⟨_, exec_aeadEnc_of_passes hpv, rfl, fun c => ?_⟩
  have hsub : (s.mem.writeBytes d.toNat (aeadSubkey s)).readBytes d.toNat 32 = aeadSubkey s := by
    simpa using Memory.readBytes_writeBytes_self s.mem d.toNat (aeadSubkey s)
  have hkey : k = keyOfWords (leWords (aeadSubkey s)) := by
    rw [← hsub]
    exact keyWords_ext fun i => (hk i).trans (getElem_keyOfWords_readBytes ..).symm
  have hcontext : v.aeadContext = s.aeadContext := by
    rw [aeadContext_extended hx, ← hkey, ← readBytes_eq_zeros_append hzero hn2, hv, aeadContext_plain rfl]
  subst hv
  exact congrArg (Memory.read · c) (sealedMem_congr hcontext rfl rfl rfl rfl rfl rfl rfl)

/-- Settles O59: nothing AEAD.DEC reads was overwritten, so the tag verifies and the keystream is undone. -/
theorem aeadDecryptsWhatItEncrypted : Obligations.AeadDecryptsWhatItEncrypted := by
  intro s t d hp ht hpd
  rw [exec_aeadEnc_of_passes hp] at ht
  cases ht
  refine ⟨_, exec_aeadDec_verified (s := opening d s) hpd (tag_opening hp), rfl, fun i hi => ?_⟩
  rw [ciphertext_opening hp]
  exact (read_writeBytes_inside _ _ (by simpa using hi)).trans (getD_readBytes _ _ hi)

/-- Settles O60: the comparison decides between writing the plaintext and completing with no other change. -/
theorem aeadDecVerifiesBeforeItWrites : Obligations.AeadDecVerifiesBeforeItWrites := by
  refine ⟨fun x y hx hy => ctEqual_iff (hx.trans hy.symm), fun s hp => ⟨fun htag => ?_, fun htag => ?_⟩⟩
  · refine ⟨_, exec_aeadDec_verified hp htag, ?_, fun c hc => read_writeBytes_outside _ (length_ciphertext s) hc⟩
    have hread := Memory.readBytes_writeBytes_self s.mem s.regs.dst.toNat (ciphertext s)
    rwa [length_ciphertext] at hread
  · exact exec_aeadDec_forged hp htag

end Sys2Proof.Proofs
end
